-- ==== Sys2Proof/Word.lean ====
section
/-! DEFINITION. The word types and the fixed sets of names of the chipset core: widths (00_scope R11),
the two PIC controllers (10_state R26) and the three PIT channels (R34). -/

namespace Sys2Proof

/-- A byte: PIC registers, vectors, the data of a byte transaction (R11). -/
abbrev Byte := BitVec 8

/-- A port number, 16 bits (R11, R111). -/
abbrev Port := BitVec 16

/-- A 32-bit datum: the data field of a transaction word, an entry of `ioRedirectMap`. -/
abbrev DWord := BitVec 32

/-- The 51-bit transaction word `TW` of 30_encoding R81. -/
abbrev TransactionWord := BitVec 51

/-- A wall-clock time in milliseconds, a rational (R11, decision D38). -/
abbrev Time := Rat

/-- The three access widths, R6. -/
inductive Width where
  | byte
  | word
  | dword
  deriving DecidableEq, Repr, Inhabited

/-- The two PIC controllers: `master` is the spec's k = 0, `slave` its k = 1 (R26). -/
inductive Ctrl where
  | master
  | slave
  deriving DecidableEq, Repr, Inhabited

/-- The three PIT channels, the spec's c = 0, 1, 2 (R34). -/
inductive Chan where
  | ch0
  | ch1
  | ch2
  deriving DecidableEq, Repr, Inhabited

end Sys2Proof
end

