-- ==== Sys2Proof/Config.lean ====
section
/-! DEFINITION. What an implementation fixes and what the spec leaves free: the parameters of
00_scope R6 and R7, the host messages of R15, and the free values, each an opaque constant with no
body, so that nothing can be proved of its value. -/

namespace Sys2Proof

/-- `PIT_HZ` (R6): the fixed oscillator constant in hertz. -/
def Config.pitHz : Nat := 1193181

/-- `P_SPEAKER` (R6): the one port number the source fixes. -/
def Config.speakerPort : Port := 0x61

/-- `WORD_FALLBACK_LIMIT` (R6): the word-to-bytes fallback applies to ports below it. -/
def Config.wordFallbackLimit : Nat := 1024

/-- The eight open port numbers of R7 (decision D1, log 3). -/
structure Ports where
  picCmd0 : Port
  picData0 : Port
  picCmd1 : Port
  picData1 : Port
  pitCh0 : Port
  pitCh1 : Port
  pitCh2 : Port
  pitCtrl : Port
  deriving DecidableEq, Repr, Inhabited

/-- The defaults of R7, the ones opcode_table.json is computed with (R96).
DESIGN CHOICE (log 3): the source gives no number; unsafe for a claim about a concrete port. -/
def Config.defaultPorts : Ports where
  picCmd0 := 0x20
  picData0 := 0x21
  picCmd1 := 0xA0
  picData1 := 0xA1
  pitCh0 := 0x40
  pitCh1 := 0x41
  pitCh2 := 0x42
  pitCtrl := 0x43

/-- The command port of controller k. -/
def Ports.picCmd (p : Ports) : Ctrl → Port
  | .master => p.picCmd0
  | .slave => p.picCmd1

/-- The data port of controller k. -/
def Ports.picData (p : Ports) : Ctrl → Port
  | .master => p.picData0
  | .slave => p.picData1

/-- The data port of PIT channel c. -/
def Ports.pitChan (p : Ports) : Chan → Port
  | .ch0 => p.pitCh0
  | .ch1 => p.pitCh1
  | .ch2 => p.pitCh2

/-- The CPU core's status-code ranges (R90, decision D39): `ST_EXCEPTION_MIN`, and the numeric ranges
that `isDebugTrap` and `isHalt` pick, both ends included (log 15). -/
structure StatusRanges where
  exceptionMin : Nat
  debugLo : Nat
  debugHi : Nat
  haltLo : Nat
  haltHi : Nat
  deriving DecidableEq, Repr, Inhabited

/-- The open parameters of R7 that a step reads. They are configuration: no rule changes them. They
stand in State so that a statement over all states holds for every value (log 29). -/
structure Params where
  /-- port numbers of PIC and PIT -/
  ports : Ports
  /-- status ranges of the CPU core -/
  status : StatusRanges
  /-- `CPU_BURST_BUDGET` -/
  burstBudget : Nat
  /-- `FIRMWARE` -/
  firmware : List Byte
  /-- `FIRMWARE_ORIGIN`, a guest address -/
  firmwareOrigin : Nat
  /-- `MEM_ORIGIN`, the base offset of DMA -/
  memOrigin : Nat
  deriving DecidableEq, Repr, Inhabited

/-- A reading question of the CPU contract (R12 (c)), asked by an inspection command (R217, log 16). -/
inductive CoreQuery where
  | getSegmentBase (selector : Nat)
  | disassemble (segment offset count : Nat)
  deriving DecidableEq, Repr, Inhabited

/-- The outbound messages of R15. The spec gives no field types (N22): these are the model's (DESIGN CHOICE,
log 33). The block itself emits `write`, `beep`, `outb`, `alert` and `debugReaction`; the others belong to
out-of-scope devices. Frequency 0 is silence. -/
inductive Msg where
  | write (text : String)
  | beep (frequency : Rat)
  | vgaMode (dim vdim bitsPerPixel flags : Nat)
  | vga (frameBytes : List Byte)
  | vgaCursor (offset : Nat)
  | pal (index rgba : Nat)
  | outb (port : Port) (data : Byte)
  | alert (message : String)
  | debugReaction
  deriving DecidableEq, Repr, Inhabited

/-- A message of the block with opaque contents that reports to the host (R15, R91): `write` or `alert`. `outb` and
`beep` have contents the rules fix, and the screen's messages belong to out-of-scope devices (log 17). -/
inductive Output where
  | write (text : String)
  | alert (message : String)
  deriving DecidableEq, Repr, Inhabited

/-- A message of a redraw: an output or a `debugReaction` (R91, R207, R213; log 17). -/
inductive Report where
  | output (o : Output)
  | debugReaction
  deriving DecidableEq, Repr, Inhabited

/-- The outbound message an output is. -/
def Output.toMsg : Output → Msg
  | .write text => .write text
  | .alert message => .alert message

/-- The outbound message a report is. -/
def Report.toMsg : Report → Msg
  | .output o => o.toMsg
  | .debugReaction => .debugReaction

/-- What an out-of-scope device's handler may do to the block when it is called (R13, R112, U26).
`raise n more` is `raiseIRQ(n, more + 1)`, so that the count is positive by construction; `portWrite`
is a byte write of its own to one of the block's ports (log 12). -/
inductive DeviceAction where
  | raise (n : Fin 16) (more : Nat)
  | clear (n : Fin 16)
  | dmaRead (addr n : Nat)
  | dmaWrite (addr : Nat) (bytes : List Byte)
  | emit (m : Msg)
  | portWrite (port : Port) (d : Byte)
  deriving DecidableEq, Repr, Inhabited

/-- `draw8()` (R10): the n-th unconstrained byte. FREE VALUE (log 7). -/
opaque Config.draw8 : Nat → Byte

/-- The byte at a buffer index of guest memory before anything is written there (R45, U11).
FREE VALUE (log 8). -/
opaque Config.unwrittenByte : Nat → Byte

/-- What the write handler `id` of an out-of-scope device does, at the n-th free value.
FREE VALUE (U26, log 12). -/
opaque Config.otherWrite : (id : Nat) → Width → Port → DWord → (n : Nat) → List DeviceAction

/-- What the read handler `id` of an out-of-scope device returns and does, at the n-th free value.
FREE VALUE (U26, log 12). -/
opaque Config.otherRead : (id : Nat) → Width → Port → (n : Nat) → DWord × List DeviceAction

/-- The lines the out-of-scope devices raise in answer to the host command `key` (R211).
FREE VALUE (log 14). -/
opaque Config.keyRaises : (kind code : String) → (keyCode : Nat) → (ctrlKey altKey : Bool) → (n : Nat) →
    List (Fin 16)

/-- The lines raised in answer to the host command `pointer` (R211). FREE VALUE (log 14). -/
opaque Config.pointerRaises : (move : Option (Int × Int)) → (button : Option Nat) → (pressed : Option Bool) →
    (n : Nat) → List (Fin 16)

/-- The lines raised in answer to the host command `attach` (R211). FREE VALUE (log 14). -/
opaque Config.attachRaises : (image : List Byte) → (n : Nat) → List (Fin 16)

/-- `allocate(generation) -> handle` of the CPU contract (R12, R192). FREE VALUE (log 16). -/
opaque Config.allocate : (generation : Nat) → Nat

/-- `getRegisterMap(handle)` of the CPU contract (R12, R192). FREE VALUE (log 16). -/
opaque Config.registerMap : (handle : Nat) → List (String × Nat)

/-- The CPU core's position, segment and offset, when a step over asks for it. FREE VALUE (log 35). -/
opaque Config.corePosition : (n : Nat) → Nat × Nat

/-- Whether a call or loop construct stands at that position (R214). FREE VALUE (log 35). -/
opaque Config.atConstruct : (n : Nat) → Bool

/-- `disassemble(handle, segment, offset, count) -> consumed bytes` of the CPU contract (R12). FREE VALUE
(log 35). -/
opaque Config.consumedBytes : (segment offset count : Nat) → (n : Nat) → Nat

/-- The questions an inspection command asks of the CPU core (R217). FREE VALUE (log 16). -/
opaque Config.inspectQueries : (command : String) → Nat → List CoreQuery

/-- The diagnostic dump of R206: zero or more texts. FREE VALUE (U16, log 17). -/
opaque Config.dumpTexts : Nat → List String

/-- The text of the `alert` of R206. FREE VALUE (U16, log 17). -/
opaque Config.alertText : Nat → String

/-- The messages of "redraw diagnostic state" (R207, R213). FREE VALUE (U16, log 17). -/
opaque Config.redrawMessages : Nat → List Report

/-- The output of a read-only inspection command (R217). FREE VALUE (U16, log 17). -/
opaque Config.inspectMessages : (command : String) → Nat → List Output

/-- The status ranges, which the source does not number (N16). FREE VALUE (log 15). -/
opaque Config.status : StatusRanges

/-- `CPU_BURST_BUDGET` (N15, D41). FREE VALUE (log 29). -/
opaque Config.burstBudget : Nat

/-- `FIRMWARE` (N20). FREE VALUE (log 26). -/
opaque Config.firmware : List Byte

/-- `FIRMWARE_ORIGIN` (N20). FREE VALUE (log 26). -/
opaque Config.firmwareOrigin : Nat

/-- `MEM_ORIGIN` (N26). FREE VALUE (log 26). -/
opaque Config.memOrigin : Nat

/-- `PIC_RESET_IMR` (R7, R51, D26). DESIGN CHOICE (log 4): an open parameter; 0xFF is the value the spec
offers simulators. Unsafe: a claim about the reset state may lean on it. -/
def Config.picResetImr : Byte := 0xFF

/-- The parameters of the reset state: default ports, everything else free (log 29). -/
def Config.params : Params where
  ports := Config.defaultPorts
  status := Config.status
  burstBudget := Config.burstBudget
  firmware := Config.firmware
  firmwareOrigin := Config.firmwareOrigin
  memOrigin := Config.memOrigin

end Sys2Proof
end

