-- ==== Sys2Proof/Syntax.lean ====
section
/-! DEFINITION. The operations the block accepts (30_encoding R80), one constructor per mnemonic of
opcode_table.json; what the table fixes per row (k, c, sc, rw) is an operand. -/

namespace Sys2Proof

/-- A write handler of a bus slot (R23). The block's own devices are named (R47); `other id` is a handler
of an out-of-scope device. -/
inductive WriteHandler where
  | picCmd (k : Ctrl)
  | picData (k : Ctrl)
  | pitChan (c : Chan)
  | pitCtrl
  | speaker
  | other (id : Nat)
  deriving DecidableEq, Repr

/-- A read handler of a bus slot (R23). The PIT control port has none (R171). -/
inductive ReadHandler where
  | picCmd (k : Ctrl)
  | picData (k : Ctrl)
  | pitChan (c : Chan)
  | speaker
  | other (id : Nat)
  deriving DecidableEq, Repr

/-- One thing the CPU core does inside a burst or a step (R193): a port transaction, a trap point, a direct
access to guest memory, or nothing while the wall clock moves on to `t` (log 9, log 10). -/
inductive CoreOp where
  | read (w : Width) (port : Port)
  | write (w : Width) (port : Port) (value : DWord)
  | trap
  | load (addr n : Nat)
  | store (addr : Nat) (bytes : List Byte)
  | clock (t : Time)
  deriving DecidableEq, Repr

/-- How `run` or `step` of the CPU core ends: with a status code, or with a throw (R193, R210). -/
inductive BurstEnd where
  | status (code : Nat)
  | threw
  deriving DecidableEq, Repr

/-- What the CPU core does in one burst and how the burst ends (R193, R202), and what the UART drain that
follows it prints (R204). -/
structure Burst where
  ops : List CoreOp
  ending : BurstEnd
  drained : List String
  deriving DecidableEq, Repr

/-- The abstract commands carried by `debug{commandLine}` (R217): the four named ones, a read-only
inspection, and a command that would modify registers, memory or breakpoints. -/
inductive DebugCommand where
  | breakIn
  | resume
  | step (ops : List CoreOp) (ending : BurstEnd)
  | stepOver (ops : List CoreOp) (ending : BurstEnd)
  | inspect (command : String)
  | modify (command : String)
  deriving DecidableEq, Repr

/-- The operations of the block, one constructor per mnemonic of opcode_table.json. `d` is a byte after the
bus's masking; the fields the table calls ignored are kept so that no bit of a word is dropped. The spec gives the
fields of the host commands no types (00_scope R15, N22): those here (natural numbers for codes, buttons, sizes and
generations, a pair of integers for a pointer's move, strings) are the model's (DESIGN CHOICE, log 33). -/
inductive Instr where
  -- level 1: bus transactions (R81, R82); `value` is TW[31:0] before masking
  | inb (port : Port)
  | inw (port : Port)
  | ind (port : Port)
  | outb (port : Port) (value : DWord)
  | outw (port : Port) (value : DWord)
  | outd (port : Port) (value : DWord)
  -- level 2: register-level commands of the PIC (R84, R85)
  | picIcw1 (k : Ctrl) (d : Byte)
  | picIcw2 (k : Ctrl) (d : Byte)
  | picIcw3 (k : Ctrl) (d : Byte)
  | picIcw4 (k : Ctrl) (d : Byte)
  | picOcw1 (k : Ctrl) (d : Byte)
  | picEoi (k : Ctrl) (ignored : BitVec 3)
  | picSeoi (k : Ctrl) (line : BitVec 3)
  | picNopCmd (k : Ctrl) (d : Byte)
  | picRdImr (k : Ctrl)
  | picRdCmd (k : Ctrl)
  -- level 2: register-level commands of the PIT and the speaker gate (R87, R88)
  | pitCtrl (sc : Chan) (rw : BitVec 2) (mode : BitVec 3) (bcd : BitVec 1)
  | pitLatch (sc : Chan) (ignored : BitVec 4)
  | pitRdback (ignored : BitVec 6)
  | pitRdCtrl
  | pitLdLo (c : Chan) (d : Byte)
  | pitLdHi (c : Chan) (d : Byte)
  | pitRd (c : Chan)
  | spkWr (d : Byte)
  | spkRd
  -- level 3: procedure-level operations (R80, format CALL)
  | register (port : Port) (w : Width) (wr : Option WriteHandler) (rd : Option ReadHandler)
  | arbitrate
  | raiseIrq (n count : Nat)
  | clearIrq (n : Nat)
  | dequeueIrq
  | setPeriod (ms : Nat)
  | clearPeriod
  | memRead (addr n : Nat)
  | memWrite (addr : Nat) (bytes : List Byte)
  -- level 4: Scheduler and host commands (R80, format HOST)
  | start (memoryKB : Nat) (redirectMap : Vector DWord 2048) (generation : Nat) (imageName : Option String)
  | run (generation : Nat)
  | cont (t1 : Time) (burst : Burst) (t2 : Time)
  | resetCmd (generation : Nat)
  | stepCmd (ops : List CoreOp) (ending : BurstEnd)
  | stepOver (ops : List CoreOp) (ending : BurstEnd)
  | breakCmd
  | continueCmd
  | debugCmd (command : DebugCommand)
  | nmi
  | key (kind code : String) (keyCode : Nat) (ctrlKey altKey : Bool)
  | pointer (move : Option (Int × Int)) (button : Option Nat) (pressed : Option Bool)
  | attach (image : List Byte)
  deriving DecidableEq, Repr

end Sys2Proof
end

