-- ==== Sys2Proof/WellFormed.lean ====
section
/-! DEFINITION. The checks on an operation's operands that need no machine state: the byte of a
register-level command must be one the table gives that command (30_encoding R84, R87), and an argument of a
procedure-level call must lie in its stated domain (00_scope R16 (b)). -/

namespace Sys2Proof

/-- The command-port bytes that match neither ICW1 nor an EOI pattern (R84, R131). -/
def isNopCommand (d : Byte) : Bool :=
  !d.getLsbD 4 && (d &&& 0xF8) != 0x20 && (d &&& 0xF8) != 0x60

/-- The clock readings inside a list of CPU activity never go back below `t` (D38). -/
def clockRises : Time → List CoreOp → Bool
  | _, [] => true
  | t, .clock u :: rest => decide (t ≤ u) && clockRises u rest
  | t, .read _ _ :: rest => clockRises t rest
  | t, .write _ _ _ :: rest => clockRises t rest
  | t, .trap :: rest => clockRises t rest
  | t, .load _ _ :: rest => clockRises t rest
  | t, .store _ _ :: rest => clockRises t rest

/-- The latest clock reading of a list of CPU activity that starts at `t`. -/
def clockAfter : Time → List CoreOp → Time
  | t, [] => t
  | _, .clock u :: rest => clockAfter u rest
  | t, .read _ _ :: rest => clockAfter t rest
  | t, .write _ _ _ :: rest => clockAfter t rest
  | t, .trap :: rest => clockAfter t rest
  | t, .load _ _ :: rest => clockAfter t rest
  | t, .store _ _ :: rest => clockAfter t rest

/-- The block's own write handlers stand in byte slots only (decision D2). -/
def ownHandlersInByteSlot (w : Width) (wr : Option WriteHandler) (rd : Option ReadHandler) : Bool :=
  w == .byte ||
    ((match wr with | none => true | some (.other _) => true | some _ => false) &&
     (match rd with | none => true | some (.other _) => true | some _ => false))

/-- Operands in the stated domain of the operation. -/
def Instr.wellFormed : Instr → Bool
  | .inb _ => true
  | .inw _ => true
  | .ind _ => true
  | .outb _ _ => true
  | .outw _ _ => true
  | .outd _ _ => true
  | .picIcw1 _ d => d.getLsbD 4
  | .picIcw2 _ _ => true
  | .picIcw3 _ _ => true
  | .picIcw4 _ _ => true
  | .picOcw1 _ _ => true
  | .picEoi _ _ => true
  | .picSeoi _ _ => true
  | .picNopCmd _ d => isNopCommand d
  | .picRdImr _ => true
  | .picRdCmd _ => true
  | .pitCtrl _ rw _ _ => rw != 0
  | .pitLatch _ _ => true
  | .pitRdback _ => true
  | .pitRdCtrl => true
  | .pitLdLo _ _ => true
  | .pitLdHi _ _ => true
  | .pitRd _ => true
  | .spkWr _ => true
  | .spkRd => true
  | .register _ w wr rd => ownHandlersInByteSlot w wr rd
  | .arbitrate => true
  | .raiseIrq n count => decide (n < 16) && decide (0 < count)
  | .clearIrq n => decide (n < 16)
  | .dequeueIrq => true
  | .setPeriod ms => decide (0 < ms)
  | .clearPeriod => true
  | .memRead _ _ => true
  | .memWrite _ _ => true
  | .start _ _ _ _ => true
  | .run _ => true
  | .cont t1 b t2 => clockRises t1 b.ops && decide (clockAfter t1 b.ops ≤ t2)
  | .resetCmd _ => true
  | .stepCmd _ _ => true
  | .stepOver _ _ => true
  | .breakCmd => true
  | .continueCmd => true
  | .debugCmd _ => true
  | .nmi => true
  | .key _ _ _ _ _ => true
  | .pointer _ _ _ => true
  | .attach _ => true

end Sys2Proof
end

