-- ==== Sys2Proof/Decode.lean ====
section
/-! DEFINITION. Decoding of a transaction word in the two stages of 30_encoding R92, total, rejecting by
name, and the encoder. What the word alone does not say (which handler holds the slot, the phase of the
device) stands in a `DecodeCtx`. -/

namespace Sys2Proof

/-- Why a transaction word is no operation (R82, R93 (f)). -/
inductive DecodeError where
  | widthCodeThree
  deriving DecidableEq, Repr

/-- The device state that decides decoding (R92): the port numbers, the byte slots of the bus, and the
phases of the PIC controllers and PIT channels. -/
structure DecodeCtx where
  ports : Ports
  wr8 : Port → Option WriteHandler
  rd8 : Port → Option ReadHandler
  picPhase : Ctrl → Fin 4
  pitPhase : Chan → Fin 2

/-! ### The fields of the transaction word (R81) -/

def twIsWrite (tw : TransactionWord) : Bool := tw.getLsbD 50

def twWidthCode (tw : TransactionWord) : BitVec 2 := tw.extractLsb' 48 2

def twPort (tw : TransactionWord) : Port := tw.extractLsb' 32 16

def twData (tw : TransactionWord) : DWord := tw.extractLsb' 0 32

/-- The width a width code stands for; 3 stands for none (R81). -/
def widthOfCode : BitVec 2 → Option Width
  | 0 => some .byte
  | 1 => some .word
  | 2 => some .dword
  | _ => none

/-- The byte of a byte write: the data field masked to 8 bits (R83). -/
def lowByte (v : DWord) : Byte := v.extractLsb' 0 8

/-! ### Stage 2: what a byte means to the device (R84 to R88, R92) -/

/-- A byte written to a PIC command port; the first match wins, in any phase (R84, R123). -/
def decodePicCommand (k : Ctrl) (d : Byte) : Instr :=
  if d.getLsbD 4 then .picIcw1 k d
  else if d &&& 0xF8 = 0x20 then .picEoi k (d.extractLsb' 0 3)
  else if d &&& 0xF8 = 0x60 then .picSeoi k (d.extractLsb' 0 3)
  else .picNopCmd k d

/-- A byte written to a PIC data port is decoded by the controller's phase alone (R121). -/
def decodePicData (phase : Fin 4) (k : Ctrl) (d : Byte) : Instr :=
  match phase with
  | 0 => .picOcw1 k d
  | 1 => .picIcw2 k d
  | 2 => .picIcw3 k d
  | 3 => .picIcw4 k d

/-- The channel a counter-select field names; 3 names none (R87). -/
def chanOfSelect : BitVec 2 → Option Chan
  | 0 => some .ch0
  | 1 => some .ch1
  | 2 => some .ch2
  | _ => none

/-- A byte written to the PIT control port (R87, R161). -/
def decodePitControl (d : Byte) : Instr :=
  match chanOfSelect (d.extractLsb' 6 2) with
  | none => .pitRdback (d.extractLsb' 0 6)
  | some sc =>
    if d.extractLsb' 4 2 = 0 then .pitLatch sc (d.extractLsb' 0 4)
    else .pitCtrl sc (d.extractLsb' 4 2) (d.extractLsb' 1 3) (d.extractLsb' 0 1)

/-- A byte written to a channel data port is decoded by the channel's phase (R165). -/
def decodePitData (phase : Fin 2) (c : Chan) (d : Byte) : Instr :=
  match phase with
  | 0 => .pitLdLo c d
  | 1 => .pitLdHi c d

/-- A byte write: the register-level command where the slot holds the block's own device at its own
port, else the bus transaction (R92). -/
def decodeByteWrite (ctx : DecodeCtx) (port : Port) (value : DWord) : Instr :=
  match ctx.wr8 port with
  | some (.picCmd k) =>
    if port = ctx.ports.picCmd k then decodePicCommand k (lowByte value) else .outb port value
  | some (.picData k) =>
    if port = ctx.ports.picData k then decodePicData (ctx.picPhase k) k (lowByte value)
    else .outb port value
  | some (.pitChan c) =>
    if port = ctx.ports.pitChan c then decodePitData (ctx.pitPhase c) c (lowByte value)
    else .outb port value
  | some .pitCtrl =>
    if port = ctx.ports.pitCtrl then decodePitControl (lowByte value) else .outb port value
  | some .speaker =>
    if port = Config.speakerPort then .spkWr (lowByte value) else .outb port value
  | some (.other _) => .outb port value
  | none => .outb port value

/-- A byte read, likewise. The PIT control port is the one with no read handler (R171). -/
def decodeByteRead (ctx : DecodeCtx) (port : Port) : Instr :=
  match ctx.rd8 port with
  | some (.picCmd k) => if port = ctx.ports.picCmd k then .picRdCmd k else .inb port
  | some (.picData k) => if port = ctx.ports.picData k then .picRdImr k else .inb port
  | some (.pitChan c) => if port = ctx.ports.pitChan c then .pitRd c else .inb port
  | some .speaker => if port = Config.speakerPort then .spkRd else .inb port
  | some (.other _) => .inb port
  | none =>
    if port = ctx.ports.pitCtrl ∧ ctx.wr8 port = some .pitCtrl then .pitRdCtrl else .inb port

/-! ### The decoder -/

/-- Stage 1 alone: the bus transaction of a word (R81, R82), whatever device is behind the port. -/
def decodeBus (tw : TransactionWord) : Except DecodeError Instr :=
  match widthOfCode (twWidthCode tw), twIsWrite tw with
  | some .byte, false => .ok (.inb (twPort tw))
  | some .word, false => .ok (.inw (twPort tw))
  | some .dword, false => .ok (.ind (twPort tw))
  | some .byte, true => .ok (.outb (twPort tw) (twData tw))
  | some .word, true => .ok (.outw (twPort tw) (twData tw))
  | some .dword, true => .ok (.outd (twPort tw) (twData tw))
  | none, _ => .error .widthCodeThree

/-- Stage 2 on top of stage 1: a byte transaction with one of the block's own ports is the
register-level command it carries. -/
def refine (ctx : DecodeCtx) : Instr → Instr
  | .inb port => decodeByteRead ctx port
  | .outb port value => decodeByteWrite ctx port value
  | i => i

/-- The decoder: both stages (R92). -/
def decode (ctx : DecodeCtx) (tw : TransactionWord) : Except DecodeError Instr :=
  (decodeBus tw).map (refine ctx)

/-! ### The encoder (R81, R82, R84 to R88, and the match column of opcode_table.json) -/

/-- The packing of R81: `dir << 50 | wc << 48 | port << 32 | data`. -/
def packWord (isWrite : Bool) (wc : BitVec 2) (port : Port) (data : DWord) : TransactionWord :=
  BitVec.ofBool isWrite ++ wc ++ port ++ data

def byteWriteWord (port : Port) (d : Byte) : TransactionWord :=
  packWord true 0 port (d.setWidth 32)

def byteReadWord (port : Port) : TransactionWord := packWord false 0 port 0

/-- The counter-select field of a channel (R87). -/
def selectOfChan : Chan → BitVec 2
  | .ch0 => 0
  | .ch1 => 1
  | .ch2 => 2

/-- The PIT control byte of its fields (R87). -/
def pitControlByte (sc rw : BitVec 2) (mode : BitVec 3) (bcd : BitVec 1) : Byte :=
  sc ++ rw ++ mode ++ bcd

/-- The transaction word of an operation, `none` for the formats CALL and HOST, which no source gives a
bit pattern (R96). -/
def encode (ports : Ports) : Instr → Option TransactionWord
  | .inb port => some (packWord false 0 port 0)
  | .inw port => some (packWord false 1 port 0)
  | .ind port => some (packWord false 2 port 0)
  | .outb port value => some (packWord true 0 port value)
  | .outw port value => some (packWord true 1 port value)
  | .outd port value => some (packWord true 2 port value)
  | .picIcw1 k d => some (byteWriteWord (ports.picCmd k) d)
  | .picIcw2 k d => some (byteWriteWord (ports.picData k) d)
  | .picIcw3 k d => some (byteWriteWord (ports.picData k) d)
  | .picIcw4 k d => some (byteWriteWord (ports.picData k) d)
  | .picOcw1 k d => some (byteWriteWord (ports.picData k) d)
  | .picEoi k ignored => some (byteWriteWord (ports.picCmd k) (0b00100#5 ++ ignored))
  | .picSeoi k line => some (byteWriteWord (ports.picCmd k) (0b01100#5 ++ line))
  | .picNopCmd k d => some (byteWriteWord (ports.picCmd k) d)
  | .picRdImr k => some (byteReadWord (ports.picData k))
  | .picRdCmd k => some (byteReadWord (ports.picCmd k))
  | .pitCtrl sc rw mode bcd =>
    some (byteWriteWord ports.pitCtrl (pitControlByte (selectOfChan sc) rw mode bcd))
  | .pitLatch sc ignored =>
    some (byteWriteWord ports.pitCtrl (selectOfChan sc ++ 0b00#2 ++ ignored))
  | .pitRdback ignored => some (byteWriteWord ports.pitCtrl (0b11#2 ++ ignored))
  | .pitRdCtrl => some (byteReadWord ports.pitCtrl)
  | .pitLdLo c d => some (byteWriteWord (ports.pitChan c) d)
  | .pitLdHi c d => some (byteWriteWord (ports.pitChan c) d)
  | .pitRd c => some (byteReadWord (ports.pitChan c))
  | .spkWr d => some (byteWriteWord Config.speakerPort d)
  | .spkRd => some (byteReadWord Config.speakerPort)
  | .register _ _ _ _ => none
  | .arbitrate => none
  | .raiseIrq _ _ => none
  | .clearIrq _ => none
  | .dequeueIrq => none
  | .setPeriod _ => none
  | .clearPeriod => none
  | .memRead _ _ => none
  | .memWrite _ _ => none
  | .start _ _ _ _ => none
  | .run _ => none
  | .cont _ _ _ => none
  | .resetCmd _ => none
  | .stepCmd _ _ => none
  | .stepOver _ _ => none
  | .breakCmd => none
  | .continueCmd => none
  | .debugCmd _ => none
  | .nmi => none
  | .key _ _ _ _ _ => none
  | .pointer _ _ _ => none
  | .attach _ => none

/-! ### The context at power-on, and the host's reading of a table word -/

/-- The block's own byte write slots of R47 at the given ports. -/
def ownWriteHandler (ports : Ports) (port : Port) : Option WriteHandler :=
  if port = ports.picCmd0 then some (.picCmd .master)
  else if port = ports.picData0 then some (.picData .master)
  else if port = ports.picCmd1 then some (.picCmd .slave)
  else if port = ports.picData1 then some (.picData .slave)
  else if port = ports.pitCh0 then some (.pitChan .ch0)
  else if port = ports.pitCh1 then some (.pitChan .ch1)
  else if port = ports.pitCh2 then some (.pitChan .ch2)
  else if port = ports.pitCtrl then some .pitCtrl
  else if port = Config.speakerPort then some .speaker
  else none

/-- The block's own byte read slots of R47 at the given ports. -/
def ownReadHandler (ports : Ports) (port : Port) : Option ReadHandler :=
  if port = ports.picCmd0 then some (.picCmd .master)
  else if port = ports.picData0 then some (.picData .master)
  else if port = ports.picCmd1 then some (.picCmd .slave)
  else if port = ports.picData1 then some (.picData .slave)
  else if port = ports.pitCh0 then some (.pitChan .ch0)
  else if port = ports.pitCh1 then some (.pitChan .ch1)
  else if port = ports.pitCh2 then some (.pitChan .ch2)
  else if port = Config.speakerPort then some .speaker
  else none

/-- The context right after power-on: the default ports, the block's own slots, every phase 0 (R47, R51,
R52). -/
def DecodeCtx.powerOn : DecodeCtx where
  ports := Config.defaultPorts
  wr8 := ownWriteHandler Config.defaultPorts
  rd8 := ownReadHandler Config.defaultPorts
  picPhase := fun _ => 0
  pitPhase := fun _ => 0

/-- The operation read from a table word of `nbits` bits as the first one after power-on, `none` where the
bits are no transaction word (log 2). -/
def decodeTableWord (nbits w : Nat) : Option Instr :=
  if nbits = 0 ∨ 2 ^ 51 ≤ w then none
  else (decode .powerOn (BitVec.ofNat 51 w)).toOption

end Sys2Proof
end

