-- ==== Sys2Proof/Machine/Sorted.lean ====
section
/-! DEFINITION. Sparse data in one canonical form: pairs with strictly rising keys. The handler tables of the
bus (10_state R23), the redirect bitmap's ports (R24) and guest memory (R45) are held this way. -/

namespace Sys2Proof.Machine

/-- The value at a key, if the key is listed. -/
def assocGet {β : Type} (l : List (Nat × β)) (a : Nat) : Option β :=
  match l with
  | [] => none
  | (b, v) :: rest => if a = b then some v else assocGet rest a

/-- The list with `v` at key `a`, in place or inserted where the keys keep rising. -/
def assocSet {β : Type} (a : Nat) (v : β) (l : List (Nat × β)) : List (Nat × β) :=
  match l with
  | [] => [(a, v)]
  | (b, w) :: rest =>
    if a < b then (a, v) :: (b, w) :: rest
    else if a = b then (a, v) :: rest
    else (b, w) :: assocSet a v rest

/-- The canonical form: every key is below all later keys. -/
def assocRising {β : Type} : List (Nat × β) → Bool
  | [] => true
  | (a, _) :: rest => rest.all (fun p => decide (a < p.1)) && assocRising rest

end Sys2Proof.Machine
end

