-- ==== Sys2Proof/Machine/State.lean ====
section
/-! DEFINITION. The machine's state as plain data (10_state R20 to R45), what a step can stop with, and the
state right after power-on (R50 to R53, 70_reset R261). -/

namespace Sys2Proof.Machine

open Sys2Proof

/-- One bus slot: a write handler and a read handler, either may be absent (R23). -/
structure Slot where
  wr : Option WriteHandler
  rd : Option ReadHandler
  deriving DecidableEq, Repr

/-- The I/O Bus (R23, R24): the three sparse handler tables, and the ports whose redirect bit is set, as a
strictly rising list (log 27). -/
structure Bus where
  h8 : List (Nat × Slot)
  h16 : List (Nat × Slot)
  h32 : List (Nat × Slot)
  redirect : List Nat
  deriving DecidableEq, Repr

/-- One PIC controller (R27 to R30). -/
structure Controller where
  phase : Fin 4
  icw0 : Byte
  icw1 : Byte
  icw2 : Byte
  icw3 : Byte
  imr : Byte
  isr : Byte
  deriving DecidableEq, Repr

/-- An entry of the ready queue (R32). -/
structure QueueEntry where
  k : Ctrl
  i : Fin 8
  vector : Byte
  deriving DecidableEq, Repr

/-- The PIC (R26 to R32): two controllers, sixteen pending counts, one queue. -/
structure Pic where
  master : Controller
  slave : Controller
  pend : Vector Nat 16
  queue : List QueueEntry
  deriving DecidableEq, Repr

/-- One PIT channel (R34 to R36). -/
structure Channel where
  value : BitVec 16
  phase : Fin 2
  ctrl : Byte
  deriving DecidableEq, Repr

/-- The tone output (R38): silent, or a frequency in hertz. -/
inductive Tone where
  | silent
  | hz (f : Rat)
  deriving DecidableEq, Repr

/-- The PIT and the speaker gate (R34 to R38). -/
structure Pit where
  ch0 : Channel
  ch1 : Channel
  ch2 : Channel
  gate : Bool
  tone : Tone
  deriving DecidableEq, Repr

/-- The Scheduler's states (R39). No rule enters `haltedShutdown` (R219). -/
inductive SchedState where
  | idle
  | running
  | debugPaused
  | haltedException
  | haltedShutdown
  deriving DecidableEq, Repr

/-- The Scheduler's session state (R39 to R44). -/
structure Sched where
  state : SchedState
  period : Option Nat
  lastTick : Time
  debugReq : Bool
  wake : Option Time
  cpu : Option Nat
  regmap : List (String × Nat)
  generation : Nat
  deriving DecidableEq, Repr

/-- Guest memory (R45, R70): the configured size in bytes, and the bytes written so far by buffer index. An
index that is not listed has never been written (log 8). -/
structure Memory where
  size : Nat
  cells : List Host.Cell
  deriving DecidableEq, Repr

/-- The canonical form of guest memory: buffer indices strictly rising. -/
abbrev Memory.wf (m : Memory) : Prop := assocRising m.cells = true

/-- A value handed back to a caller: the data of a read, a vector, the bytes of a memory read (log 20). -/
inductive Reply where
  | data (w : Width) (v : DWord)
  | vector (v : Byte)
  | bytes (l : List Byte)
  deriving DecidableEq, Repr

/-- A call of the CPU contract of R12 (c) made by the Scheduler (log 16, log 35). -/
inductive CoreCall where
  | allocate (generation : Nat)
  | getRegisterMap (handle : Nat)
  | reset (handle : Nat) (generation : Nat)
  | run (handle : Option Nat) (budget : Nat)
  | step (handle : Option Nat)
  | getSegmentBase (handle : Option Nat) (selector : Nat)
  | disassemble (handle : Option Nat) (segment offset count : Nat)
  | setBreakpoint (handle : Option Nat) (segment offset : Nat)
  deriving DecidableEq, Repr

/-- What an agent presents next (R5, log 1): a reading of the wall clock, a transaction word, or an
operation that has no encoding. -/
inductive Request where
  | clock (t : Time)
  | word (tw : TransactionWord)
  | op (i : Instr)
  deriving DecidableEq, Repr

/-- The whole machine. The fields from `now` on are the model's own (INVENTORY.md, State). -/
structure State where
  params : Params
  bus : Bus
  hostOut : List Msg
  pic : Pic
  pit : Pit
  sched : Sched
  mem : Memory
  now : Time
  inbox : List Request
  returned : List Reply
  coreCalls : List CoreCall
  fresh : Nat
  deriving DecidableEq, Repr

/-- What stops the machine with a fault: nothing. "Hardware never throws" (R16), and nothing in this block is
treated as a fault (93_implementation_defined, part 1). -/
inductive Fault where
  deriving DecidableEq, Repr

/-- What the model gives no step. Each is a refusal the spec itself names (00_scope R16, 93 U17 to U22) or an
input outside its stated law. All are safe: nothing is claimed of what follows. -/
inductive Refusal where
  /-- An instruction with no meaning yet. No arm uses it. -/
  | notModelled (mnemonic : String)
  /-- `ConfigError(port, w)`: REGISTER on an occupied slot (R101). -/
  | configError (port : Port) (w : Width)
  /-- REGISTER after construction: the tables never change then (R23, R100; log 13). -/
  | registerAfterConstruction
  /-- RAISEIRQ or CLEARIRQ with a line outside 0..15 (R142, U17). -/
  | lineOutOfRange
  /-- RAISEIRQ with a count below 1 (R142, U17). -/
  | countNotPositive
  /-- SETPERIOD with a period that is not positive (R196). -/
  | periodNotPositive
  /-- MemRead, MemWrite, the firmware load or the DMA of a device's handler outside guest memory (R72, R73,
  U18). -/
  | dmaOutsideMemory
  /-- A direct access of the CPU core (a `load` or `store` inside a burst or a step) to a guest address outside
  the configured region, which is no guest memory (R70; log 11). -/
  | coreAccessOutsideMemory (addr n : Nat)
  /-- START or RUN when the Scheduler is not Idle (R195, R198, U22). -/
  | notIdle
  /-- RESET with no CPU handle (R212, U22). -/
  | noCpuHandle
  /-- STEP, STEPOVER or CONTINUE in a state other than DebugPaused and HaltedException (R213, R216, U22). -/
  | notPaused
  /-- CONT when no continuation is enabled: not Running, no wake time, or before the wake time (R199). -/
  | continuationNotEnabled
  /-- A wall-clock reading before an earlier one: outside the law of the input (D38, log 9). -/
  | clockWentBack
  /-- The host command `nmi`, for which the spec gives no effect (R218, U20). -/
  | nmiUnmodelled
  /-- A debug command that would modify registers, memory or breakpoints (R217, U21). -/
  | debugModification
  /-- A register-level operation whose byte, or the phase of its device, makes the transaction another
  command (R121, R165, R92; log 19). -/
  | notThisCommand
  /-- A transaction word with width code 3 (R82, R93 (f)). -/
  | notATransaction
  deriving DecidableEq, Repr

/-- A controller at power-on (R51, D26): zeros, and the given IMR. -/
def Controller.powerOn (imr : Byte) : Controller where
  phase := 0
  icw0 := 0
  icw1 := 0
  icw2 := 0
  icw3 := 0
  imr := imr
  isr := 0

/-- The PIC at power-on (R51, D26). -/
def Pic.powerOn (imr : Byte) : Pic where
  master := .powerOn imr
  slave := .powerOn imr
  pend := Vector.replicate 16 0
  queue := []

/-- A PIT channel at power-on (R52, D37). -/
def Channel.powerOn : Channel where
  value := 0
  phase := 0
  ctrl := 0

/-- The PIT at power-on (R52, D37). -/
def Pit.powerOn : Pit where
  ch0 := .powerOn
  ch1 := .powerOn
  ch2 := .powerOn
  gate := false
  tone := .silent

/-- The Scheduler at power-on (R53, D51). `lastTick` and `generation` are unspecified there: DESIGN CHOICE 0
(log 6). -/
def Sched.powerOn : Sched where
  state := .idle
  period := none
  lastTick := 0
  debugReq := false
  wake := none
  cpu := none
  regmap := []
  generation := 0

/-- The nine byte slots the block's own devices register at construction (R47, R100), at the given ports. -/
def ownSlots (p : Ports) : List (Nat × Slot) :=
  assocSet p.picCmd0.toNat ⟨some (.picCmd .master), some (.picCmd .master)⟩ <|
  assocSet p.picData0.toNat ⟨some (.picData .master), some (.picData .master)⟩ <|
  assocSet p.picCmd1.toNat ⟨some (.picCmd .slave), some (.picCmd .slave)⟩ <|
  assocSet p.picData1.toNat ⟨some (.picData .slave), some (.picData .slave)⟩ <|
  assocSet p.pitCh0.toNat ⟨some (.pitChan .ch0), some (.pitChan .ch0)⟩ <|
  assocSet p.pitCh1.toNat ⟨some (.pitChan .ch1), some (.pitChan .ch1)⟩ <|
  assocSet p.pitCh2.toNat ⟨some (.pitChan .ch2), some (.pitChan .ch2)⟩ <|
  assocSet p.pitCtrl.toNat ⟨some .pitCtrl, none⟩ <|
  assocSet Config.speakerPort.toNat ⟨some .speaker, some .speaker⟩ []

/-- The bus after construction with the block's own devices, before `start` (R50, R100, R261). -/
def Bus.powerOn (p : Ports) : Bus where
  h8 := ownSlots p
  h16 := []
  h32 := []
  redirect := []

/-- The machine after power-on with the given parameters and `PIC_RESET_IMR` (R50 to R53, R261). -/
def State.powerOn (params : Params) (imr : Byte) : State where
  params := params
  bus := .powerOn params.ports
  hostOut := []
  pic := .powerOn imr
  pit := .powerOn
  sched := .powerOn
  mem := ⟨0, []⟩
  now := 0
  inbox := []
  returned := []
  coreCalls := []
  fresh := 0

/-- The machine right after power-on: the default ports, IMR 0xFF (DESIGN CHOICE, log 3, log 4), every other
open parameter free. -/
def State.reset : State := .powerOn Config.params Config.picResetImr

end Sys2Proof.Machine
end

