-- ==== Sys2Proof/Machine/Operands.lean ====
section
/-! DEFINITION. The computed quantities of the rules: value masking and the byte pair of the fallback
(30_encoding R83), the vector (R86), the effective count, period and tone of the PIT (42_pit R168, R169, R174),
the redirect bitmap's ports (R24, R89), lines (R26), the ticks due (R201) and the status classes (R90). -/

namespace Sys2Proof.Machine

open Sys2Proof

/-- `mask(w)` applied to a value (R8, R83). -/
def maskTo : Width → DWord → DWord
  | .byte, v => v &&& 0xFF
  | .word, v => v &&& 0xFFFF
  | .dword, v => v

/-- The all-ones value of an unmapped read (R107 to R109). -/
def allOnes : Width → DWord
  | .byte => 0xFF
  | .word => 0xFFFF
  | .dword => 0xFFFFFFFF

/-- Bits 7:0 of a word (R62, R83). -/
def lowHalf (v : DWord) : Byte := v.extractLsb' 0 8

/-- Bits 15:8 of a word (R62, R83). -/
def highHalf (v : DWord) : Byte := v.extractLsb' 8 8

/-- `lo | (hi << 8)` (R83). -/
def joinHalves (lo hi : Byte) : BitVec 16 := hi ++ lo

/-- `(icw[1] & 0xF8) | i` (R86). -/
def vectorOf (icw1 : Byte) (i : Fin 8) : Byte := (icw1 &&& 0xF8) ||| BitVec.ofNat 8 i.val

/-- The global line of local line i of controller k: `8 * k + i` (R26). -/
def globalLine : Ctrl → Fin 8 → Fin 16
  | .master, i => ⟨i.val, by omega⟩
  | .slave, i => ⟨8 + i.val, by omega⟩

/-- The stored count as a divisor: 0 stands for 0x10000 (R34, R168). -/
def effectiveCount (v : BitVec 16) : Nat := if v = 0 then 0x10000 else v.toNat

/-- `ceil(a / b)` (R8). -/
def ceilDiv (a b : Nat) : Nat := (a + b - 1) / b

/-- `PeriodMs(V) = ceil(V * 1000 / 1193181)` (R169). -/
def periodMs (count : Nat) : Nat := ceilDiv (count * 1000) Config.pitHz

/-- `ToneHz(V) = 1193181 / V`, an exact rational (R174). -/
def toneHz (count : Nat) : Rat := (Config.pitHz : Rat) / (count : Rat)

/-- The ports of one 32-bit entry of `ioRedirectMap` whose first port is `base`: bit j is port `base + j`
(R89). -/
def entryPorts (base : Nat) (e : DWord) : List Nat :=
  if e = 0 then [] else ((List.range 32).filter fun j => e.getLsbD j).map (base + ·)

/-- The flagged ports of the entries from the one whose first port is `base` on, in rising order (R89). -/
def flaggedPorts (base : Nat) : List DWord → List Nat
  | [] => []
  | e :: rest => entryPorts base e ++ flaggedPorts (base + 32) rest

/-- The number of whole periods from `lastTick` to `t1`, none when the clock is behind: the bound on the
catch-up loop (R201). -/
def ticksDue (lastTick t1 : Time) (period : Nat) : Nat :=
  ((t1 - lastTick) / (period : Rat)).floor.toNat

/-- The classes of a burst's end (R90, R194). -/
inductive StatusClass where
  | exception
  | debugTrap
  | halt
  | other
  deriving DecidableEq, Repr

/-- `isException` first, then `isDebugTrap`, then `isHalt` (R90, R205). A throw is converted to an exception
status (R210). -/
def classify (r : StatusRanges) : BurstEnd → StatusClass
  | .threw => .exception
  | .status s =>
    if r.exceptionMin ≤ s then .exception
    else if r.debugLo ≤ s ∧ s ≤ r.debugHi then .debugTrap
    else if r.haltLo ≤ s ∧ s ≤ r.haltHi then .halt
    else .other

/-- The delay to the next tick, not below zero; zero without a period (R208). -/
def haltDelay (period : Option Nat) (lastTick t2 : Time) : Time :=
  match period with
  | none => 0
  | some p => max 0 (lastTick + (p : Rat) - t2)

end Sys2Proof.Machine
end

