-- ==== Sys2Proof/Machine/Flags.lean ====
section
/-! DEFINITION. The one-bit state of the block (10_state R46): mask and in-service bits of a controller
(R29, R30). There are no arithmetic condition codes. -/

namespace Sys2Proof.Machine

open Sys2Proof

/-- Mask bit i of a controller (R29). -/
def Controller.masked (c : Controller) (i : Fin 8) : Bool := c.imr.getLsbD i.val

/-- In-service bit i of a controller (R30). -/
def Controller.inService (c : Controller) (i : Fin 8) : Bool := c.isr.getLsbD i.val

/-- The byte with bit i set. -/
def setBit (b : Byte) (i : Fin 8) : Byte := b ||| (1#8 <<< i.val)

/-- The byte with bit i clear. -/
def clearBit (b : Byte) (i : Fin 8) : Byte := b &&& ~~~(1#8 <<< i.val)

/-- The eight local lines in priority order, 0 highest (R137). -/
def localLines : List (Fin 8) := [0, 1, 2, 3, 4, 5, 6, 7]

/-- The least i whose bit is set (R129). -/
def lowestSet (b : Byte) : Option (Fin 8) := localLines.find? fun i => b.getLsbD i.val

/-- The byte with its lowest set bit cleared; 0 stays 0 (R129). -/
def clearLowest (b : Byte) : Byte :=
  match lowestSet b with
  | none => b
  | some i => clearBit b i

end Sys2Proof.Machine
end

