-- ==== Sys2Proof/Machine/Ops.lean ====
section
/-! DEFINITION. The named operations over the state that the meanings share: output, free values, guest memory,
the PIC with its trap hand-off (`dequeueIRQ`, 60_exceptions R239) and its return (the EOIs, R242), the Scheduler
operations with the taking of a CPU core fault (R240), the PIT, and the bus dispatch. -/

namespace Sys2Proof.Machine

open Sys2Proof

/-- An outcome that carries a value of any type where it is a next one. -/
abbrev Outcome (α : Type) := Host.Outcome α Fault Refusal

/-- The outcome of one operation. -/
abbrev Result := Outcome State

/-- Go on with what a next outcome carries; a fault or a refusal stays what it is. -/
def andThen {α β : Type} (r : Outcome α) (f : α → Outcome β) : Outcome β :=
  match r with
  | .next a => f a
  | .fault e => .fault e
  | .refused e => .refused e

/-! ### Host channel, replies, contract calls -/

/-- `emit M` (R10, R25). -/
def emit (m : Msg) (s : State) : State := { s with hostOut := s.hostOut ++ [m] }

/-- Several messages in order. -/
def emitAll (l : List Msg) (s : State) : State := { s with hostOut := s.hostOut ++ l }

/-- Hand a value back to the caller (log 20). -/
def reply (r : Reply) (s : State) : State := { s with returned := s.returned ++ [r] }

/-- Record a call of the CPU contract (R12 (c), log 16). -/
def callCore (c : CoreCall) (s : State) : State := { s with coreCalls := s.coreCalls ++ [c] }

/-- Record calls of the CPU contract in order. -/
def callCoreAll (l : List CoreCall) (s : State) : State := { s with coreCalls := s.coreCalls ++ l }

/-- The free-value counter moves on (log 7). -/
def useFresh (s : State) : State := { s with fresh := s.fresh + 1 }

/-! ### Guest memory (20_memory R70 to R73) -/

/-- The byte at a buffer index: what was written there, else the free value (U11, log 8). -/
def Memory.readByte (m : Memory) (index : Nat) : Byte :=
  (assocGet m.cells index).getD (Config.unwrittenByte index)

/-- Write one byte at a buffer index. -/
def Memory.writeByte (index : Nat) (b : Byte) (m : Memory) : Memory :=
  { m with cells := assocSet index b m.cells }

/-- Write bytes at ascending buffer indices (R73). -/
def Memory.writeBytes (index : Nat) (bytes : List Byte) (m : Memory) : Memory :=
  match bytes with
  | [] => m
  | b :: rest => Memory.writeBytes (index + 1) rest (m.writeByte index b)

/-- The n bytes from a buffer index on, ascending (R72). -/
def Memory.readBytes (m : Memory) (index n : Nat) : List Byte :=
  (List.range n).map fun j => m.readByte (index + j)

/-- Guest addresses addr .. addr + n - 1 lie in the configured region (R70, R72). -/
def Memory.inRegion (m : Memory) (addr n : Nat) : Bool := n == 0 || decide (addr + n ≤ m.size)

/-- The bytes at a guest address, `MEM_ORIGIN + addr` on (R72). -/
def guestRead (s : State) (addr n : Nat) : List Byte :=
  s.mem.readBytes (s.params.memOrigin + addr) n

/-- Store bytes at a guest address (R73). -/
def guestWrite (addr : Nat) (bytes : List Byte) (s : State) : State :=
  { s with mem := s.mem.writeBytes (s.params.memOrigin + addr) bytes }

/-- `MemWrite`, refused outside the region (R73). -/
def memWriteOp (addr : Nat) (bytes : List Byte) (s : State) : Result :=
  if s.mem.inRegion addr bytes.length then .next (guestWrite addr bytes s)
  else .refused .dmaOutsideMemory

/-! ### The PIC: registers (10_state R26 to R31) -/

def Pic.ctrl (p : Pic) : Ctrl → Controller
  | .master => p.master
  | .slave => p.slave

def Pic.setCtrl (k : Ctrl) (c : Controller) (p : Pic) : Pic :=
  match k with
  | .master => { p with master := c }
  | .slave => { p with slave := c }

/-- `pic.pend[n]` (R31). -/
def Pic.pending (p : Pic) (n : Fin 16) : Nat := p.pend[n]

def Pic.setPending (n : Fin 16) (v : Nat) (p : Pic) : Pic := { p with pend := p.pend.set n v }

/-! ### Arbitration (41_pic R136 to R140) -/

/-- The three conditions of R139 on local line i of controller k. -/
def Pic.eligible (p : Pic) (k : Ctrl) (i : Fin 8) : Bool :=
  !(p.ctrl k).inService i && !(p.ctrl k).masked i && decide (0 < p.pending (globalLine k i))

/-- `Deliver(k, i)` (R139): one from the pending count, one entry to the queue. -/
def Pic.deliver (k : Ctrl) (i : Fin 8) (p : Pic) : Pic :=
  { p.setPending (globalLine k i) (p.pending (globalLine k i) - 1) with
    queue := p.queue ++ [⟨k, i, vectorOf (p.ctrl k).icw1 i⟩] }

/-- The scan of the slave's lines; `none` when nothing was delivered (R137). -/
def scanSlave (p : Pic) : List (Fin 8) → Option Pic
  | [] => none
  | i :: rest => if p.eligible .slave i then some (p.deliver .slave i) else scanSlave p rest

/-- `ArbitrateCtrl(1)` (R137, R138). -/
def arbitrateSlave (p : Pic) : Option Pic :=
  if p.slave.phase = 0 then scanSlave p localLines else none

/-- The scan of the master's lines: at line 2, when it is unmasked, the slave comes first (R137, R140). -/
def scanMaster (p : Pic) : List (Fin 8) → Option Pic
  | [] => none
  | i :: rest =>
    match (if i = 2 ∧ p.master.masked 2 = false then arbitrateSlave p else none) with
    | some q => some q
    | none => if p.eligible .master i then some (p.deliver .master i) else scanMaster p rest

/-- `ArbitrateCtrl(0)` (R137, R138). -/
def arbitrateMaster (p : Pic) : Option Pic :=
  if p.master.phase = 0 then scanMaster p localLines else none

/-- `Arbitrate()` (R136). -/
def Pic.arbitrate (p : Pic) : Pic := (arbitrateMaster p).getD p

/-- `raiseIRQ(n, count)` on the PIC (R142). -/
def Pic.raise (n : Fin 16) (count : Nat) (p : Pic) : Pic :=
  (p.setPending n (p.pending n + count)).arbitrate

/-- `clearIRQ(n)` on the PIC (R144). -/
def Pic.clear (n : Fin 16) (p : Pic) : Pic := p.setPending n 0

def raiseIrqOp (n : Fin 16) (count : Nat) (s : State) : State := { s with pic := s.pic.raise n count }

def clearIrqOp (n : Fin 16) (s : State) : State := { s with pic := s.pic.clear n }

/-! ### Trap entry and return, as far as the block has them (60_exceptions R239, R242) -/

/-- `dequeueIRQ()` on the PIC: the vector handed out, and the PIC after it (R148). This is all the block
does at interrupt entry (R239). -/
def Pic.dequeue (p : Pic) : Byte × Pic :=
  match p.queue with
  | [] => (0, p)
  | e :: rest =>
    (e.vector,
     ({ p with queue := rest } : Pic).setCtrl e.k
       { p.ctrl e.k with isr := setBit (p.ctrl e.k).isr e.i })

/-- `TrapPoint()` (R12 (b)): the vector goes to the caller. -/
def trapPoint (s : State) : State :=
  reply (.vector s.pic.dequeue.1) { s with pic := s.pic.dequeue.2 }

/-- The part every EOI shares: the controller's in-service bits become `isr`, then arbitration (R129,
R130). This is the block's part in a return from interrupt (R242). -/
def Pic.retire (k : Ctrl) (isr : Byte) (p : Pic) : Pic :=
  (p.setCtrl k { p.ctrl k with isr := isr }).arbitrate

/-! ### Register-level effects of the PIC (41_pic R122 to R131) -/

def icw1Effect (k : Ctrl) (d : Byte) (s : State) : State :=
  { s with pic := s.pic.setCtrl k { s.pic.ctrl k with icw0 := d, phase := 1, isr := 0 } }

def icw2Effect (k : Ctrl) (d : Byte) (s : State) : State :=
  { s with pic := s.pic.setCtrl k { s.pic.ctrl k with icw1 := d, phase := 2 } }

def icw3Effect (k : Ctrl) (d : Byte) (s : State) : State :=
  { s with pic := s.pic.setCtrl k { s.pic.ctrl k with icw2 := d, phase := 3 } }

def icw4Effect (k : Ctrl) (d : Byte) (s : State) : State :=
  { s with pic := s.pic.setCtrl k { s.pic.ctrl k with icw3 := d, phase := 0 } }

def ocw1Effect (k : Ctrl) (d : Byte) (s : State) : State :=
  { s with pic := (s.pic.setCtrl k { s.pic.ctrl k with imr := d }).arbitrate }

def eoiEffect (k : Ctrl) (s : State) : State :=
  { s with pic := s.pic.retire k (clearLowest (s.pic.ctrl k).isr) }

def seoiEffect (k : Ctrl) (line : BitVec 3) (s : State) : State :=
  { s with pic := s.pic.retire k (clearBit (s.pic.ctrl k).isr ⟨line.toNat, line.isLt⟩) }

/-- A byte written to a PIC command port, in any phase (R123, R128). -/
def picCommandWrite (k : Ctrl) (d : Byte) (s : State) : State :=
  if d.getLsbD 4 then icw1Effect k d s
  else if d &&& 0xF8 = 0x20 then eoiEffect k s
  else if d &&& 0xF8 = 0x60 then seoiEffect k (d.extractLsb' 0 3) s
  else s

/-- A byte written to a PIC data port, by the phase alone (R121, R128). -/
def picDataWrite (k : Ctrl) (d : Byte) (s : State) : State :=
  match (s.pic.ctrl k).phase with
  | 0 => ocw1Effect k d s
  | 1 => icw2Effect k d s
  | 2 => icw3Effect k d s
  | 3 => icw4Effect k d s

/-! ### The Scheduler operations the PIT calls (43_scheduler R196, R197) -/

/-- `setPeriod(ms)`: the clock is sampled at the call (R196). -/
def setPeriodOp (ms : Nat) (s : State) : State :=
  { s with sched := { s.sched with period := some ms, lastTick := s.now } }

/-- `clearPeriod()` (R197). -/
def clearPeriodOp (s : State) : State := { s with sched := { s.sched with period := none } }

/-! ### The PIT and the speaker gate (42_pit R160 to R177) -/

def Pit.chan (p : Pit) : Chan → Channel
  | .ch0 => p.ch0
  | .ch1 => p.ch1
  | .ch2 => p.ch2

def Pit.setChan (c : Chan) (v : Channel) (p : Pit) : Pit :=
  match c with
  | .ch0 => { p with ch0 := v }
  | .ch1 => { p with ch1 := v }
  | .ch2 => { p with ch2 := v }

def setChannel (c : Chan) (v : Channel) (s : State) : State := { s with pit := s.pit.setChan c v }

/-- The tone is silenced and the host told (R162, R172). -/
def silenceTone (s : State) : State :=
  emit (.beep 0) { s with pit := { s.pit with tone := .silent } }

/-- The tone starts at the frequency of channel 2's load and the host is told (R168, R172). -/
def startTone (s : State) : State :=
  emit (.beep (toneHz (effectiveCount s.pit.ch2.value)))
    { s with pit := { s.pit with tone := .hz (toneHz (effectiveCount s.pit.ch2.value)) } }

/-- `PIT.CTRL` on channel c with control byte d (R162). -/
def pitCtrlEffect (c : Chan) (d : Byte) (s : State) : State :=
  match c with
  | .ch0 => clearIrqOp 0 (clearPeriodOp (setChannel .ch0 ⟨0, 0, d⟩ s))
  | .ch1 => setChannel .ch1 ⟨0, 0, d⟩ s
  | .ch2 => silenceTone (setChannel .ch2 ⟨0, 0, d⟩ s)

/-- `LoadComplete(c)` (R168). -/
def loadComplete (c : Chan) (s : State) : State :=
  match c with
  | .ch0 => setPeriodOp (periodMs (effectiveCount s.pit.ch0.value)) s
  | .ch1 => s
  | .ch2 => if s.pit.gate then startTone s else s

/-- `PIT.LDLO` (R166): the high byte keeps its value. -/
def ldLoEffect (c : Chan) (d : Byte) (s : State) : State :=
  setChannel c
    { s.pit.chan c with value := (s.pit.chan c).value.extractLsb' 8 8 ++ d, phase := 1 } s

/-- `PIT.LDHI` (R167). -/
def ldHiEffect (c : Chan) (d : Byte) (s : State) : State :=
  loadComplete c
    (setChannel c
      { s.pit.chan c with value := d ++ (s.pit.chan c).value.extractLsb' 0 8, phase := 0 } s)

/-- `SPK.WR` (R172): only bit 1 matters, and only a change of it. -/
def spkWrEffect (d : Byte) (s : State) : State :=
  match s.pit.gate, d.getLsbD 1 with
  | false, true => startTone { s with pit := { s.pit with gate := true } }
  | true, false => silenceTone { s with pit := { s.pit with gate := false } }
  | _, _ => s

/-- A byte written to the PIT control port (R161): format 0 and counter 3 do nothing (R163, R164). -/
def pitControlWrite (d : Byte) (s : State) : State :=
  match chanOfSelect (d.extractLsb' 6 2) with
  | none => s
  | some c => if d.extractLsb' 4 2 = 0 then s else pitCtrlEffect c d s

/-- A byte written to a channel data port, by the phase (R165). -/
def pitDataWrite (c : Chan) (d : Byte) (s : State) : State :=
  match (s.pit.chan c).phase with
  | 0 => ldLoEffect c d s
  | 1 => ldHiEffect c d s

/-! ### The I/O Bus (40_bus R102 to R109) -/

/-- The handler table of a width (R23). -/
def Bus.table (b : Bus) : Width → List (Nat × Slot)
  | .byte => b.h8
  | .word => b.h16
  | .dword => b.h32

def Bus.setTable (w : Width) (t : List (Nat × Slot)) (b : Bus) : Bus :=
  match w with
  | .byte => { b with h8 := t }
  | .word => { b with h16 := t }
  | .dword => { b with h32 := t }

/-- `wrH(w, p)` (R102). -/
def Bus.wrH (b : Bus) (w : Width) (p : Port) : Option WriteHandler :=
  (assocGet (b.table w) p.toNat).bind Slot.wr

/-- `rdH(w, p)` (R102). -/
def Bus.rdH (b : Bus) (w : Width) (p : Port) : Option ReadHandler :=
  (assocGet (b.table w) p.toNat).bind Slot.rd

/-- `bus.redirect[p]` (R24). -/
def Bus.redirected (b : Bus) (p : Port) : Bool := b.redirect.contains p.toNat

/-- `Forward(p, v8)` (R103). -/
def forward (p : Port) (v : Byte) (s : State) : State :=
  if s.bus.redirected p then emit (.outb p v) s else s

/-- What the block's own write handlers do with a byte (R92); an out-of-scope handler is not one. -/
def ownWrite (h : WriteHandler) (d : Byte) (s : State) : State :=
  match h with
  | .picCmd k => picCommandWrite k d s
  | .picData k => picDataWrite k d s
  | .pitChan c => pitDataWrite c d s
  | .pitCtrl => pitControlWrite d s
  | .speaker => spkWrEffect d s
  | .other _ => s

/-- One action of an out-of-scope device (log 12). Its DMA is refused outside guest memory, and the transaction
with it (R72, R73); the bytes a DMA read returns go to the device, which is opaque. -/
def runAction (a : DeviceAction) (s : State) : Result :=
  match a with
  | .raise n more => .next (raiseIrqOp n (more + 1) s)
  | .clear n => .next (clearIrqOp n s)
  | .dmaRead addr n => if s.mem.inRegion addr n then .next s else .refused .dmaOutsideMemory
  | .dmaWrite addr bytes => memWriteOp addr bytes s
  | .emit m => .next (emit m s)
  | .portWrite p d =>
    match s.bus.wrH .byte p with
    | some h => .next (forward p d (ownWrite h d s))
    | none => .next (forward p d s)

/-- The actions of an out-of-scope device, in order (R67). -/
def runActions (l : List DeviceAction) (s : State) : Result :=
  match l with
  | [] => .next s
  | a :: rest => andThen (runAction a s) (runActions rest)

/-- A write handler is called with the masked value (R23, R112). -/
def callWrite (h : WriteHandler) (w : Width) (p : Port) (v : DWord) (s : State) : Result :=
  match h with
  | .other id => runActions (Config.otherWrite id w p v s.fresh) (useFresh s)
  | .picCmd k => .next (ownWrite (.picCmd k) (lowByte v) s)
  | .picData k => .next (ownWrite (.picData k) (lowByte v) s)
  | .pitChan c => .next (ownWrite (.pitChan c) (lowByte v) s)
  | .pitCtrl => .next (ownWrite .pitCtrl (lowByte v) s)
  | .speaker => .next (ownWrite .speaker (lowByte v) s)

/-- The byte a read of port 0x61 returns: bit 1 is the gate, the others free (R173). -/
def speakerByte (gate : Bool) (free : Byte) : Byte :=
  (free &&& 0xFD) ||| (if gate then 0x02 else 0x00)

/-- A read handler is called: its value before masking, and the state after it (R23, R112). -/
def callRead (h : ReadHandler) (w : Width) (p : Port) (s : State) : Outcome (DWord × State) :=
  match h with
  | .picCmd _ => .next ((Config.draw8 s.fresh).setWidth 32, useFresh s)
  | .picData k => .next ((s.pic.ctrl k).imr.setWidth 32, s)
  | .pitChan _ => .next ((Config.draw8 s.fresh).setWidth 32, useFresh s)
  | .speaker => .next ((speakerByte s.pit.gate (Config.draw8 s.fresh)).setWidth 32, useFresh s)
  | .other id =>
    andThen (runActions (Config.otherRead id w p s.fresh).2 (useFresh s)) fun t =>
    .next ((Config.otherRead id w p s.fresh).1, t)

/-- `OUTB` (R104): the handler first, then the redirect message, with the masked value. -/
def busWriteByte (p : Port) (value : DWord) (s : State) : Result :=
  match s.bus.wrH .byte p with
  | some h => andThen (callWrite h .byte p (maskTo .byte value) s) fun t => .next (forward p (lowByte value) t)
  | none => .next (forward p (lowByte value) s)

/-- `OUTW` (R105): the word handler, else below port 1024 two byte writes, low byte first. -/
def busWriteWord (p : Port) (value : DWord) (s : State) : Result :=
  match s.bus.wrH .word p with
  | some h => callWrite h .word p (maskTo .word value) s
  | none =>
    if p.toNat < Config.wordFallbackLimit then
      andThen (busWriteByte p ((lowHalf value).setWidth 32) s) fun t =>
      busWriteByte (p + 1) ((highHalf value).setWidth 32) t
    else .next s

/-- `OUTD` (R106): the dword handler or nothing. -/
def busWriteDword (p : Port) (value : DWord) (s : State) : Result :=
  match s.bus.wrH .dword p with
  | some h => callWrite h .dword p (maskTo .dword value) s
  | none => .next s

/-- `INB` (R107). -/
def busReadByte (p : Port) (s : State) : Outcome (Byte × State) :=
  match s.bus.rdH .byte p with
  | some h => andThen (callRead h .byte p s) fun r => .next (lowByte r.1, r.2)
  | none => .next (0xFF, s)

/-- `INW` (R108): the word handler, else below port 1024 two byte reads, the low port first. -/
def busReadWord (p : Port) (s : State) : Outcome (BitVec 16 × State) :=
  match s.bus.rdH .word p with
  | some h => andThen (callRead h .word p s) fun r => .next (r.1.setWidth 16, r.2)
  | none =>
    if p.toNat < Config.wordFallbackLimit then
      andThen (busReadByte p s) fun lo =>
      andThen (busReadByte (p + 1) lo.2) fun hi =>
      .next (joinHalves lo.1 hi.1, hi.2)
    else .next (0xFFFF, s)

/-- `IND` (R109): the dword handler or all ones. -/
def busReadDword (p : Port) (s : State) : Outcome (DWord × State) :=
  match s.bus.rdH .dword p with
  | some h => callRead h .dword p s
  | none => .next (0xFFFFFFFF, s)

/-- `IoWrite(port, w, v)` (R10). -/
def ioWrite (w : Width) (p : Port) (value : DWord) (s : State) : Result :=
  match w with
  | .byte => busWriteByte p value s
  | .word => busWriteWord p value s
  | .dword => busWriteDword p value s

/-- `IoRead(port, w)` (R10): the value, zero-extended, and the state after it. -/
def ioRead (w : Width) (p : Port) (s : State) : Outcome (DWord × State) :=
  match w with
  | .byte => andThen (busReadByte p s) fun r => .next (r.1.setWidth 32, r.2)
  | .word => andThen (busReadWord p s) fun r => .next (r.1.setWidth 32, r.2)
  | .dword => busReadDword p s

/-- A read whose value goes back to the caller (log 20). -/
def ioReadReply (w : Width) (p : Port) (s : State) : Result :=
  andThen (ioRead w p s) fun r => .next (reply (.data w r.1) r.2)

/-! ### The continuation (43_scheduler R200 to R210) -/

/-- One tick of the catch-up loop (R201). -/
def tickOnce (period : Nat) (s : State) : State :=
  let s' := raiseIrqOp 0 1 s
  { s' with sched := { s'.sched with lastTick := s'.sched.lastTick + (period : Rat) } }

/-- The catch-up loop (R201), with a bound on its iterations. -/
def catchUpLoop (fuel : Nat) (period : Nat) (t1 : Time) (s : State) : State :=
  match fuel with
  | 0 => s
  | fuel + 1 =>
    if (period : Rat) ≤ t1 - s.sched.lastTick then catchUpLoop fuel period t1 (tickOnce period s)
    else s

/-- `TickCatchUp(t1)` (R201): nothing without a period, else the loop, which ends within `ticksDue`
iterations. -/
def tickCatchUp (t1 : Time) (s : State) : State :=
  match s.sched.period with
  | none => s
  | some p => catchUpLoop (ticksDue s.sched.lastTick t1 p) p t1 s

/-- From the start of a continuation to the call of the core (R200, R202): the wake time is consumed, the
ticks are caught up, `run(sched.cpu, CPU_BURST_BUDGET)` is called. -/
def enterBurst (t1 : Time) (s : State) : State :=
  let s1 := tickCatchUp t1 { s with sched := { s.sched with wake := none } }
  callCore (.run s1.sched.cpu s1.params.burstBudget) s1

/-- The wall clock reads `t`; a reading before an earlier one is outside its law (D38, log 9). -/
def clockTo (t : Time) (s : State) : Result :=
  if s.now ≤ t then .next { s with now := t } else .refused .clockWentBack

/-- One thing the CPU core does (R193, R12). The address of a direct access is a guest address, so that it lands
`MEM_ORIGIN` further on in the buffer, as DMA does; the spec gives the offset for DMA only (DESIGN CHOICE, log 32). -/
def runCoreOp (o : CoreOp) (s : State) : Result :=
  match o with
  | .read w p => ioReadReply w p s
  | .write w p v => ioWrite w p v s
  | .trap => .next (trapPoint s)
  | .load addr n =>
    if s.mem.inRegion addr n then .next (reply (.bytes (guestRead s addr n)) s)
    else .refused (.coreAccessOutsideMemory addr n)
  | .store addr bytes =>
    if s.mem.inRegion addr bytes.length then .next (guestWrite addr bytes s)
    else .refused (.coreAccessOutsideMemory addr bytes.length)
  | .clock t => clockTo t s

/-- The CPU core's activity, in its program order (R75, R193). -/
def runCoreOps (l : List CoreOp) (s : State) : Result :=
  match l with
  | [] => .next s
  | o :: rest => andThen (runCoreOp o s) (runCoreOps rest)

/-- `UartDrainTx()` (R204): zero or more texts to the host. -/
def uartDrain (texts : List String) (s : State) : State := emitAll (texts.map Msg.write) s

/-- `HaltOnException(s)` (R206, R240): the continuation stops, the CPU core's state is dumped, the host is
notified. -/
def haltOnException (s : State) : State :=
  useFresh <| emit (.alert (Config.alertText s.fresh)) <|
    emitAll ((Config.dumpTexts s.fresh).map Msg.write)
      { s with sched := { s.sched with state := .haltedException, wake := none } }

/-- "redraw diagnostic state" (R207, R213): opaque messages, of the kinds the block itself produces (R15, R91;
log 17). -/
def redraw (s : State) : State := useFresh (emitAll ((Config.redrawMessages s.fresh).map Report.toMsg) s)

/-- `DebugPause()` (R207). -/
def debugPause (s : State) : State :=
  redraw { s with sched := { s.sched with state := .debugPaused, debugReq := false, wake := none } }

/-- `RearmAtNextTick()` (R208): `now` is the fresh sample t2. -/
def rearmAtNextTick (s : State) : State :=
  { s with sched := { s.sched with
      wake := some (s.now + haltDelay s.sched.period s.sched.lastTick s.now) } }

/-- `RearmNow()` (R209). -/
def rearmNow (s : State) : State := { s with sched := { s.sched with wake := some s.now } }

/-- `Branch(s)` (R205): the first test that holds decides. -/
def branchOn (c : StatusClass) (s : State) : State :=
  match c with
  | .exception => haltOnException s
  | .debugTrap => debugPause s
  | .halt => if s.sched.debugReq then debugPause s else rearmAtNextTick s
  | .other => if s.sched.debugReq then debugPause s else rearmNow s

/-- A continuation may run (R199): Running, a wake time set, and the clock reading at it or after it. -/
def continuationEnabled (t1 : Time) (s : State) : Bool :=
  match s.sched.state, s.sched.wake with
  | .running, some w => decide (w ≤ t1)
  | _, _ => false

/-! ### Commands (43_scheduler R195, R198, R212 to R217) -/

/-- The guest memory is configured (R70, R195): bytes already written are kept (R71). -/
def configureMemory (size : Nat) (s : State) : State := { s with mem := { s.mem with size := size } }

/-- Install `ioRedirectMap` (R24, R195). -/
def installRedirect (m : Vector DWord 2048) (s : State) : State :=
  { s with bus := { s.bus with redirect := flaggedPorts 0 m.toList } }

/-- The firmware goes to its declared origin (R195, R212). -/
def loadFirmware (s : State) : Result := memWriteOp s.params.firmwareOrigin s.params.firmware s

/-- `RUN(g)` past its check (R198). -/
def runSession (g : Nat) (s : State) : State :=
  let s1 := callCore (.getRegisterMap (Config.allocate g)) (callCore (.allocate g) s)
  { s1 with sched := { s1.sched with
      cpu := some (Config.allocate g)
      regmap := Config.registerMap (Config.allocate g)
      generation := g
      state := .running
      wake := some s1.now } }

/-- `RESET(g)` past the firmware load (R212): the core is reset, the generation recorded, and the loop
restarted unless the Scheduler is paused in debug mode. Nothing else is written (R54). -/
def restart (h g : Nat) (s : State) : State :=
  let s1 := callCore (.reset h g) s
  if s1.sched.state = .debugPaused then { s1 with sched := { s1.sched with generation := g } }
  else { s1 with sched := { s1.sched with generation := g, state := .running, wake := some s1.now } }

/-- The Scheduler waits for the host: DebugPaused or HaltedException (R191); HaltedShutdown, which no rule
enters, counts as HaltedException (R219, D45; log 30). -/
def paused (s : State) : Bool :=
  s.sched.state == .debugPaused || s.sched.state == .haltedException || s.sched.state == .haltedShutdown

/-- The contract calls of a step over (R214): `disassemble` for the instruction at the core's position, then for a
call or loop construct a breakpoint at the instruction after it and a run up to there, else one step. Which calls,
and the answers, are the model's choice (log 35). -/
def stepOverCalls (s : State) : List CoreCall :=
  let seg := (Config.corePosition s.fresh).1
  let off := (Config.corePosition s.fresh).2
  .disassemble s.sched.cpu seg off 1 ::
    if Config.atConstruct s.fresh then
      [.setBreakpoint s.sched.cpu seg (off + Config.consumedBytes seg off 1 s.fresh),
       .run s.sched.cpu s.params.burstBudget]
    else [.step s.sched.cpu]

/-- `STEP` and `STEPOVER` (R213, R214): the contract calls, the core's activity, then the redraw; the Scheduler's
state is unchanged whatever the status. -/
def stepCore (calls : List CoreCall) (ops : List CoreOp) (s : State) : Result :=
  if paused s then andThen (runCoreOps ops (callCoreAll calls s)) (fun t => .next (redraw t))
  else .refused .notPaused

/-- A question of an inspection command as a contract call (R12 (c), R217). -/
def queryCall (handle : Option Nat) : CoreQuery → CoreCall
  | .getSegmentBase selector => .getSegmentBase handle selector
  | .disassemble segment offset count => .disassemble handle segment offset count

/-- An inspection command (R217): it reads, emits opaque output, and is answered by `debugReaction` (log 16 to
log 18). It is accepted in every state; that before RUN, when no core is allocated, it may ask the core as well, the
call then recorded with handle `none`, is the model's choice (DESIGN CHOICE, log 16). -/
def inspect (command : String) (s : State) : State :=
  emit .debugReaction <| useFresh <| emitAll ((Config.inspectMessages command s.fresh).map Output.toMsg) <|
    callCoreAll ((Config.inspectQueries command s.fresh).map (queryCall s.sched.cpu)) s

/-- `BREAK` (R215). -/
def breakOp (s : State) : State :=
  if s.sched.state = .running then { s with sched := { s.sched with debugReq := true } } else s

/-- `CONTINUE` (R216). -/
def continueOp (s : State) : Result :=
  if paused s then
    .next { s with sched := { s.sched with
      state := .running, debugReq := false, wake := some s.now } }
  else .refused .notPaused

/-- The reaction of out-of-scope devices to a host event: raises of their lines, in order (R211). -/
def raiseEach (l : List (Fin 16)) (s : State) : State :=
  match l with
  | [] => s
  | n :: rest => raiseEach rest (raiseIrqOp n 1 s)

/-! ### The decoder's view of the state (30_encoding R92) -/

/-- What the state says to the decoder: slots and phases. -/
def State.decodeCtx (s : State) : DecodeCtx where
  ports := s.params.ports
  wr8 := fun p => s.bus.wrH .byte p
  rd8 := fun p => s.bus.rdH .byte p
  picPhase := fun k => (s.pic.ctrl k).phase
  pitPhase := fun c => (s.pit.chan c).phase

end Sys2Proof.Machine
end

