-- ==== Sys2Proof/Machine/Bus.lean ====
section
/-! DEFINITION. Meanings of the bus transactions (40_bus R104 to R109) and of REGISTER (R101). -/

namespace Sys2Proof.Machine

open Sys2Proof

/-- INB, R107. -/
def execInb (port : Port) (s : State) : Result := ioReadReply .byte port s

/-- INW, R108. -/
def execInw (port : Port) (s : State) : Result := ioReadReply .word port s

/-- IND, R109. -/
def execInd (port : Port) (s : State) : Result := ioReadReply .dword port s

/-- OUTB, R104. -/
def execOutb (port : Port) (value : DWord) (s : State) : Result := ioWrite .byte port value s

/-- OUTW, R105. -/
def execOutw (port : Port) (value : DWord) (s : State) : Result := ioWrite .word port value s

/-- OUTD, R106. -/
def execOutd (port : Port) (value : DWord) (s : State) : Result := ioWrite .dword port value s

/-- REGISTER, R101: refused as `ConfigError` on an occupied slot, and after construction (R100; log 13). That a
handler of the block's own may be put into any free slot is the model's choice (log 34). -/
def execRegister (port : Port) (w : Width) (wr : Option WriteHandler) (rd : Option ReadHandler)
    (s : State) : Result :=
  if s.sched.state ≠ .idle then .refused .registerAfterConstruction
  else
    match assocGet (s.bus.table w) port.toNat with
    | some _ => .refused (.configError port w)
    | none => .next { s with bus := s.bus.setTable w (assocSet port.toNat ⟨wr, rd⟩ (s.bus.table w)) }

end Sys2Proof.Machine
end

