-- ==== Sys2Proof/Machine/PicMeaning.lean ====
section
/-! DEFINITION. Meanings of the PIC operations: the register-level commands, each a whole byte transaction with
the controller's port (41_pic R122 to R135; the redirect message of 40_bus R103 follows the handler), and the
procedure-level operations (R136, R142, R144, R148). A register-level command whose byte or phase makes the
transaction another command is refused (log 19). -/

namespace Sys2Proof.Machine

open Sys2Proof

/-- PIC.ICW1, R122. -/
def execPicIcw1 (k : Ctrl) (d : Byte) (s : State) : Result :=
  if decodePicCommand k d = .picIcw1 k d then
    .next (forward (s.params.ports.picCmd k) d (icw1Effect k d s))
  else .refused .notThisCommand

/-- PIC.ICW2, R124. -/
def execPicIcw2 (k : Ctrl) (d : Byte) (s : State) : Result :=
  if (s.pic.ctrl k).phase = 1 then
    .next (forward (s.params.ports.picData k) d (icw2Effect k d s))
  else .refused .notThisCommand

/-- PIC.ICW3, R125. -/
def execPicIcw3 (k : Ctrl) (d : Byte) (s : State) : Result :=
  if (s.pic.ctrl k).phase = 2 then
    .next (forward (s.params.ports.picData k) d (icw3Effect k d s))
  else .refused .notThisCommand

/-- PIC.ICW4, R126. -/
def execPicIcw4 (k : Ctrl) (d : Byte) (s : State) : Result :=
  if (s.pic.ctrl k).phase = 3 then
    .next (forward (s.params.ports.picData k) d (icw4Effect k d s))
  else .refused .notThisCommand

/-- PIC.OCW1, R127. -/
def execPicOcw1 (k : Ctrl) (d : Byte) (s : State) : Result :=
  if (s.pic.ctrl k).phase = 0 then
    .next (forward (s.params.ports.picData k) d (ocw1Effect k d s))
  else .refused .notThisCommand

/-- PIC.EOI, R129. The ignored bits only show in the redirect message. -/
def execPicEoi (k : Ctrl) (ignored : BitVec 3) (s : State) : Result :=
  .next (forward (s.params.ports.picCmd k) (0b00100#5 ++ ignored) (eoiEffect k s))

/-- PIC.SEOI, R130. -/
def execPicSeoi (k : Ctrl) (line : BitVec 3) (s : State) : Result :=
  .next (forward (s.params.ports.picCmd k) (0b01100#5 ++ line) (seoiEffect k line s))

/-- PIC.NOPCMD, R131: no state change. -/
def execPicNopCmd (k : Ctrl) (d : Byte) (s : State) : Result :=
  if decodePicCommand k d = .picNopCmd k d then .next (forward (s.params.ports.picCmd k) d s)
  else .refused .notThisCommand

/-- PIC.RDIMR, R134. -/
def execPicRdImr (k : Ctrl) (s : State) : Result :=
  .next (reply (.data .byte ((s.pic.ctrl k).imr.setWidth 32)) s)

/-- PIC.RDCMD, R135: a free byte. -/
def execPicRdCmd (_k : Ctrl) (s : State) : Result :=
  .next (reply (.data .byte ((Config.draw8 s.fresh).setWidth 32)) (useFresh s))

/-- ARBITRATE, R136. -/
def execArbitrate (s : State) : Result := .next { s with pic := s.pic.arbitrate }

/-- RAISEIRQ, R142: refused outside its domain. -/
def execRaiseIrq (n count : Nat) (s : State) : Result :=
  if h : n < 16 then
    if count = 0 then .refused .countNotPositive else .next (raiseIrqOp ⟨n, h⟩ count s)
  else .refused .lineOutOfRange

/-- CLEARIRQ, R144: refused outside its domain. -/
def execClearIrq (n : Nat) (s : State) : Result :=
  if h : n < 16 then .next (clearIrqOp ⟨n, h⟩ s) else .refused .lineOutOfRange

/-- DEQUEUEIRQ, R148. -/
def execDequeueIrq (s : State) : Result := .next (trapPoint s)

end Sys2Proof.Machine
end

