-- ==== Sys2Proof/Machine/PitMeaning.lean ====
section
/-! DEFINITION. Meanings of the PIT and speaker operations, each a whole byte transaction with the device's port
(42_pit R162 to R173; the redirect message of 40_bus R103 follows the handler), and of SETPERIOD and
CLEARPERIOD (43_scheduler R196, R197). -/

namespace Sys2Proof.Machine

open Sys2Proof

/-- PIT.CTRL, R162. Format 0 is PIT.LATCH. -/
def execPitCtrl (sc : Chan) (rw : BitVec 2) (mode : BitVec 3) (bcd : BitVec 1) (s : State) : Result :=
  if rw = 0 then .refused .notThisCommand
  else
    .next (forward s.params.ports.pitCtrl (pitControlByte (selectOfChan sc) rw mode bcd)
      (pitCtrlEffect sc (pitControlByte (selectOfChan sc) rw mode bcd) s))

/-- PIT.LATCH, R163: no state change. -/
def execPitLatch (sc : Chan) (ignored : BitVec 4) (s : State) : Result :=
  .next (forward s.params.ports.pitCtrl (selectOfChan sc ++ 0b00#2 ++ ignored) s)

/-- PIT.RDBACK, R164: no state change. -/
def execPitRdback (ignored : BitVec 6) (s : State) : Result :=
  .next (forward s.params.ports.pitCtrl (0b11#2 ++ ignored) s)

/-- PIT.RDCTRL, R171: no read handler, so all ones. -/
def execPitRdCtrl (s : State) : Result := .next (reply (.data .byte 0xFF) s)

/-- PIT.LDLO, R166. -/
def execPitLdLo (c : Chan) (d : Byte) (s : State) : Result :=
  if (s.pit.chan c).phase = 0 then .next (forward (s.params.ports.pitChan c) d (ldLoEffect c d s))
  else .refused .notThisCommand

/-- PIT.LDHI, R167. -/
def execPitLdHi (c : Chan) (d : Byte) (s : State) : Result :=
  if (s.pit.chan c).phase = 1 then .next (forward (s.params.ports.pitChan c) d (ldHiEffect c d s))
  else .refused .notThisCommand

/-- PIT.RD, R170: a free byte. -/
def execPitRd (_c : Chan) (s : State) : Result :=
  .next (reply (.data .byte ((Config.draw8 s.fresh).setWidth 32)) (useFresh s))

/-- SPK.WR, R172. -/
def execSpkWr (d : Byte) (s : State) : Result :=
  .next (forward Config.speakerPort d (spkWrEffect d s))

/-- SPK.RD, R173: bit 1 is the gate, the others are free. -/
def execSpkRd (s : State) : Result :=
  .next (reply (.data .byte ((speakerByte s.pit.gate (Config.draw8 s.fresh)).setWidth 32)) (useFresh s))

/-- SETPERIOD, R196: refused unless positive. -/
def execSetPeriod (ms : Nat) (s : State) : Result :=
  if ms = 0 then .refused .periodNotPositive else .next (setPeriodOp ms s)

/-- CLEARPERIOD, R197. -/
def execClearPeriod (s : State) : Result := .next (clearPeriodOp s)

end Sys2Proof.Machine
end

