-- ==== Sys2Proof/Machine/SchedMeaning.lean ====
section
/-! DEFINITION. Meanings of the Scheduler's and the host's commands (43_scheduler R195 to R218) and of the DMA
operations it performs (20_memory R72, R73). -/

namespace Sys2Proof.Machine

open Sys2Proof

/-- MemRead, R72: the bytes go back to the caller; refused outside the region. -/
def execMemRead (addr n : Nat) (s : State) : Result :=
  if s.mem.inRegion addr n then .next (reply (.bytes (guestRead s addr n)) s)
  else .refused .dmaOutsideMemory

/-- MemWrite, R73: `n` is the number of bytes. -/
def execMemWrite (addr : Nat) (bytes : List Byte) (s : State) : Result := memWriteOp addr bytes s

/-- START, R195. The image name goes to the out-of-scope floppy controller. -/
def execStart (memoryKB : Nat) (redirectMap : Vector DWord 2048) (generation : Nat)
    (_imageName : Option String) (s : State) : Result :=
  if s.sched.state = .idle then
    andThen (loadFirmware (configureMemory (memoryKB * 1024) (installRedirect redirectMap s)))
      (fun s1 => .next (runSession generation s1))
  else .refused .notIdle

/-- RUN, R198. -/
def execRun (generation : Nat) (s : State) : Result :=
  if s.sched.state = .idle then .next (runSession generation s) else .refused .notIdle

/-- CONT, R200: the wake time is consumed, then the four steps in order. -/
def execCont (t1 : Time) (burst : Burst) (t2 : Time) (s : State) : Result :=
  if continuationEnabled t1 s then
    andThen (clockTo t1 s) fun s1 =>
    andThen (runCoreOps burst.ops (enterBurst t1 s1)) fun s2 =>
    andThen (clockTo t2 (uartDrain burst.drained s2)) fun s3 =>
    .next (branchOn (classify s3.params.status burst.ending) s3)
  else .refused .continuationNotEnabled

/-- RESET, R212: refused in Idle, where there is no CPU handle. -/
def execResetCmd (generation : Nat) (s : State) : Result :=
  match s.sched.state, s.sched.cpu with
  | .idle, _ => .refused .noCpuHandle
  | _, none => .refused .noCpuHandle
  | _, some h => andThen (loadFirmware s) fun s1 => .next (restart h generation s1)

/-- STEP, R213. The way the instruction ends does not matter; that a throw does not either is the model's choice
(log 36). -/
def execStepCmd (ops : List CoreOp) (_ending : BurstEnd) (s : State) : Result :=
  stepCore [.step s.sched.cpu] ops s

/-- STEPOVER, R214. As in STEP, the way the activity ends does not matter, a throw included (log 36). -/
def execStepOver (ops : List CoreOp) (_ending : BurstEnd) (s : State) : Result :=
  stepCore (stepOverCalls s) ops s

/-- BREAK, R215. -/
def execBreakCmd (s : State) : Result := .next (breakOp s)

/-- CONTINUE, R216. -/
def execContinueCmd (s : State) : Result := continueOp s

/-- DEBUG, R217: the four commands it carries, a read-only inspection answered by `debugReaction`, and the
refused modifications (log 18). -/
def execDebugCmd (command : DebugCommand) (s : State) : Result :=
  match command with
  | .breakIn => .next (breakOp s)
  | .resume => continueOp s
  | .step ops _ => stepCore [.step s.sched.cpu] ops s
  | .stepOver ops _ => stepCore (stepOverCalls s) ops s
  | .inspect c => .next (inspect c s)
  | .modify _ => .refused .debugModification

/-- NMI, R218: the spec gives it no effect and says to refuse it. -/
def execNmi (_s : State) : Result := .refused .nmiUnmodelled

/-- KEY, R211. -/
def execKey (kind code : String) (keyCode : Nat) (ctrlKey altKey : Bool) (s : State) : Result :=
  .next (raiseEach (Config.keyRaises kind code keyCode ctrlKey altKey s.fresh) (useFresh s))

/-- POINTER, R211. -/
def execPointer (move : Option (Int × Int)) (button : Option Nat) (pressed : Option Bool)
    (s : State) : Result :=
  .next (raiseEach (Config.pointerRaises move button pressed s.fresh) (useFresh s))

/-- ATTACH, R211. -/
def execAttach (image : List Byte) (s : State) : Result :=
  .next (raiseEach (Config.attachRaises image s.fresh) (useFresh s))

end Sys2Proof.Machine
end

