-- ==== Sys2Proof/Machine/Dispatch.lean ====
section
/-! DEFINITION. One arm per operation: the call of its meaning. -/

namespace Sys2Proof.Machine

open Sys2Proof

def exec (i : Instr) (s : State) : Host.Outcome State Fault Refusal :=
  match i with
  | .inb port => Sys2Proof.Machine.execInb port s
  | .inw port => Sys2Proof.Machine.execInw port s
  | .ind port => Sys2Proof.Machine.execInd port s
  | .outb port value => Sys2Proof.Machine.execOutb port value s
  | .outw port value => Sys2Proof.Machine.execOutw port value s
  | .outd port value => Sys2Proof.Machine.execOutd port value s
  | .picIcw1 k d => Sys2Proof.Machine.execPicIcw1 k d s
  | .picIcw2 k d => Sys2Proof.Machine.execPicIcw2 k d s
  | .picIcw3 k d => Sys2Proof.Machine.execPicIcw3 k d s
  | .picIcw4 k d => Sys2Proof.Machine.execPicIcw4 k d s
  | .picOcw1 k d => Sys2Proof.Machine.execPicOcw1 k d s
  | .picEoi k ignored => Sys2Proof.Machine.execPicEoi k ignored s
  | .picSeoi k line => Sys2Proof.Machine.execPicSeoi k line s
  | .picNopCmd k d => Sys2Proof.Machine.execPicNopCmd k d s
  | .picRdImr k => Sys2Proof.Machine.execPicRdImr k s
  | .picRdCmd k => Sys2Proof.Machine.execPicRdCmd k s
  | .pitCtrl sc rw mode bcd => Sys2Proof.Machine.execPitCtrl sc rw mode bcd s
  | .pitLatch sc ignored => Sys2Proof.Machine.execPitLatch sc ignored s
  | .pitRdback ignored => Sys2Proof.Machine.execPitRdback ignored s
  | .pitRdCtrl => Sys2Proof.Machine.execPitRdCtrl s
  | .pitLdLo c d => Sys2Proof.Machine.execPitLdLo c d s
  | .pitLdHi c d => Sys2Proof.Machine.execPitLdHi c d s
  | .pitRd c => Sys2Proof.Machine.execPitRd c s
  | .spkWr d => Sys2Proof.Machine.execSpkWr d s
  | .spkRd => Sys2Proof.Machine.execSpkRd s
  | .register port w wr rd => Sys2Proof.Machine.execRegister port w wr rd s
  | .arbitrate => Sys2Proof.Machine.execArbitrate s
  | .raiseIrq n count => Sys2Proof.Machine.execRaiseIrq n count s
  | .clearIrq n => Sys2Proof.Machine.execClearIrq n s
  | .dequeueIrq => Sys2Proof.Machine.execDequeueIrq s
  | .setPeriod ms => Sys2Proof.Machine.execSetPeriod ms s
  | .clearPeriod => Sys2Proof.Machine.execClearPeriod s
  | .memRead addr n => Sys2Proof.Machine.execMemRead addr n s
  | .memWrite addr bytes => Sys2Proof.Machine.execMemWrite addr bytes s
  | .start memoryKB redirectMap generation imageName => Sys2Proof.Machine.execStart memoryKB redirectMap generation imageName s
  | .run generation => Sys2Proof.Machine.execRun generation s
  | .cont t1 burst t2 => Sys2Proof.Machine.execCont t1 burst t2 s
  | .resetCmd generation => Sys2Proof.Machine.execResetCmd generation s
  | .stepCmd ops ending => Sys2Proof.Machine.execStepCmd ops ending s
  | .stepOver ops ending => Sys2Proof.Machine.execStepOver ops ending s
  | .breakCmd => Sys2Proof.Machine.execBreakCmd s
  | .continueCmd => Sys2Proof.Machine.execContinueCmd s
  | .debugCmd command => Sys2Proof.Machine.execDebugCmd command s
  | .nmi => Sys2Proof.Machine.execNmi s
  | .key kind code keyCode ctrlKey altKey => Sys2Proof.Machine.execKey kind code keyCode ctrlKey altKey s
  | .pointer move button pressed => Sys2Proof.Machine.execPointer move button pressed s
  | .attach image => Sys2Proof.Machine.execAttach image s

end Sys2Proof.Machine
end

