-- ==== Sys2Proof/Machine/Fetch.lean ====
section
/-! DEFINITION. Taking the next presented operation: the block fetches no instructions (10_state R21); what
sequences it is the order in which the agents present operations (log 1). -/

namespace Sys2Proof.Machine

open Sys2Proof

/-- What the inbox holds next: nothing, a clock reading, an operation to run, or a word that is none. -/
inductive Fetched where
  | nothing
  | clock (t : Time)
  | instr (i : Instr)
  | notATransaction
  deriving DecidableEq, Repr

/-- The next operation, a transaction word decoded in the state it meets (R92). -/
def fetch (s : State) : Fetched :=
  match s.inbox with
  | [] => .nothing
  | .clock t :: _ => .clock t
  | .op i :: _ => .instr i
  | .word tw :: _ =>
    match decode s.decodeCtx tw with
    | .ok i => .instr i
    | .error _ => .notATransaction

/-- The state with the presented operation taken from the inbox. -/
def taken (s : State) : State := { s with inbox := s.inbox.tail }

/-- A transaction word at the head of the inbox. -/
def presentWord (w : Nat) (s : State) : State :=
  { s with inbox := .word (BitVec.ofNat 51 w) :: s.inbox }

end Sys2Proof.Machine
end

