-- ==== Sys2Proof/Machine/Step.lean ====
section
/-! DEFINITION. One step: the next presented operation, to its end (20_memory R67, R75). -/

namespace Sys2Proof.Machine

open Sys2Proof

/-- One step. With nothing presented the machine stays as it is (43_scheduler R220; log 28). -/
def step (s : State) : Host.Outcome State Fault Refusal :=
  match fetch s with
  | .nothing => .next s
  | .clock t => clockTo t (taken s)
  | .instr i => exec i (taken s)
  | .notATransaction => .refused .notATransaction

/-- The word stored where `step` takes its next operation from (log 1). The word carries all 51 bits of a
transaction, so `nbits` plays no part. -/
def State.withFetchWord (s : State) (_nbits w : Nat) : State := presentWord w s

end Sys2Proof.Machine
end

