-- ==== Sys2Proof/Safety.lean ====
section
/-! DEFINITION. What counts as a legal state: the invariants the spec says the rules maintain (10_state R55) with
those its other sections state of the tables, the memory and the Scheduler's states. -/

namespace Sys2Proof

/-- The block's own nine byte slots hold its own handlers at its own ports (10_state R47). -/
structure DecodeCtx.Own (ctx : DecodeCtx) : Prop where
  wrPicCmd : ∀ k, ctx.wr8 (ctx.ports.picCmd k) = some (.picCmd k)
  wrPicData : ∀ k, ctx.wr8 (ctx.ports.picData k) = some (.picData k)
  wrPitChan : ∀ c, ctx.wr8 (ctx.ports.pitChan c) = some (.pitChan c)
  wrPitCtrl : ctx.wr8 ctx.ports.pitCtrl = some .pitCtrl
  wrSpeaker : ctx.wr8 Config.speakerPort = some .speaker
  rdPicCmd : ∀ k, ctx.rd8 (ctx.ports.picCmd k) = some (.picCmd k)
  rdPicData : ∀ k, ctx.rd8 (ctx.ports.picData k) = some (.picData k)
  rdPitChan : ∀ c, ctx.rd8 (ctx.ports.pitChan c) = some (.pitChan c)
  rdPitCtrl : ctx.rd8 ctx.ports.pitCtrl = none
  rdSpeaker : ctx.rd8 Config.speakerPort = some .speaker

/-- The device state an operation's decoding needs (the `fields.cond` of opcode_table.json, R92): the phase of a
data-port command, and for a bare byte transaction a port that is none of the block's own. -/
def DecodeCtx.meets (ctx : DecodeCtx) : Instr → Prop
  | .inb port =>
    (ctx.rd8 port = none ∧ ctx.wr8 port ≠ some .pitCtrl) ∨ ∃ id, ctx.rd8 port = some (.other id)
  | .outb port _ => ctx.wr8 port = none ∨ ∃ id, ctx.wr8 port = some (.other id)
  | .picIcw2 k _ => ctx.picPhase k = 1
  | .picIcw3 k _ => ctx.picPhase k = 2
  | .picIcw4 k _ => ctx.picPhase k = 3
  | .picOcw1 k _ => ctx.picPhase k = 0
  | .pitLdLo c _ => ctx.pitPhase c = 0
  | .pitLdHi c _ => ctx.pitPhase c = 1
  | _ => True

/-- A message that is an output of the block with opaque contents: `write` or `alert` (R91). -/
def Msg.isOutput : Msg → Bool
  | .write _ => true
  | .alert _ => true
  | .beep _ => false
  | .vgaMode _ _ _ _ => false
  | .vga _ => false
  | .vgaCursor _ => false
  | .pal _ _ => false
  | .outb _ _ => false
  | .debugReaction => false

/-- A message that reports the block's diagnostic state: an output or `debugReaction` (R91). -/
def Msg.isReport (m : Msg) : Bool := m.isOutput || m == .debugReaction

end Sys2Proof

namespace Sys2Proof.Machine

open Sys2Proof

/-- The block's own nine byte slots hold its own handlers (10_state R47, 40_bus R100). -/
structure Bus.OwnRegistered (p : Ports) (b : Bus) : Prop where
  picCmd : ∀ k, assocGet b.h8 (p.picCmd k).toNat = some ⟨some (.picCmd k), some (.picCmd k)⟩
  picData : ∀ k, assocGet b.h8 (p.picData k).toNat = some ⟨some (.picData k), some (.picData k)⟩
  pitChan : ∀ c, assocGet b.h8 (p.pitChan c).toNat = some ⟨some (.pitChan c), some (.pitChan c)⟩
  pitCtrl : assocGet b.h8 p.pitCtrl.toNat = some ⟨some .pitCtrl, none⟩
  speaker : assocGet b.h8 Config.speakerPort.toNat = some ⟨some .speaker, some .speaker⟩

/-- The handler tables are in canonical form. -/
structure Bus.Canonical (b : Bus) : Prop where
  h8 : assocRising b.h8 = true
  h16 : assocRising b.h16 = true
  h32 : assocRising b.h32 = true

/-- R55 (b): the low three bits of a queued vector are its local line. -/
def QueueEntry.vectorMatchesLine (e : QueueEntry) : Prop := e.vector.extractLsb' 0 3 = BitVec.ofNat 3 e.i.val

/-- What an agent presents as SETPERIOD is a period the PIT can compute (R196: its only caller; R169). -/
def Request.periodInRange (r : Request) : Prop :=
  ∀ ms, r = .op (.setPeriod ms) → ms ≤ 55

/-- A legal state. The ranges of R55 (a) are in the types. -/
structure State.Legal (s : State) : Prop where
  /-- R55 (b) -/
  queue : ∀ e ∈ s.pic.queue, e.vectorMatchesLine
  /-- R55 (c), R43: a continuation is scheduled exactly while Running -/
  wake : s.sched.wake ≠ none ↔ s.sched.state = .running
  /-- R55 (d) -/
  period : ∀ p, s.sched.period = some p → 1 ≤ p ∧ p ≤ 55
  /-- R55 (e) -/
  tone : s.pit.tone ≠ .silent → s.pit.gate = true
  /-- R38: a tone is a positive frequency -/
  toneHz : ∀ f, s.pit.tone = .hz f → 0 < f
  /-- R219: no rule enters HaltedShutdown -/
  notShutdown : s.sched.state ≠ .haltedShutdown
  /-- R44, R53: a session that runs has a CPU handle -/
  cpu : s.sched.state ≠ .idle → s.sched.cpu ≠ none
  /-- R53: guest memory is unallocated before `start` -/
  unallocated : s.sched.state = .idle → s.mem = ⟨0, []⟩
  /-- the canonical form of guest memory -/
  memory : s.mem.wf
  /-- R47, R100 -/
  own : s.bus.OwnRegistered s.params.ports
  /-- the canonical form of the tables -/
  tables : s.bus.Canonical
  /-- R196: what is presented as SETPERIOD -/
  presented : ∀ r ∈ s.inbox, r.periodInRange

/-- The order of R141, highest first: master 0, 1, then the slave's eight lines, then master 2 to 7. -/
def priorityOrder : List (Ctrl × Fin 8) :=
  [(.master, 0), (.master, 1), (.slave, 0), (.slave, 1), (.slave, 2), (.slave, 3), (.slave, 4),
   (.slave, 5), (.slave, 6), (.slave, 7), (.master, 2), (.master, 3), (.master, 4), (.master, 5),
   (.master, 6), (.master, 7)]

/-- A line can win an arbitration (R138, R139, R140): the master is operational; for a slave line the slave is
operational and master IMR bit 2 is clear; the line is not in service, not masked, and pending. -/
def Pic.canWin (p : Pic) (l : Ctrl × Fin 8) : Bool :=
  p.master.phase == 0 &&
  (l.1 == .master || (p.slave.phase == 0 && !p.master.masked 2)) &&
  p.eligible l.1 l.2

/-- How many raises of global line n are outstanding: pending or delivered and not yet handed out (R31, R32). -/
def Pic.outstanding (p : Pic) (n : Fin 16) : Nat :=
  p.pending n + (p.queue.filter fun e => globalLine e.k e.i = n).length

/-- What `Forward(p, v8)` emits (R103): one `outb` for a flagged port, nothing otherwise. -/
def State.forwarded (s : State) (p : Port) (d : Byte) : List Msg :=
  if s.bus.redirected p then [.outb p d] else []

/-- The line an arbitration serves, if any: the first in the order of R141 that can win. -/
def Pic.winner (p : Pic) : Option (Ctrl × Fin 8) := priorityOrder.find? p.canWin

/-- The PIC after an arbitration: the winner's line, if any, loses one pending raise and gains one queue entry
with the vector of R86 (R136, R139). -/
def Pic.served (p : Pic) : Pic :=
  match p.winner with
  | none => p
  | some (k, i) =>
    { p with pend := p.pend.set (globalLine k i) (p.pending (globalLine k i) - 1)
             queue := p.queue ++ [⟨k, i, ((p.ctrl k).icw1 &&& 0xF8) ||| BitVec.ofNat 8 i.val⟩] }

/-- A raise of global line n by count (R142). -/
def Pic.raised (n : Fin 16) (count : Nat) (p : Pic) : Pic :=
  Pic.served { p with pend := p.pend.set n (p.pending n + count) }

/-- Controller k takes part in an arbitration: the master is
operational, and for a slave line the slave is and master IMR bit 2 is clear (R138, R140). -/
def Pic.pathOpen (p : Pic) (k : Ctrl) : Prop :=
  p.master.phase = 0 ∧ (k = .slave → p.slave.phase = 0 ∧ p.master.imr.getLsbD 2 = false)

/-- The DMA of a device's action lies in guest memory (R72, R73); other actions make none. -/
def actionFits (m : Memory) : DeviceAction → Bool
  | .raise _ _ => true
  | .clear _ => true
  | .dmaRead addr n => m.inRegion addr n
  | .dmaWrite addr bytes => m.inRegion addr bytes.length
  | .emit _ => true
  | .portWrite _ _ => true

/-- All DMA of a write handler stays in guest memory, whatever the free value it meets (log 12). -/
def writeHandlerFits (m : Memory) (h : WriteHandler) (w : Width) (p : Port) (v : DWord) : Prop :=
  match h with
  | .other id => ∀ n, ∀ a ∈ Config.otherWrite id w p v n, actionFits m a = true
  | _ => True

/-- All DMA of a read handler stays in guest memory, whatever the free value it meets (log 12). -/
def readHandlerFits (m : Memory) (h : ReadHandler) (w : Width) (p : Port) : Prop :=
  match h with
  | .other id => ∀ n, ∀ a ∈ (Config.otherRead id w p n).2, actionFits m a = true
  | _ => True

/-- The handler of port p and width w, if any, keeps its DMA in guest memory when it is called with v. -/
def State.slotWriteFits (s : State) (w : Width) (p : Port) (v : DWord) : Prop :=
  ∀ h, s.bus.wrH w p = some h → writeHandlerFits s.mem h w p (maskTo w v)

/-- The handler of port p and width w, if any, keeps its DMA in guest memory when it is read. -/
def State.slotReadFits (s : State) (w : Width) (p : Port) : Prop :=
  ∀ h, s.bus.rdH w p = some h → readHandlerFits s.mem h w p

/-- Every handler a write of v at port p may call, that of the width and for a word those of the byte fallback
(R105), keeps its DMA in guest memory. -/
def State.writeFits (s : State) (w : Width) (p : Port) (v : DWord) : Prop :=
  s.slotWriteFits w p v ∧
  (w = .word → s.bus.wrH .word p = none → p.toNat < Config.wordFallbackLimit →
    s.slotWriteFits .byte p ((lowHalf v).setWidth 32) ∧ s.slotWriteFits .byte (p + 1) ((highHalf v).setWidth 32))

/-- Every handler a read at port p may call, that of the width and for a word those of the byte fallback (R108),
keeps its DMA in guest memory. -/
def State.readFits (s : State) (w : Width) (p : Port) : Prop :=
  s.slotReadFits w p ∧
  (w = .word → s.bus.rdH .word p = none → p.toNat < Config.wordFallbackLimit →
    s.slotReadFits .byte p ∧ s.slotReadFits .byte (p + 1))

/-- What the CPU core does stays in guest memory: its direct accesses (R70) and the DMA of the devices its
transactions reach (R72, R73). -/
def CoreOp.fits (s : State) : CoreOp → Prop
  | .read w p => s.readFits w p
  | .write w p v => s.writeFits w p v
  | .trap => True
  | .load addr n => s.mem.inRegion addr n = true
  | .store addr bytes => s.mem.inRegion addr bytes.length = true
  | .clock _ => True

/-- The CPU core's activity is one the block can follow from clock reading `t` on: its own clock readings do not
go back (D38), and it stays in guest memory. -/
def followable (s : State) (t : Time) (l : List CoreOp) : Prop :=
  clockRises t l = true ∧ ∀ o ∈ l, CoreOp.fits s o

/-- Nothing leaves the ready queue, and what comes, comes at its end (R32). -/
def Pic.Extends (p q : Pic) : Prop := ∃ l : List QueueEntry, q.queue = p.queue ++ l

/-- The vector a hand-off gives: the head's, or 0 with nothing queued (R148). -/
def Pic.headVector (p : Pic) : Byte := (p.queue.head?.map QueueEntry.vector).getD 0

end Sys2Proof.Machine
end

