-- ==== Sys2Proof/Certificates/Slice0/Obligations.lean ====
section
/-! DEFINITION. The statements for the provers. A docstring names the rule, and where the rule rests on a decision
of the spec (D<n>, 92_eei_decisions.md) or a choice of the model, the decision and the log entry. -/

open Sys2Proof Sys2Proof.Machine

/-! ### Encoding -/

/-- R81, R82, R84 to R88, R92: decoding the word of a well-formed operation, in a context that meets the row's
condition, gives the operation back. The word format is the spec's notation (D9), the byte layouts D27 (log 2). -/
def Obligations.DecodeOfEncode : Prop :=
  ∀ (ctx : DecodeCtx) (i : Instr) (tw : TransactionWord),
    ctx.Own → ctx.meets i → i.wellFormed = true → encode ctx.ports i = some tw → decode ctx tw = .ok i

/-- R92, R96: whatever a word decodes to is well formed and has a word of its own, with the same direction, width
and port, that decodes to the same operation: only bits the spec calls ignored are lost (D9, log 2). -/
def Obligations.EncodeOfDecode : Prop :=
  ∀ (ctx : DecodeCtx) (i : Instr) (tw : TransactionWord), decode ctx tw = .ok i →
    i.wellFormed = true ∧
    ∃ tw', encode ctx.ports i = some tw' ∧ decode ctx tw' = .ok i ∧
      tw'.extractLsb' 32 19 = tw.extractLsb' 32 19

/-- R82: the six patterns under the mask, and the refused width code (the format is D9, log 2). -/
def Obligations.BusPatternsUnderMask : Prop :=
  ∀ tw : TransactionWord,
    let port := tw.extractLsb' 32 16
    let data := tw.extractLsb' 0 32
    (tw &&& 0x7000000000000 = 0x0000000000000 → decodeBus tw = .ok (.inb port)) ∧
    (tw &&& 0x7000000000000 = 0x1000000000000 → decodeBus tw = .ok (.inw port)) ∧
    (tw &&& 0x7000000000000 = 0x2000000000000 → decodeBus tw = .ok (.ind port)) ∧
    (tw &&& 0x7000000000000 = 0x4000000000000 → decodeBus tw = .ok (.outb port data)) ∧
    (tw &&& 0x7000000000000 = 0x5000000000000 → decodeBus tw = .ok (.outw port data)) ∧
    (tw &&& 0x7000000000000 = 0x6000000000000 → decodeBus tw = .ok (.outd port data)) ∧
    (tw.extractLsb' 48 2 = 3 → decodeBus tw = .error .widthCodeThree)

/-- Words written out in 30_encoding R81 and 95_test_vectors, at power-on (ports by D1, log 3). -/
def Obligations.SpecWordsDecodeAsWritten : Prop :=
  decode .powerOn 0x4002000000011 = .ok (.picIcw1 .master 0x11) ∧
  decode .powerOn 0x40021000000FB = .ok (.picOcw1 .master 0xFB) ∧
  decode .powerOn 0x4002000000020 = .ok (.picEoi .master 0) ∧
  decode .powerOn 0x4002000000064 = .ok (.picSeoi .master 4) ∧
  decode .powerOn 0x0002100000000 = .ok (.picRdImr .master) ∧
  decode .powerOn 0x4004300000036 = .ok (.pitCtrl .ch0 3 3 0) ∧
  decode .powerOn 0x4004000000000 = .ok (.pitLdLo .ch0 0) ∧
  decode .powerOn 0x4006100000003 = .ok (.spkWr 0x03) ∧
  decode .powerOn 0x4030000000055 = .ok (.outb 0x300 0x55) ∧
  decode .powerOn 0x5002000000811 = .ok (.outw 0x20 0x0811) ∧
  decode .powerOn 0x60300DEADBEEF = .ok (.outd 0x300 0xDEADBEEF) ∧
  decode .powerOn 0x3030000000000 = .error .widthCodeThree

/-! ### The step -/

/-- A step runs the operation presented next, a word decoded in the state it meets (R5, R92); what the model adds
around exec is taking it from the inbox (DESIGN CHOICE, log 1). -/
def Obligations.StepRunsDecodedInstruction : Prop :=
  (∀ (s : State) (rest : List Request) (tw : TransactionWord) (i : Instr),
    s.inbox = .word tw :: rest → decode s.decodeCtx tw = .ok i →
    step s = exec i { s with inbox := rest }) ∧
  (∀ (s : State) (rest : List Request) (i : Instr),
    s.inbox = .op i :: rest → step s = exec i { s with inbox := rest }) ∧
  (∀ (s : State) (nbits w : Nat) (i : Instr),
    decode s.decodeCtx (BitVec.ofNat 51 w) = .ok i → step (s.withFetchWord nbits w) = exec i s)

/-- What a step does where no operation is presented: nothing presented, a clock reading, a word that is no
transaction (R49, R93; DESIGN CHOICE, log 1, log 9, log 28). -/
def Obligations.StepWithoutInstruction : Prop :=
  (∀ s : State, s.inbox = [] → step s = .next s) ∧
  (∀ (s : State) (rest : List Request) (t : Time), s.inbox = .clock t :: rest → s.now ≤ t →
    step s = .next { s with inbox := rest, now := t }) ∧
  (∀ (s : State) (rest : List Request) (t : Time), s.inbox = .clock t :: rest → t < s.now →
    step s = .refused .clockWentBack) ∧
  (∀ (s : State) (rest : List Request) (tw : TransactionWord), s.inbox = .word tw :: rest →
    tw.extractLsb' 48 2 = 3 → step s = .refused .notATransaction)

/-- R80, R92: a register-level command is the effect of the byte transaction that carries it: running the operation
a word decodes to is running the word's bus transaction (the model runs it as one whole, log 19). -/
def Obligations.RegisterCommandIsItsBusTransaction : Prop :=
  ∀ (s : State) (tw : TransactionWord) (b i : Instr),
    decodeBus tw = .ok b → decode s.decodeCtx tw = .ok i → exec i s = exec b s

/-! ### The bus -/

/-- R104: the handler is called with the masked value, then the redirect message, if the port is flagged, carries
it. The write completes where a device's handler keeps its DMA in guest memory; what such a handler does is a free
value, and where it is refused (R73) so is the transaction (log 12). -/
def Obligations.ByteWriteRunsHandlerThenForwards : Prop :=
  ∀ (p : Port) (v : DWord) (s : State),
    exec (.outb p v) s = (match s.bus.wrH .byte p with
      | none => .next { s with hostOut := s.hostOut ++ s.forwarded p (v.extractLsb' 0 8) }
      | some h =>
        match callWrite h .byte p (v &&& 0xFF) s with
        | .next u => .next { u with hostOut := u.hostOut ++ s.forwarded p (v.extractLsb' 0 8) }
        | .fault e => .fault e
        | .refused e => .refused e) ∧
    (s.writeFits .byte p v → ∃ t, exec (.outb p v) s = .next t)

/-- R105: the word handler with the masked value; else below port 1024 two byte writes, low byte first, to p and
p + 1 (D5, log 21); else nothing. It completes where the handlers it calls keep their DMA in guest memory (R73,
log 12). -/
def Obligations.WordWriteFallsBackToBytes : Prop :=
  ∀ (p : Port) (v : DWord) (s : State),
    (∀ h, s.bus.wrH .word p = some h → exec (.outw p v) s = callWrite h .word p (v &&& 0xFFFF) s) ∧
    (s.bus.wrH .word p = none → p.toNat < 1024 →
      exec (.outw p v) s = match exec (.outb p ((v.extractLsb' 0 8).setWidth 32)) s with
        | .next u => exec (.outb (p + 1) ((v.extractLsb' 8 8).setWidth 32)) u
        | .fault e => .fault e
        | .refused e => .refused e) ∧
    (s.bus.wrH .word p = none → 1024 ≤ p.toNat → exec (.outw p v) s = .next s) ∧
    (s.writeFits .word p v → ∃ t, exec (.outw p v) s = .next t)

/-- R106, R109: a dword access is its own handler or nothing, never split and never forwarded (D7, log 21). It
completes where the handler keeps its DMA in guest memory (R72, R73, log 12). -/
def Obligations.DwordAccessNeverSplit : Prop :=
  ∀ (p : Port) (v : DWord) (s : State),
    exec (.outd p v) s = (match s.bus.wrH .dword p with
      | some h => callWrite h .dword p v s
      | none => .next s) ∧
    (s.writeFits .dword p v → ∃ t, exec (.outd p v) s = .next t) ∧
    exec (.ind p) s = (match s.bus.rdH .dword p with
      | some h =>
        match callRead h .dword p s with
        | .next (x, u) => .next { u with returned := u.returned ++ [.data .dword x] }
        | .fault e => .fault e
        | .refused e => .refused e
      | none => .next { s with returned := s.returned ++ [.data .dword 0xFFFFFFFF] }) ∧
    (s.readFits .dword p → ∃ t, exec (.ind p) s = .next t)

/-- R107: a byte read returns the handler's result masked to a byte, or 0xFF. It completes where a device's handler
keeps its DMA in guest memory (R72, R73); what such a handler returns and does is a free value (log 12). -/
def Obligations.ByteReadReturnsMaskedOrAllOnes : Prop :=
  ∀ (p : Port) (s : State),
    exec (.inb p) s = (match s.bus.rdH .byte p with
      | some h =>
        match callRead h .byte p s with
        | .next (x, u) => .next { u with returned := u.returned ++ [.data .byte (x &&& 0xFF)] }
        | .fault e => .fault e
        | .refused e => .refused e
      | none => .next { s with returned := s.returned ++ [.data .byte 0xFF] }) ∧
    (s.readFits .byte p → ∃ t, exec (.inb p) s = .next t)

/-- R108: a word read returns the word handler's result masked; else below port 1024 the two bytes, the low port
read first, the high byte from port p + 1; else 0xFFFF. That the two reads are complete byte reads of p and p + 1 is
decision D5 (DESIGN CHOICE, log 21); `INB` is the byte read of R107. It completes where the handlers it calls keep
their DMA in guest memory (R72, R73, log 12). -/
def Obligations.WordReadJoinsLowAndHighByte : Prop :=
  ∀ (p : Port) (s : State),
    let inb : Port → State → Outcome (DWord × State) := fun q u => match u.bus.rdH .byte q with
      | none => .next (0xFF, u)
      | some h => match callRead h .byte q u with
        | .next (x, t) => .next (x &&& 0xFF, t)
        | .fault e => .fault e
        | .refused e => .refused e
    (∀ h, s.bus.rdH .word p = some h →
      exec (.inw p) s = match callRead h .word p s with
        | .next (x, u) => .next { u with returned := u.returned ++ [.data .word (x &&& 0xFFFF)] }
        | .fault e => .fault e
        | .refused e => .refused e) ∧
    (s.bus.rdH .word p = none → p.toNat < 1024 →
      exec (.inw p) s = match inb p s with
        | .next (lo, u) => (match inb (p + 1) u with
          | .next (hi, t) => .next { t with returned := t.returned ++ [.data .word (lo ||| (hi <<< 8))] }
          | .fault e => .fault e
          | .refused e => .refused e)
        | .fault e => .fault e
        | .refused e => .refused e) ∧
    (s.bus.rdH .word p = none → 1024 ≤ p.toNat →
      exec (.inw p) s = .next { s with returned := s.returned ++ [.data .word 0xFFFF] }) ∧
    (s.readFits .word p → ∃ t, exec (.inw p) s = .next t)

/-- R110: reads with no handler return all ones and change nothing else; writes with none only forward, byte by
byte (D5, D6, D7, log 21). -/
def Obligations.UnmappedPortsReadOnesAndDiscardWrites : Prop :=
  ∀ (p : Port) (v : DWord) (s : State),
    (s.bus.rdH .byte p = none →
      exec (.inb p) s = .next { s with returned := s.returned ++ [.data .byte 0xFF] }) ∧
    (s.bus.rdH .word p = none → (p.toNat < 1024 → s.bus.rdH .byte p = none ∧ s.bus.rdH .byte (p + 1) = none) →
      exec (.inw p) s = .next { s with returned := s.returned ++ [.data .word 0xFFFF] }) ∧
    (s.bus.rdH .dword p = none →
      exec (.ind p) s = .next { s with returned := s.returned ++ [.data .dword 0xFFFFFFFF] }) ∧
    (s.bus.wrH .byte p = none →
      exec (.outb p v) s =
        .next { s with hostOut := s.hostOut ++ s.forwarded p (v.extractLsb' 0 8) }) ∧
    (s.bus.wrH .word p = none → p.toNat < 1024 → s.bus.wrH .byte p = none → s.bus.wrH .byte (p + 1) = none →
      exec (.outw p v) s =
        .next { s with
          hostOut := s.hostOut ++
            (s.forwarded p (v.extractLsb' 0 8) ++ s.forwarded (p + 1) (v.extractLsb' 8 8)) }) ∧
    (s.bus.wrH .word p = none → 1024 ≤ p.toNat → exec (.outw p v) s = .next s) ∧
    (s.bus.wrH .dword p = none → exec (.outd p v) s = .next s)

/-- R101, R102: during construction (Idle, log 13) a registration on a free slot fills that slot, also with both
members absent, and leaves every other slot, the redirect bitmap and the rest of the state; on an occupied slot it is
refused; after construction it is refused (R100). For a handler of the block's own in a free word or dword slot, which
D2 puts outside the spec's domain, or at a port that is not its own, that the registration succeeds is the model's
choice (DESIGN CHOICE, log 34). -/
def Obligations.RegisterFillsFreeSlotOnly : Prop :=
  ∀ (p : Port) (w : Width) (wr : Option WriteHandler) (rd : Option ReadHandler) (s : State),
    (s.sched.state = .idle → assocGet (s.bus.table w) p.toNat = none →
      ∃ t, exec (.register p w wr rd) s = .next t ∧
        assocGet (t.bus.table w) p.toNat = some ⟨wr, rd⟩ ∧
        (∀ (x : Width) (q : Nat), (x, q) ≠ (w, p.toNat) →
          assocGet (t.bus.table x) q = assocGet (s.bus.table x) q) ∧
        t.bus.wrH w p = wr ∧ t.bus.rdH w p = rd ∧
        (∀ x q, (x, q) ≠ (w, p) → t.bus.wrH x q = s.bus.wrH x q ∧ t.bus.rdH x q = s.bus.rdH x q) ∧
        t.bus.redirect = s.bus.redirect ∧ { t with bus := s.bus } = s) ∧
    (s.sched.state = .idle → assocGet (s.bus.table w) p.toNat ≠ none →
      exec (.register p w wr rd) s = .refused (.configError p w)) ∧
    (s.sched.state ≠ .idle → exec (.register p w wr rd) s = .refused .registerAfterConstruction)

/-- R23, R24, R100: after construction no operation changes a handler table or the redirect bitmap; the parameters
never change (that construction is Idle is the model's reading, log 13). -/
def Obligations.TablesNeverChangeAfterConstruction : Prop :=
  ∀ (i : Instr) (s t : State), exec i s = .next t →
    t.params = s.params ∧ (s.sched.state ≠ .idle → t.bus = s.bus)

/-! ### The PIC -/

/-- R122, R125, R126, R128: ICW1 stores the byte, opens the initialisation and clears the in-service bits; ICW3 and
ICW4 are stored and the phase moves on, back to operational after ICW4, with no arbitration; nothing else changes but
the redirect log (D16, D17, D20, log 22). -/
def Obligations.InitialisationWordsStoreAndAdvance : Prop :=
  ∀ (k : Ctrl) (d : Byte) (s : State),
    (d.getLsbD 4 = true → exec (.picIcw1 k d) s = .next { s with
      pic := s.pic.setCtrl k { s.pic.ctrl k with icw0 := d, phase := 1, isr := 0 }
      hostOut := s.hostOut ++ s.forwarded (s.params.ports.picCmd k) d }) ∧
    ((s.pic.ctrl k).phase = 2 → exec (.picIcw3 k d) s = .next { s with
      pic := s.pic.setCtrl k { s.pic.ctrl k with icw2 := d, phase := 3 }
      hostOut := s.hostOut ++ s.forwarded (s.params.ports.picData k) d }) ∧
    ((s.pic.ctrl k).phase = 3 → exec (.picIcw4 k d) s = .next { s with
      pic := s.pic.setCtrl k { s.pic.ctrl k with icw3 := d, phase := 0 }
      hostOut := s.hostOut ++ s.forwarded (s.params.ports.picData k) d })

/-- R124: ICW2 stores the base, masked whenever used: vectors are `(d & 0xF8) | i` from the next delivery on. The host
log is left to R103. -/
def Obligations.Icw2SetsVectorBase : Prop :=
  ∀ (k : Ctrl) (d : Byte) (s : State), (s.pic.ctrl k).phase = 1 →
    ∃ t, exec (.picIcw2 k d) s = .next t ∧
      t = { s with
        pic := s.pic.setCtrl k { s.pic.ctrl k with icw1 := d, phase := 2 }
        hostOut := t.hostOut } ∧
      ∀ i : Fin 8, (t.pic.deliver k i).queue =
        t.pic.queue ++ [⟨k, i, (d &&& 0xF8) ||| BitVec.ofNat 8 i.val⟩]

/-- R127: a data-port write in phase 0 is the mask, then one arbitration (D20, log 22). -/
def Obligations.Ocw1WritesMaskThenArbitrates : Prop :=
  ∀ (k : Ctrl) (d : Byte) (s : State), (s.pic.ctrl k).phase = 0 →
    exec (.picOcw1 k d) s = .next { s with
      pic := (s.pic.setCtrl k { s.pic.ctrl k with imr := d }).served
      hostOut := s.hostOut ++ s.forwarded (s.params.ports.picData k) d }

/-- R129, R242: a non-specific EOI clears the lowest in-service bit, if any, and arbitrates (D13, D21, log 22). -/
def Obligations.EoiRetiresLowestInService : Prop :=
  ∀ (k : Ctrl) (x : BitVec 3) (s : State), ∃ b : Byte,
    exec (.picEoi k x) s = .next { s with
      pic := (s.pic.setCtrl k { s.pic.ctrl k with isr := b }).served
      hostOut := s.hostOut ++ s.forwarded (s.params.ports.picCmd k) (0b00100#5 ++ x) } ∧
    (((s.pic.ctrl k).isr = 0 ∧ b = 0) ∨
      ∃ j : Fin 8, (s.pic.ctrl k).isr.getLsbD j.val = true ∧
        (∀ i : Fin 8, i < j → (s.pic.ctrl k).isr.getLsbD i.val = false) ∧
        b = (s.pic.ctrl k).isr &&& ~~~(1#8 <<< j.val))

/-- R130, R242: a specific EOI clears its line's in-service bit and arbitrates (D13, log 22). -/
def Obligations.SpecificEoiRetiresNamedLine : Prop :=
  ∀ (k : Ctrl) (line : BitVec 3) (s : State),
    exec (.picSeoi k line) s = .next { s with
      pic := (s.pic.setCtrl k { s.pic.ctrl k with
        isr := (s.pic.ctrl k).isr &&& ~~~(1#8 <<< line.toNat) }).served
      hostOut := s.hostOut ++ s.forwarded (s.params.ports.picCmd k) (0b01100#5 ++ line) }

/-- R131, R163, R164: the commands without effect change nothing but the redirect log (D19, D29, log 22, log 24). -/
def Obligations.CommandsWithoutEffectOnlyForward : Prop :=
  ∀ s : State,
    (∀ (k : Ctrl) (d : Byte), d.getLsbD 4 = false → d.extractLsb' 3 5 ≠ 0b00100#5 → d.extractLsb' 3 5 ≠ 0b01100#5 →
      exec (.picNopCmd k d) s =
        .next { s with hostOut := s.hostOut ++ s.forwarded (s.params.ports.picCmd k) d }) ∧
    (∀ (sc : Chan) (x : BitVec 4), exec (.pitLatch sc x) s =
      .next { s with
        hostOut := s.hostOut ++ s.forwarded s.params.ports.pitCtrl (selectOfChan sc ++ 0b00#2 ++ x) }) ∧
    (∀ x : BitVec 6, exec (.pitRdback x) s =
      .next { s with hostOut := s.hostOut ++ s.forwarded s.params.ports.pitCtrl (0b11#2 ++ x) })

/-- R134, R135, R170, R171, R173, R68: what reads of the block's own registers return; they change no state but the
model's own reply log and free-value counter (D22, D34, D35, log 7, log 20, log 23). -/
def Obligations.OwnRegisterReadsChangeNothing : Prop :=
  ∀ s : State,
    (∀ k : Ctrl, exec (.picRdImr k) s =
      .next { s with returned := s.returned ++ [.data .byte ((s.pic.ctrl k).imr.setWidth 32)] }) ∧
    (∀ k : Ctrl, ∃ b : Byte, exec (.picRdCmd k) s =
      .next { s with returned := s.returned ++ [.data .byte (b.setWidth 32)], fresh := s.fresh + 1 }) ∧
    exec .pitRdCtrl s = .next { s with returned := s.returned ++ [.data .byte 0xFF] } ∧
    (∀ c : Chan, ∃ b : Byte, exec (.pitRd c) s =
      .next { s with returned := s.returned ++ [.data .byte (b.setWidth 32)], fresh := s.fresh + 1 }) ∧
    ∃ b : Byte, b.getLsbD 1 = s.pit.gate ∧
      exec .spkRd s =
        .next { s with returned := s.returned ++ [.data .byte (b.setWidth 32)], fresh := s.fresh + 1 }

/-- R132, which the spec itself marks as derived: no byte written to a command port writes a mask, a pending count
upwards, or the other controller. It rests on decisions: ICW1 keeps mask and counts (D17), the bytes are read alike in
every phase (D18), the bytes that are no command do nothing (D19; log 22, DESIGN CHOICE). -/
def Obligations.CommandPortWritesKeepMasks : Prop :=
  ∀ (k : Ctrl) (v : DWord) (s : State), s.bus.OwnRegistered s.params.ports →
    ∃ t, exec (.outb (s.params.ports.picCmd k) v) s = .next t ∧
      (∀ j, (t.pic.ctrl j).imr = (s.pic.ctrl j).imr) ∧
      (∀ j, j ≠ k → t.pic.ctrl j = s.pic.ctrl j) ∧
      (∀ n, t.pic.pending n ≤ s.pic.pending n) ∧
      t.pit = s.pit ∧ t.sched = s.sched ∧ t.mem = s.mem ∧ t.bus = s.bus

/-- R136, R137, R140, R141: one arbitration serves the first line, in the order 0, 1, 8 to 15, 2 to 7, that can win
(D12, D14, log 22). -/
def Obligations.ArbitrationServesFirstInPriorityOrder : Prop :=
  ∀ s : State, exec .arbitrate s = .next { s with pic := s.pic.served }

/-- R138: with the master not operational nothing is delivered; with only the slave not operational its lines are
passed over and the master's still win (the operational test at power-on is C8 of 90_conflicts, log 4). That an
eligible master line gives exactly one entry more rests on D11 (the three conditions of R139 are all) and D12 (one
delivery per arbitration; log 22, DESIGN CHOICE). -/
def Obligations.OnlyOperationalControllersDeliver : Prop :=
  ∀ (s t : State), exec .arbitrate s = .next t →
    (s.pic.master.phase ≠ 0 → t = s) ∧
    (s.pic.slave.phase ≠ 0 →
      (∀ e ∈ t.pic.queue, e ∈ s.pic.queue ∨ e.k = .master) ∧
      ∀ i : Fin 8, t.pic.pending (globalLine .slave i) = s.pic.pending (globalLine .slave i)) ∧
    (s.pic.slave.phase ≠ 0 → s.pic.master.phase = 0 → (∃ i, s.pic.eligible .master i = true) →
      t.pic.queue.length = s.pic.queue.length + 1)

/-- R86: every vector a delivery computes is `(icw[1] & 0xF8) | i`. -/
def Obligations.DeliveredVectorIsBaseOrLine : Prop :=
  ∀ (s t : State) (e : QueueEntry), exec .arbitrate s = .next t → e ∈ t.pic.queue →
    e ∈ s.pic.queue ∨ e.vector = ((s.pic.ctrl e.k).icw1 &&& 0xF8) ||| BitVec.ofNat 8 e.i.val

/-- R142, R144: a raise adds its count and arbitrates; the clear operation zeroes the pending count alone: queue,
in-service bits and every other count stay, and no arbitration runs; outside their domain both are refused (R16,
D23, D24, log 22). -/
def Obligations.RaiseAddsCountAndClearZeroesIt : Prop :=
  ∀ (n count : Nat) (s : State),
    (∀ h : n < 16, 0 < count →
      exec (.raiseIrq n count) s = .next { s with pic := s.pic.raised ⟨n, h⟩ count }) ∧
    (16 ≤ n → exec (.raiseIrq n count) s = .refused .lineOutOfRange) ∧
    (n < 16 → count = 0 → exec (.raiseIrq n count) s = .refused .countNotPositive) ∧
    (∀ h : n < 16, exec (.clearIrq n) s = .next { s with pic := { s.pic with pend := s.pic.pend.set n 0 h } }) ∧
    (16 ≤ n → exec (.clearIrq n) s = .refused .lineOutOfRange)

/-- R143: raises are counted, never merged: a raise adds its count to what is outstanding on its line (pending, or
delivered and not handed out) and to no other; the arbitrating commands keep every line's count; a hand-out takes
one from the line handed out. -/
def Obligations.RaisesAreCountedNeverMerged : Prop :=
  ∀ (s t : State) (m : Fin 16),
    (∀ (n : Fin 16) (count : Nat), exec (.raiseIrq n.val count) s = .next t →
      t.pic.outstanding m = s.pic.outstanding m + if m = n then count else 0) ∧
    (∀ i, (i = .arbitrate ∨ ∃ k d, i = .picOcw1 k d ∨ ∃ x, i = .picEoi k x ∨ i = .picSeoi k x) →
      exec i s = .next t → t.pic.outstanding m = s.pic.outstanding m) ∧
    (∀ e rest, s.pic.queue = e :: rest → exec .dequeueIrq s = .next t →
      t.pic.outstanding m + (if m = globalLine e.k e.i then 1 else 0) = s.pic.outstanding m)

/-- R148, R239: the hand-off of a vector: the oldest entry leaves the queue, its line's in-service bit is set in its
own controller, its vector is returned; with nothing queued, 0 is returned (D15, D25, log 22). -/
def Obligations.DequeueHandsOutOldestEntry : Prop :=
  ∀ s : State,
    (∀ e rest, s.pic.queue = e :: rest → exec .dequeueIrq s = .next { s with
      pic := ({ s.pic with queue := rest } : Pic).setCtrl e.k
        { s.pic.ctrl e.k with isr := (s.pic.ctrl e.k).isr ||| (1#8 <<< e.i.val) }
      returned := s.returned ++ [.vector e.vector] }) ∧
    (s.pic.queue = [] → exec .dequeueIrq s = .next { s with returned := s.returned ++ [.vector 0] })

/-- R32: the ready queue is first-in first-out. Every operation without a trap point only adds entries at its end; a
hand-off, by DEQUEUEIRQ or at a trap point of the core, takes exactly the head and gives its vector, 0 with nothing
queued (R148; that it leaves exactly the rest, with no arbitration, is D25, log 22); a continuation adds at the end
while it catches up, and from there its queue is what the core's activity leaves, as that of a step is (R200, R213,
R214), so that the rule holds of them by the rule for each thing the core does (one queue: D10, log 22; the activity:
log 10). -/
def Obligations.ReadyQueueIsFirstInFirstOut : Prop :=
  ∀ s t : State,
    (∀ i, i ≠ .dequeueIrq → (∀ t1 b t2, i ≠ .cont t1 b t2) →
      (∀ ops ending, i ≠ .stepCmd ops ending ∧ i ≠ .stepOver ops ending ∧
        i ≠ .debugCmd (.step ops ending) ∧ i ≠ .debugCmd (.stepOver ops ending)) →
      exec i s = .next t → s.pic.Extends t.pic) ∧
    (exec .dequeueIrq s = .next t →
      t.pic.queue = s.pic.queue.tail ∧ t.returned = s.returned ++ [.vector s.pic.headVector]) ∧
    (runCoreOp .trap s = .next t →
      t.pic.queue = s.pic.queue.tail ∧ t.returned = s.returned ++ [.vector s.pic.headVector]) ∧
    (∀ o, o ≠ .trap → runCoreOp o s = .next t → s.pic.Extends t.pic) ∧
    (∀ t1 b t2, exec (.cont t1 b t2) s = .next t →
      s.pic.Extends (enterBurst t1 { s with now := t1 }).pic ∧
      ∃ u, runCoreOps b.ops (enterBurst t1 { s with now := t1 }) = .next u ∧ t.pic.queue = u.pic.queue) ∧
    ∀ i ops ending, i ∈ [.stepCmd ops ending, .stepOver ops ending, .debugCmd (.step ops ending),
        .debugCmd (.stepOver ops ending)] →
      exec i s = .next t →
      ∃ cs u, runCoreOps ops { s with coreCalls := s.coreCalls ++ cs } = .next u ∧ t.pic.queue = u.pic.queue

/-- R145, R273: a raise of a line in service only accumulates, whatever the rest of the PIC does. -/
def Obligations.LineInServiceOnlyAccumulates : Prop :=
  ∀ (k : Ctrl) (i : Fin 8) (count : Nat) (s : State), 0 < count →
    (s.pic.ctrl k).isr.getLsbD i.val = true →
    ∃ t, exec (.raiseIrq (globalLine k i).val count) s = .next t ∧
      t.pic.pending (globalLine k i) = s.pic.pending (globalLine k i) + count ∧
      (t.pic.ctrl k).isr.getLsbD i.val = true ∧
      ∀ e ∈ t.pic.queue, e ∈ s.pic.queue ∨ (e.k, e.i) ≠ (k, i)

/-- R146, R281: no in-service line of another number holds a raise back: with no other line pending it is delivered
at once (D11, log 22). -/
def Obligations.NoPriorityBlocking : Prop :=
  ∀ (k : Ctrl) (i : Fin 8) (count : Nat) (s : State), 0 < count → s.pic.pathOpen k →
    (s.pic.ctrl k).imr.getLsbD i.val = false → (s.pic.ctrl k).isr.getLsbD i.val = false →
    (∀ m, m ≠ globalLine k i → s.pic.pending m = 0) →
    ∃ t, exec (.raiseIrq (globalLine k i).val count) s = .next t ∧
      t.pic.queue = s.pic.queue ++ [⟨k, i, ((s.pic.ctrl k).icw1 &&& 0xF8) ||| BitVec.ofNat 8 i.val⟩] ∧
      t.pic.pending (globalLine k i) = s.pic.pending (globalLine k i) + count - 1 ∧
      ∀ j, t.pic.ctrl j = s.pic.ctrl j

/-- R150 (b): raising a masked line, of the master or of the slave, leaves it pending and not delivered; unmasking it
later, with nothing else pending, delivers it. For a slave line the slave is operational and master line 2 is
unmasked (R138, R140). A mask write arbitrates (D20), which serves one line, here the only one pending (D11, D12;
log 22). -/
def Obligations.MaskedRaiseWaitsForUnmasking : Prop :=
  ∀ (k : Ctrl) (i : Fin 8) (d : Byte) (s : State), s.pic.pathOpen k →
    (s.pic.ctrl k).imr.getLsbD i.val = true → (s.pic.ctrl k).isr.getLsbD i.val = false →
    d.getLsbD i.val = false → (∀ m, s.pic.pending m = 0) →
    ∃ t u, exec (.raiseIrq (globalLine k i).val 1) s = .next t ∧ t.pic.queue = s.pic.queue ∧
      t.pic.pending (globalLine k i) = 1 ∧
      exec (.picOcw1 k d) t = .next u ∧
      u.pic.queue = s.pic.queue ++ [⟨k, i, ((s.pic.ctrl k).icw1 &&& 0xF8) ||| BitVec.ofNat 8 i.val⟩] ∧
      ∀ m, u.pic.pending m = 0

/-- R150 (a): with master lines 2 and 5 pending and unmasked, the queue empty and nothing ahead of line 2, one
arbitration and one hand-out give line 2's vector, and line 5 stays pending. It rests on decisions: one delivery per
arbitration (D12), line 2 has a delivery of its own (D14), other lines in service do not block (D11; log 22, DESIGN
CHOICE). -/
def Obligations.LineTwoBeforeLineFive : Prop :=
  ∀ s : State, s.pic.queue = [] → s.pic.master.phase = 0 →
    s.pic.eligible .master 2 = true → s.pic.eligible .master 5 = true →
    s.pic.eligible .master 0 = false → s.pic.eligible .master 1 = false →
    (∀ i, s.pic.canWin (.slave, i) = false) →
    ∃ t u, exec .arbitrate s = .next t ∧ exec .dequeueIrq t = .next u ∧
      u.returned = s.returned ++ [.vector ((s.pic.master.icw1 &&& 0xF8) ||| 2)] ∧
      u.pic.queue = [] ∧ u.pic.pending 5 = s.pic.pending 5

/-! ### The PIT and the speaker -/

/-- R162, R161, R87: a control byte with a counter below 3 and a non-zero format resets the channel; channel 0 loses
its period and its pending backlog, channel 2 its tone, with a message (D27, D33, D36, log 24). -/
def Obligations.PitControlResetsChannel : Prop :=
  ∀ (rw : BitVec 2) (mode : BitVec 3) (bcd : BitVec 1) (s : State), rw ≠ 0 →
    let d0 : Byte := 0b00#2 ++ rw ++ mode ++ bcd
    let d1 : Byte := 0b01#2 ++ rw ++ mode ++ bcd
    let d2 : Byte := 0b10#2 ++ rw ++ mode ++ bcd
    exec (.pitCtrl .ch0 rw mode bcd) s = .next { s with
      pit := { s.pit with ch0 := ⟨0, 0, d0⟩ }
      sched := { s.sched with period := none }
      pic := { s.pic with pend := s.pic.pend.set 0 0 }
      hostOut := s.hostOut ++ s.forwarded s.params.ports.pitCtrl d0 } ∧
    exec (.pitCtrl .ch1 rw mode bcd) s = .next { s with
      pit := { s.pit with ch1 := ⟨0, 0, d1⟩ }
      hostOut := s.hostOut ++ s.forwarded s.params.ports.pitCtrl d1 } ∧
    exec (.pitCtrl .ch2 rw mode bcd) s = .next { s with
      pit := { s.pit with ch2 := ⟨0, 0, d2⟩, tone := .silent }
      hostOut := s.hostOut ++ [.beep 0] ++ s.forwarded s.params.ports.pitCtrl d2 }

/-- R166: the first byte of a load is the low byte; the high byte keeps its value (D30, log 24). -/
def Obligations.FirstDataByteIsLow : Prop :=
  ∀ (c : Chan) (d : Byte) (s : State), (s.pit.chan c).phase = 0 →
    exec (.pitLdLo c d) s = .next { s with
      pit := s.pit.setChan c { s.pit.chan c with
        value := ((s.pit.chan c).value &&& 0xFF00) ||| d.setWidth 16, phase := 1 }
      hostOut := s.hostOut ++ s.forwarded (s.params.ports.pitChan c) d }

/-- R167, R168: the second byte is the high byte and completes the load: channel 0 installs the period
`ceil(V * 1000 / 1193181)` from now, channel 2 with the gate set starts the tone `1193181 / V` with a message, where a
value 0 counts as 0x10000. -/
def Obligations.SecondDataByteCompletesLoad : Prop :=
  ∀ (d : Byte) (s : State),
    let full := fun c : Chan => (d.setWidth 16 <<< 8) ||| ((s.pit.chan c).value &&& 0x00FF)
    let count := fun c : Chan => if full c = 0 then 0x10000 else (full c).toNat
    let loaded := fun c : Chan => s.pit.setChan c { s.pit.chan c with value := full c, phase := 0 }
    let told := fun c : Chan => s.forwarded (s.params.ports.pitChan c) d
    ((s.pit.chan .ch0).phase = 1 → exec (.pitLdHi .ch0 d) s = .next { s with
      pit := loaded .ch0
      sched := { s.sched with period := some ((count .ch0 * 1000 + 1193180) / 1193181), lastTick := s.now }
      hostOut := s.hostOut ++ told .ch0 }) ∧
    ((s.pit.chan .ch1).phase = 1 → exec (.pitLdHi .ch1 d) s = .next { s with
      pit := loaded .ch1
      hostOut := s.hostOut ++ told .ch1 }) ∧
    ((s.pit.chan .ch2).phase = 1 → s.pit.gate = false → exec (.pitLdHi .ch2 d) s = .next { s with
      pit := loaded .ch2
      hostOut := s.hostOut ++ told .ch2 }) ∧
    ((s.pit.chan .ch2).phase = 1 → s.pit.gate = true → exec (.pitLdHi .ch2 d) s = .next { s with
      pit := { loaded .ch2 with tone := .hz (1193181 / (count .ch2 : Rat)) }
      hostOut := s.hostOut ++ [.beep (1193181 / (count .ch2 : Rat))] ++ told .ch2 })

/-- R169: the installed period is the least number of whole milliseconds that covers the count, between 1 and 55
(exact evaluation: D32, log 24). -/
def Obligations.PeriodIsLeastCoveringCount : Prop :=
  ∀ v : BitVec 16,
    let count := if v = 0 then 0x10000 else v.toNat
    let p := periodMs (effectiveCount v)
    1 ≤ p ∧ p ≤ 55 ∧ count * 1000 ≤ p * 1193181 ∧ (p - 1) * 1193181 < count * 1000

/-- R172: a change of bit 1 at port 0x61 starts or silences the tone, with a message; a write that changes it not
does nothing, and the other bits are ignored (D35, log 24). -/
def Obligations.SpeakerGateTogglesTone : Prop :=
  ∀ (d : Byte) (s : State),
    let count := if s.pit.ch2.value = 0 then 0x10000 else s.pit.ch2.value.toNat
    (s.pit.gate = false → d.getLsbD 1 = true → exec (.spkWr d) s = .next { s with
      pit := { s.pit with gate := true, tone := .hz (1193181 / (count : Rat)) }
      hostOut := s.hostOut ++ [.beep (1193181 / (count : Rat))] ++ s.forwarded 0x61 d }) ∧
    (s.pit.gate = true → d.getLsbD 1 = false → exec (.spkWr d) s = .next { s with
      pit := { s.pit with gate := false, tone := .silent }
      hostOut := s.hostOut ++ [.beep 0] ++ s.forwarded 0x61 d }) ∧
    (s.pit.gate = d.getLsbD 1 → exec (.spkWr d) s = .next { s with
      hostOut := s.hostOut ++ s.forwarded 0x61 d })

/-! ### The Scheduler -/

/-- R196: a period is installed from now on (D31, log 25); a period that is not positive is refused. -/
def Obligations.SetPeriodRestartsTick : Prop :=
  ∀ (ms : Nat) (s : State),
    (0 < ms → exec (.setPeriod ms) s =
      .next { s with sched := { s.sched with period := some ms, lastTick := s.now } }) ∧
    (ms = 0 → exec (.setPeriod ms) s = .refused .periodNotPositive)

/-- R197: the period is removed, the last tick left as it is, and without a period step (1) raises nothing. -/
def Obligations.ClearPeriodStopsTicks : Prop :=
  ∀ (s : State) (t1 : Time),
    exec .clearPeriod s = .next { s with sched := { s.sched with period := none } } ∧
    tickCatchUp t1 { s with sched := { s.sched with period := none } } =
      { s with sched := { s.sched with period := none } }

/-- R201, R222: the catch-up makes `floor((t1 - lastTick) / period)` raises of line 0, none when the clock is behind,
moves the last tick by as many periods, leaves less than a period over, and touches nothing but the PIC and the last
tick; three and a half periods are exactly three raises (D38, log 9). -/
def Obligations.CatchUpRaisesOncePerElapsedPeriod : Prop :=
  ∀ (s : State) (t1 : Time) (p : Nat), s.sched.period = some p → 0 < p →
    let n := ⌊(t1 - s.sched.lastTick) / (p : Rat)⌋.toNat
    let u := tickCatchUp t1 s
    u = { s with pic := u.pic, sched := { s.sched with lastTick := s.sched.lastTick + (n : Rat) * (p : Rat) } } ∧
    (∀ m, u.pic.outstanding m = s.pic.outstanding m + if m = 0 then n else 0) ∧
    (∀ k, u.pic.ctrl k = s.pic.ctrl k) ∧
    (s.sched.lastTick ≤ t1 → 0 ≤ t1 - u.sched.lastTick ∧ t1 - u.sched.lastTick < (p : Rat)) ∧
    (3 * (p : Rat) ≤ t1 - s.sched.lastTick → t1 - s.sched.lastTick < 4 * (p : Rat) →
      u.pic = ((s.pic.raised 0 1).raised 0 1).raised 0 1 ∧
      u.sched.lastTick = s.sched.lastTick + 3 * (p : Rat))

/-- R12, R193, R70: what the core does inside a burst or a step is bus transactions, trap points, and direct accesses
to guest memory inside the configured region, each taken up in the core's own order; a direct access outside the
region is refused (log 10, log 11). That the core's address is a guest address, which MEM_ORIGIN is added to as for
DMA, is the model's choice (log 32). -/
def Obligations.CoreActivityIsTransactionsTrapsAndMemory : Prop :=
  ∀ s : State,
    (∀ p, runCoreOp (.read .byte p) s = exec (.inb p) s ∧ runCoreOp (.read .word p) s = exec (.inw p) s ∧
      runCoreOp (.read .dword p) s = exec (.ind p) s) ∧
    (∀ p v, runCoreOp (.write .byte p v) s = exec (.outb p v) s ∧
      runCoreOp (.write .word p v) s = exec (.outw p v) s ∧
      runCoreOp (.write .dword p v) s = exec (.outd p v) s) ∧
    runCoreOp .trap s = exec .dequeueIrq s ∧
    (∀ a n, n = 0 ∨ a + n ≤ s.mem.size → runCoreOp (.load a n) s = exec (.memRead a n) s) ∧
    (∀ a n, n ≠ 0 → s.mem.size < a + n → runCoreOp (.load a n) s = .refused (.coreAccessOutsideMemory a n)) ∧
    (∀ a l, l = [] ∨ a + l.length ≤ s.mem.size → runCoreOp (.store a l) s = exec (.memWrite a l) s) ∧
    (∀ a l, l ≠ [] → s.mem.size < a + l.length →
      runCoreOp (.store a l) s = .refused (.coreAccessOutsideMemory a l.length)) ∧
    ∀ (o : CoreOp) (rest : List CoreOp) (t : State), runCoreOp o s = .next t →
      runCoreOps (o :: rest) s = runCoreOps rest t

/-- R199 to R210: an enabled continuation whose activity the block can follow completes; it calls the core once,
leaves what only commands write, and ends by the first test that holds (D38 to D42, D52; log 9, log 10, log 25). -/
def Obligations.ContinuationCompletesAndBranches : Prop :=
  ∀ (t1 t2 w : Time) (b : Burst) (s : State),
    s.sched.state = .running → s.sched.wake = some w → w ≤ t1 → s.now ≤ t1 →
    followable s t1 b.ops → clockAfter t1 b.ops ≤ t2 →
    ∃ t, exec (.cont t1 b t2) s = .next t ∧ t.now = t2 ∧
      t.params = s.params ∧ t.bus = s.bus ∧ t.inbox = s.inbox ∧ t.mem.size = s.mem.size ∧
      t.coreCalls = s.coreCalls ++ [.run s.sched.cpu s.params.burstBudget] ∧
      t.sched.cpu = s.sched.cpu ∧ t.sched.regmap = s.sched.regmap ∧ t.sched.generation = s.sched.generation ∧
      (∃ l, t.hostOut = s.hostOut ++ l) ∧
      match classify s.params.status b.ending with
      | .exception =>
        t.sched.state = .haltedException ∧ t.sched.wake = none ∧ t.sched.debugReq = s.sched.debugReq
      | .debugTrap => t.sched.state = .debugPaused ∧ t.sched.wake = none ∧ t.sched.debugReq = false
      | .halt =>
        if s.sched.debugReq then
          t.sched.state = .debugPaused ∧ t.sched.wake = none ∧ t.sched.debugReq = false
        else
          t.sched.state = .running ∧ t.sched.debugReq = false ∧
          t.sched.wake = some (t2 + match t.sched.period with
            | some p => max 0 (t.sched.lastTick + (p : Rat) - t2)
            | none => 0)
      | .other =>
        if s.sched.debugReq then
          t.sched.state = .debugPaused ∧ t.sched.wake = none ∧ t.sched.debugReq = false
        else t.sched.state = .running ∧ t.sched.debugReq = false ∧ t.sched.wake = some t2

/-- R200, R75: within a continuation the ticks come first, then the core's activity in its order, then the drain's
texts; the branch changes no device (R206) and adds only `write`, `alert` and `debugReaction` messages (R15, R91; the
kinds are log 17). It says so of every ending: that the drain follows a burst that threw too is D52 (log 25). The
activity is an operand (log 10) and t1 a sample of the clock (log 9), both DESIGN CHOICE. -/
def Obligations.ContinuationTicksThenBurstThenDrain : Prop :=
  ∀ (t1 t2 : Time) (b : Burst) (s t : State), exec (.cont t1 b t2) s = .next t →
    ∃ u l, runCoreOps b.ops
        (callCore (.run s.sched.cpu s.params.burstBudget)
          (tickCatchUp t1 { s with now := t1, sched := { s.sched with wake := none } })) = .next u ∧
      t.pic = u.pic ∧ t.pit = u.pit ∧ t.mem = u.mem ∧ t.bus = u.bus ∧ t.returned = u.returned ∧
      t.sched.period = u.sched.period ∧ t.sched.lastTick = u.sched.lastTick ∧
      t.hostOut = u.hostOut ++ b.drained.map Msg.write ++ l ∧ ∀ m ∈ l, m.isReport = true

/-- R240, R206, R210: a burst that ends at or above the threshold, or throws, halts the Scheduler: HaltedException, no
continuation scheduled, texts and an alert to the host; a pending debug request stays. That the dump is `write`
messages and the notification an `alert` is D52 (log 25); their texts are free values (log 17). -/
def Obligations.CoreFaultHaltsScheduler : Prop :=
  ∀ (t1 t2 : Time) (b : Burst) (s t : State),
    (b.ending = .threw ∨ ∃ code, b.ending = .status code ∧ s.params.status.exceptionMin ≤ code) →
    exec (.cont t1 b t2) s = .next t →
    t.sched.state = .haltedException ∧ t.sched.wake = none ∧ t.sched.debugReq = s.sched.debugReq ∧
    ∃ (l : List Msg) (dump : List String) (message : String),
      t.hostOut = s.hostOut ++ l ++ dump.map Msg.write ++ [.alert message]

/-- R195, R198, R199, R212, R213, R214, R216, R16: commands outside their stated state are refused (D42, D43, D51,
log 25). -/
def Obligations.CommandsRefusedOutsideTheirStates : Prop :=
  ∀ s : State,
    (∀ t1 b t2, (s.sched.state ≠ .running ∨ s.sched.wake = none ∨ ∃ w, s.sched.wake = some w ∧ t1 < w) →
      exec (.cont t1 b t2) s = .refused .continuationNotEnabled) ∧
    (s.sched.state ≠ .idle →
      (∀ kb map g name, exec (.start kb map g name) s = .refused .notIdle) ∧
      ∀ g, exec (.run g) s = .refused .notIdle) ∧
    (s.sched.state = .idle ∨ s.sched.cpu = none → ∀ g, exec (.resetCmd g) s = .refused .noCpuHandle) ∧
    (s.sched.state = .idle ∨ s.sched.state = .running →
      exec .continueCmd s = .refused .notPaused ∧
      ∀ ops ending, exec (.stepCmd ops ending) s = .refused .notPaused ∧
        exec (.stepOver ops ending) s = .refused .notPaused)

/-- R198: RUN allocates the core, captures its register map and makes a continuation eligible at once; devices,
memory, period and last tick stay (D51, log 25; what the core answers is a free value, log 16). -/
def Obligations.RunStartsSession : Prop :=
  ∀ (g : Nat) (s : State), s.sched.state = .idle →
    ∃ handle regmap, exec (.run g) s = .next { s with
      sched := { s.sched with
        cpu := some handle, regmap := regmap, generation := g, state := .running, wake := some s.now }
      coreCalls := s.coreCalls ++ [.allocate g, .getRegisterMap handle] }

/-- R195: START installs the redirect bitmap, sizes memory, loads the firmware and runs; with a firmware that fits
it completes. Every memory byte outside the firmware's place reads as before (D3, D50, D51, log 25 to log 27). -/
def Obligations.StartInstallsMapLoadsFirmwareRuns : Prop :=
  ∀ (kb g : Nat) (map : Vector DWord 2048) (name : Option String) (s : State), s.sched.state = .idle →
    s.params.firmwareOrigin + s.params.firmware.length ≤ kb * 1024 →
    ∃ t, exec (.start kb map g name) s = .next t ∧
      (∀ p : Port, t.bus.redirected p = map[p.toNat / 32]!.getLsbD (p.toNat % 32)) ∧
      (∀ w, t.bus.table w = s.bus.table w) ∧
      t.mem.size = kb * 1024 ∧
      (∀ j (h : j < s.params.firmware.length),
        t.mem.readByte (s.params.memOrigin + s.params.firmwareOrigin + j) = s.params.firmware[j]) ∧
      (∀ a, a < s.params.memOrigin + s.params.firmwareOrigin ∨
          s.params.memOrigin + s.params.firmwareOrigin + s.params.firmware.length ≤ a →
        t.mem.readByte a = s.mem.readByte a) ∧
      t.sched.state = .running ∧ t.sched.wake = some s.now ∧ t.sched.generation = g ∧
      t.sched.cpu ≠ none ∧ t.sched.period = s.sched.period ∧ t.sched.lastTick = s.sched.lastTick ∧
      t.sched.debugReq = s.sched.debugReq ∧
      t.pic = s.pic ∧ t.pit = s.pit ∧ t.hostOut = s.hostOut ∧ t.now = s.now ∧ t.params = s.params

/-- R212, R54, R262: RESET reloads the firmware, resets the core and restarts the loop unless debug-paused; bus, PIC,
PIT, period, last tick, debug request, the size of guest memory and the rest of its bytes stay (D42, log 25). -/
def Obligations.ResetPreservesDevices : Prop :=
  ∀ (g handle : Nat) (s : State), s.sched.state ≠ .idle → s.sched.cpu = some handle →
    s.params.firmwareOrigin + s.params.firmware.length ≤ s.mem.size →
    ∃ t, exec (.resetCmd g) s = .next t ∧
      (∀ j (h : j < s.params.firmware.length),
        t.mem.readByte (s.params.memOrigin + s.params.firmwareOrigin + j) = s.params.firmware[j]) ∧
      (∀ a, a < s.params.memOrigin + s.params.firmwareOrigin ∨
          s.params.memOrigin + s.params.firmwareOrigin + s.params.firmware.length ≤ a →
        t.mem.readByte a = s.mem.readByte a) ∧
      t.mem.size = s.mem.size ∧
      t = { s with
        mem := t.mem
        coreCalls := s.coreCalls ++ [.reset handle g]
        sched := if s.sched.state = .debugPaused then { s.sched with generation := g }
          else { s.sched with generation := g, state := .running, wake := some s.now } }

/-- R213, R214: while paused or halted, a step or a step over whose activity the block can follow completes, whatever
its ending, a throw included (log 36). What happens is the calls of the core, its activity and the redraw's messages:
`write`, `alert` or `debugReaction` (R15, R91; log 17): no tick, no drain, no re-arm, and the Scheduler's state, wake
time and debug request stay (D43, log 10, log 25). A step calls the core's step; a step over asks for the
instruction's length, then steps or runs to a breakpoint behind it (which calls is the model's choice, log 35). -/
def Obligations.SteppingLeavesSchedulerState : Prop :=
  ∀ (ops : List CoreOp) (ending : BurstEnd) (s : State),
    s.sched.state = .debugPaused ∨ s.sched.state = .haltedException → followable s s.now ops →
    ∀ i, i = .stepCmd ops ending ∨ i = .stepOver ops ending →
    ∃ t u l cs, exec i s = .next t ∧
      (i = .stepCmd ops ending → cs = [.step s.sched.cpu]) ∧
      (i = .stepOver ops ending → ∃ seg off,
        cs = [.disassemble s.sched.cpu seg off 1, .step s.sched.cpu] ∨
        ∃ len, cs = [.disassemble s.sched.cpu seg off 1, .setBreakpoint s.sched.cpu seg (off + len),
          .run s.sched.cpu s.params.burstBudget]) ∧
      runCoreOps ops { s with coreCalls := s.coreCalls ++ cs } = .next u ∧
      t = { u with hostOut := u.hostOut ++ l, fresh := u.fresh + 1 } ∧ (∀ m ∈ l, m.isReport = true) ∧
      t.sched.state = s.sched.state ∧ t.sched.wake = s.sched.wake ∧ t.sched.debugReq = s.sched.debugReq ∧
      t.sched.cpu = s.sched.cpu ∧ t.bus = s.bus ∧ t.coreCalls = s.coreCalls ++ cs ∧
      t.now = clockAfter s.now ops

/-- R215, R216: BREAK sets the debug request while Running and has no effect in any other state; CONTINUE resumes
from a pause or a halt, clears the request and leaves the last tick (D44, D46, log 25). -/
def Obligations.BreakRequestsAndContinueResumes : Prop :=
  ∀ s : State,
    (s.sched.state = .running →
      exec .breakCmd s = .next { s with sched := { s.sched with debugReq := true } }) ∧
    (s.sched.state ≠ .running → exec .breakCmd s = .next s) ∧
    (s.sched.state = .debugPaused ∨ s.sched.state = .haltedException →
      exec .continueCmd s = .next { s with
        sched := { s.sched with state := .running, debugReq := false, wake := some s.now } })

/-- R217: the debug carrier runs the command it carries; an inspection changes nothing but the host log, which ends
with `debugReaction`, the log of contract calls, where it may only ask for segment bases and disassembly, and the
free-value counter; its output is `write` and `alert` messages; a modification is refused (log 16, log 17, log 18).
That an inspection may ask before RUN too, of no handle, is the model's choice (log 16). -/
def Obligations.DebugCarriesCommands : Prop :=
  ∀ s : State,
    exec (.debugCmd .breakIn) s = exec .breakCmd s ∧
    exec (.debugCmd .resume) s = exec .continueCmd s ∧
    (∀ ops ending, exec (.debugCmd (.step ops ending)) s = exec (.stepCmd ops ending) s ∧
      exec (.debugCmd (.stepOver ops ending)) s = exec (.stepOver ops ending) s) ∧
    (∀ c, ∃ l cs, exec (.debugCmd (.inspect c)) s =
        .next { s with
          hostOut := s.hostOut ++ l ++ [.debugReaction]
          coreCalls := s.coreCalls ++ cs
          fresh := s.fresh + 1 } ∧
      (∀ m ∈ l, m.isOutput = true) ∧
      ∀ q ∈ cs, (∃ selector, q = .getSegmentBase s.sched.cpu selector) ∨
        ∃ seg off n, q = .disassemble s.sched.cpu seg off n) ∧
    ∀ c, exec (.debugCmd (.modify c)) s = .refused .debugModification

/-- R218: the host command nmi is refused in every state (D47, log 30). -/
def Obligations.NmiIsRefused : Prop :=
  ∀ s : State, exec .nmi s = .refused .nmiUnmodelled

/-- R211: a key, pointer or attach command is, as far as the block sees it, zero or more raises by one of the devices'
lines; nothing else changes (which lines is a free value, log 14). -/
def Obligations.HostEventsOnlyRaise : Prop :=
  ∀ s : State,
    (∀ kind code n ctrlKey altKey, ∃ lines : List (Fin 16),
      exec (.key kind code n ctrlKey altKey) s = .next { s with
        pic := lines.foldl (fun p n => p.raised n 1) s.pic, fresh := s.fresh + 1 }) ∧
    (∀ move button pressed, ∃ lines : List (Fin 16),
      exec (.pointer move button pressed) s = .next { s with
        pic := lines.foldl (fun p n => p.raised n 1) s.pic, fresh := s.fresh + 1 }) ∧
    (∀ image, ∃ lines : List (Fin 16),
      exec (.attach image) s = .next { s with
        pic := lines.foldl (fun p n => p.raised n 1) s.pic, fresh := s.fresh + 1 })

/-! ### Guest memory -/

/-- R72, R73: a DMA read returns the n bytes at MEM_ORIGIN + addr in ascending order and changes nothing; a DMA write
stores its bytes from there on, every other byte reads as before and nothing else changes; outside the region both
are refused (D50, log 26). So is the DMA of a device's handler, and its transaction with it: the actions of a handler
complete if and only if all their DMA lies in the region (what a handler does is a free value, log 12). -/
def Obligations.DmaReadsAndWritesInsideRegion : Prop :=
  ∀ (addr n : Nat) (bytes : List Byte) (s : State),
    (n = 0 ∨ addr + n ≤ s.mem.size →
      ∃ l : List Byte, l.length = n ∧
        (∀ j, j < n → l[j]? = some (s.mem.readByte (s.params.memOrigin + addr + j))) ∧
        exec (.memRead addr n) s = .next { s with returned := s.returned ++ [.bytes l] }) ∧
    (n ≠ 0 → s.mem.size < addr + n → exec (.memRead addr n) s = .refused .dmaOutsideMemory) ∧
    (bytes = [] ∨ addr + bytes.length ≤ s.mem.size →
      ∃ m : Memory, exec (.memWrite addr bytes) s = .next { s with mem := m } ∧ m.size = s.mem.size ∧
        (∀ j (h : j < bytes.length), m.readByte (s.params.memOrigin + addr + j) = bytes[j]) ∧
        ∀ a, a < s.params.memOrigin + addr ∨ s.params.memOrigin + addr + bytes.length ≤ a →
          m.readByte a = s.mem.readByte a) ∧
    (bytes ≠ [] → s.mem.size < addr + bytes.length →
      exec (.memWrite addr bytes) s = .refused .dmaOutsideMemory) ∧
    runAction (.dmaWrite addr bytes) s = exec (.memWrite addr bytes) s ∧
    (n = 0 ∨ addr + n ≤ s.mem.size → runAction (.dmaRead addr n) s = .next s) ∧
    ∀ l : List DeviceAction,
      ((∀ a ∈ l, actionFits s.mem a = true) → ∃ t, runActions l s = .next t) ∧
      ((∃ a ∈ l, actionFits s.mem a = false) → runActions l s = .refused .dmaOutsideMemory)

/-! ### The whole machine -/

/-- The state after reset is legal, for every value of the open parameters and of PIC_RESET_IMR, if the nine ports
are distinct; so is the model's reset state (log 4, log 6). -/
def Obligations.LegalAtReset : Prop :=
  (∀ (params : Params) (imr : Byte),
    [params.ports.picCmd0, params.ports.picData0, params.ports.picCmd1, params.ports.picData1,
      params.ports.pitCh0, params.ports.pitCh1, params.ports.pitCh2, params.ports.pitCtrl,
      Config.speakerPort].Nodup → (State.powerOn params imr).Legal) ∧
  State.reset.Legal

/-- R55 and the other invariants of `State.Legal`: every step from a legal state, whatever is presented, ends in a
legal state. -/
def Obligations.StepKeepsLegal : Prop :=
  ∀ s t : State, s.Legal → step s = .next t → t.Legal

/-- R25, D38: no operation takes a message or a reply back, and the clock does not go back. -/
def Obligations.LogsOnlyGrowAndClockNeverGoesBack : Prop :=
  ∀ (i : Instr) (s t : State), exec i s = .next t →
    (∃ l, t.hostOut = s.hostOut ++ l) ∧ (∃ l, t.returned = s.returned ++ l) ∧
    (∃ l, t.coreCalls = s.coreCalls ++ l) ∧ s.now ≤ t.now

/-- R190, R191, R219: a change of the Scheduler's state is one of the listed transitions, and no operation enters
HaltedShutdown (leaving it, which no run reaches, is as leaving HaltedException, D45, log 30). -/
def Obligations.SchedulerMovesOnlyAsListed : Prop :=
  ∀ (i : Instr) (s t : State), exec i s = .next t → t.sched.state ≠ s.sched.state →
    (s.sched.state = .idle ∧ t.sched.state = .running ∧
      ((∃ kb map g name, i = .start kb map g name) ∨ ∃ g, i = .run g)) ∨
    (s.sched.state = .running ∧ t.sched.state = .haltedException ∧
      ∃ t1 b t2, i = .cont t1 b t2 ∧ classify s.params.status b.ending = .exception) ∨
    (s.sched.state = .running ∧ t.sched.state = .debugPaused ∧
      ∃ t1 b t2, i = .cont t1 b t2 ∧ classify s.params.status b.ending ≠ .exception ∧
        (classify s.params.status b.ending = .debugTrap ∨ s.sched.debugReq = true)) ∨
    ((s.sched.state = .debugPaused ∨ s.sched.state = .haltedException ∨ s.sched.state = .haltedShutdown) ∧
      t.sched.state = .running ∧ (i = .continueCmd ∨ i = .debugCmd .resume)) ∨
    ((s.sched.state = .haltedException ∨ s.sched.state = .haltedShutdown) ∧ t.sched.state = .running ∧
      ∃ g, i = .resetCmd g)
end

