-- ==== Sys2Proof/Laws/Codec.lean ====
section
/-! SUPPORT. The fields of a packed transaction word, and the bytes of the register-level commands taken apart. -/

namespace Sys2Proof

/-- Every bit of a packed word. -/
theorem packWord_getLsbD (w : Bool) (wc : BitVec 2) (p : Port) (d : DWord) (i : Nat) :
    (packWord w wc p d).getLsbD i =
      if i < 32 then d.getLsbD i
      else if i - 32 < 16 then p.getLsbD (i - 32)
      else if i - 32 - 16 < 2 then wc.getLsbD (i - 32 - 16)
      else (BitVec.ofBool w).getLsbD (i - 32 - 16 - 2) := by
  refine (BitVec.getLsbD_append (x := BitVec.ofBool w ++ wc ++ p) (y := d)).trans ?_
  rw [BitVec.getLsbD_append, BitVec.getLsbD_append]

@[simp] theorem twPort_packWord (w : Bool) (wc : BitVec 2) (p : Port) (d : DWord) :
    twPort (packWord w wc p d) = p := by
  apply BitVec.eq_of_getLsbD_eq
  intro i hi
  rw [twPort, BitVec.getLsbD_extractLsb', packWord_getLsbD]
  simp [hi]

@[simp] theorem twData_packWord (w : Bool) (wc : BitVec 2) (p : Port) (d : DWord) :
    twData (packWord w wc p d) = d := by
  apply BitVec.eq_of_getLsbD_eq
  intro i hi
  rw [twData, BitVec.getLsbD_extractLsb', packWord_getLsbD]
  simp [hi]

@[simp] theorem twWidthCode_packWord (w : Bool) (wc : BitVec 2) (p : Port) (d : DWord) :
    twWidthCode (packWord w wc p d) = wc := by
  apply BitVec.eq_of_getLsbD_eq
  intro i hi
  rw [twWidthCode, BitVec.getLsbD_extractLsb', packWord_getLsbD]
  rw [if_neg (by omega), if_neg (by omega), if_pos (by omega)]
  simp [hi, show 48 + i - 32 - 16 = i by omega]

@[simp] theorem twIsWrite_packWord (w : Bool) (wc : BitVec 2) (p : Port) (d : DWord) :
    twIsWrite (packWord w wc p d) = w := by
  rw [twIsWrite, packWord_getLsbD]
  simp

/-- The word of its fields is the word. -/
theorem packWord_fields (tw : TransactionWord) :
    packWord (twIsWrite tw) (twWidthCode tw) (twPort tw) (twData tw) = tw := by
  apply BitVec.eq_of_getLsbD_eq
  intro i hi
  rw [packWord_getLsbD]
  unfold twIsWrite twWidthCode twPort twData
  simp only [BitVec.getLsbD_extractLsb', BitVec.getLsbD_ofBool]
  split_ifs with h1 h2 h3
  · simp [h1]
  · simp [h2, show 32 + (i - 32) = i by omega]
  · simp [h3, show 48 + (i - 32 - 16) = i by omega]
  · have : i = 50 := by omega
    subst this; simp

@[simp] theorem lowByte_setWidth (d : Byte) : lowByte (d.setWidth 32) = d := by
  apply BitVec.eq_of_getLsbD_eq
  intro i hi
  rw [lowByte, BitVec.getLsbD_extractLsb', BitVec.getLsbD_setWidth]
  simp [hi]; omega

end Sys2Proof
end

