-- ==== Sys2Proof/Laws/State.lean ====
section
/-! SUPPORT. One lemma per field per update: what each shared operation leaves as it is, and the field it
writes where later proofs read it. -/

namespace Sys2Proof.Machine

open Sys2Proof

@[simp] theorem emit_params (m : Msg) (s : State) : (emit m s).params = s.params := rfl
@[simp] theorem emit_bus (m : Msg) (s : State) : (emit m s).bus = s.bus := rfl
@[simp] theorem emit_pic (m : Msg) (s : State) : (emit m s).pic = s.pic := rfl
@[simp] theorem emit_pit (m : Msg) (s : State) : (emit m s).pit = s.pit := rfl
@[simp] theorem emit_sched (m : Msg) (s : State) : (emit m s).sched = s.sched := rfl
@[simp] theorem emit_mem (m : Msg) (s : State) : (emit m s).mem = s.mem := rfl
@[simp] theorem emit_now (m : Msg) (s : State) : (emit m s).now = s.now := rfl
@[simp] theorem emit_inbox (m : Msg) (s : State) : (emit m s).inbox = s.inbox := rfl
@[simp] theorem emit_returned (m : Msg) (s : State) : (emit m s).returned = s.returned := rfl
@[simp] theorem emit_coreCalls (m : Msg) (s : State) : (emit m s).coreCalls = s.coreCalls := rfl
@[simp] theorem emit_fresh (m : Msg) (s : State) : (emit m s).fresh = s.fresh := rfl

@[simp] theorem emitAll_params (l : List Msg) (s : State) : (emitAll l s).params = s.params := rfl
@[simp] theorem emitAll_bus (l : List Msg) (s : State) : (emitAll l s).bus = s.bus := rfl
@[simp] theorem emitAll_pic (l : List Msg) (s : State) : (emitAll l s).pic = s.pic := rfl
@[simp] theorem emitAll_pit (l : List Msg) (s : State) : (emitAll l s).pit = s.pit := rfl
@[simp] theorem emitAll_sched (l : List Msg) (s : State) : (emitAll l s).sched = s.sched := rfl
@[simp] theorem emitAll_mem (l : List Msg) (s : State) : (emitAll l s).mem = s.mem := rfl
@[simp] theorem emitAll_now (l : List Msg) (s : State) : (emitAll l s).now = s.now := rfl
@[simp] theorem emitAll_inbox (l : List Msg) (s : State) : (emitAll l s).inbox = s.inbox := rfl
@[simp] theorem emitAll_returned (l : List Msg) (s : State) : (emitAll l s).returned = s.returned := rfl
@[simp] theorem emitAll_coreCalls (l : List Msg) (s : State) : (emitAll l s).coreCalls = s.coreCalls := rfl
@[simp] theorem emitAll_fresh (l : List Msg) (s : State) : (emitAll l s).fresh = s.fresh := rfl

@[simp] theorem reply_params (r : Reply) (s : State) : (reply r s).params = s.params := rfl
@[simp] theorem reply_bus (r : Reply) (s : State) : (reply r s).bus = s.bus := rfl
@[simp] theorem reply_hostOut (r : Reply) (s : State) : (reply r s).hostOut = s.hostOut := rfl
@[simp] theorem reply_pic (r : Reply) (s : State) : (reply r s).pic = s.pic := rfl
@[simp] theorem reply_pit (r : Reply) (s : State) : (reply r s).pit = s.pit := rfl
@[simp] theorem reply_sched (r : Reply) (s : State) : (reply r s).sched = s.sched := rfl
@[simp] theorem reply_mem (r : Reply) (s : State) : (reply r s).mem = s.mem := rfl
@[simp] theorem reply_now (r : Reply) (s : State) : (reply r s).now = s.now := rfl
@[simp] theorem reply_inbox (r : Reply) (s : State) : (reply r s).inbox = s.inbox := rfl
@[simp] theorem reply_coreCalls (r : Reply) (s : State) : (reply r s).coreCalls = s.coreCalls := rfl
@[simp] theorem reply_fresh (r : Reply) (s : State) : (reply r s).fresh = s.fresh := rfl

@[simp] theorem callCore_params (c : CoreCall) (s : State) : (callCore c s).params = s.params := rfl
@[simp] theorem callCore_bus (c : CoreCall) (s : State) : (callCore c s).bus = s.bus := rfl
@[simp] theorem callCore_hostOut (c : CoreCall) (s : State) : (callCore c s).hostOut = s.hostOut := rfl
@[simp] theorem callCore_pic (c : CoreCall) (s : State) : (callCore c s).pic = s.pic := rfl
@[simp] theorem callCore_pit (c : CoreCall) (s : State) : (callCore c s).pit = s.pit := rfl
@[simp] theorem callCore_sched (c : CoreCall) (s : State) : (callCore c s).sched = s.sched := rfl
@[simp] theorem callCore_mem (c : CoreCall) (s : State) : (callCore c s).mem = s.mem := rfl
@[simp] theorem callCore_now (c : CoreCall) (s : State) : (callCore c s).now = s.now := rfl
@[simp] theorem callCore_inbox (c : CoreCall) (s : State) : (callCore c s).inbox = s.inbox := rfl
@[simp] theorem callCore_returned (c : CoreCall) (s : State) : (callCore c s).returned = s.returned := rfl
@[simp] theorem callCore_fresh (c : CoreCall) (s : State) : (callCore c s).fresh = s.fresh := rfl

@[simp] theorem callCoreAll_params (l : List CoreCall) (s : State) : (callCoreAll l s).params = s.params := rfl
@[simp] theorem callCoreAll_bus (l : List CoreCall) (s : State) : (callCoreAll l s).bus = s.bus := rfl
@[simp] theorem callCoreAll_hostOut (l : List CoreCall) (s : State) : (callCoreAll l s).hostOut = s.hostOut := rfl
@[simp] theorem callCoreAll_pic (l : List CoreCall) (s : State) : (callCoreAll l s).pic = s.pic := rfl
@[simp] theorem callCoreAll_pit (l : List CoreCall) (s : State) : (callCoreAll l s).pit = s.pit := rfl
@[simp] theorem callCoreAll_sched (l : List CoreCall) (s : State) : (callCoreAll l s).sched = s.sched := rfl
@[simp] theorem callCoreAll_mem (l : List CoreCall) (s : State) : (callCoreAll l s).mem = s.mem := rfl
@[simp] theorem callCoreAll_now (l : List CoreCall) (s : State) : (callCoreAll l s).now = s.now := rfl
@[simp] theorem callCoreAll_inbox (l : List CoreCall) (s : State) : (callCoreAll l s).inbox = s.inbox := rfl
@[simp] theorem callCoreAll_returned (l : List CoreCall) (s : State) : (callCoreAll l s).returned = s.returned := rfl
@[simp] theorem callCoreAll_fresh (l : List CoreCall) (s : State) : (callCoreAll l s).fresh = s.fresh := rfl

@[simp] theorem useFresh_params (s : State) : (useFresh s).params = s.params := rfl
@[simp] theorem useFresh_bus (s : State) : (useFresh s).bus = s.bus := rfl
@[simp] theorem useFresh_hostOut (s : State) : (useFresh s).hostOut = s.hostOut := rfl
@[simp] theorem useFresh_pic (s : State) : (useFresh s).pic = s.pic := rfl
@[simp] theorem useFresh_pit (s : State) : (useFresh s).pit = s.pit := rfl
@[simp] theorem useFresh_sched (s : State) : (useFresh s).sched = s.sched := rfl
@[simp] theorem useFresh_mem (s : State) : (useFresh s).mem = s.mem := rfl
@[simp] theorem useFresh_now (s : State) : (useFresh s).now = s.now := rfl
@[simp] theorem useFresh_inbox (s : State) : (useFresh s).inbox = s.inbox := rfl
@[simp] theorem useFresh_returned (s : State) : (useFresh s).returned = s.returned := rfl
@[simp] theorem useFresh_coreCalls (s : State) : (useFresh s).coreCalls = s.coreCalls := rfl

@[simp] theorem guestWrite_params (a : Nat) (l : List Byte) (s : State) : (guestWrite a l s).params = s.params := rfl
@[simp] theorem guestWrite_bus (a : Nat) (l : List Byte) (s : State) : (guestWrite a l s).bus = s.bus := rfl
@[simp] theorem guestWrite_hostOut (a : Nat) (l : List Byte) (s : State) : (guestWrite a l s).hostOut = s.hostOut := rfl
@[simp] theorem guestWrite_pic (a : Nat) (l : List Byte) (s : State) : (guestWrite a l s).pic = s.pic := rfl
@[simp] theorem guestWrite_pit (a : Nat) (l : List Byte) (s : State) : (guestWrite a l s).pit = s.pit := rfl
@[simp] theorem guestWrite_sched (a : Nat) (l : List Byte) (s : State) : (guestWrite a l s).sched = s.sched := rfl
@[simp] theorem guestWrite_now (a : Nat) (l : List Byte) (s : State) : (guestWrite a l s).now = s.now := rfl
@[simp] theorem guestWrite_inbox (a : Nat) (l : List Byte) (s : State) : (guestWrite a l s).inbox = s.inbox := rfl
@[simp] theorem guestWrite_returned (a : Nat) (l : List Byte) (s : State) : (guestWrite a l s).returned = s.returned := rfl
@[simp] theorem guestWrite_coreCalls (a : Nat) (l : List Byte) (s : State) : (guestWrite a l s).coreCalls = s.coreCalls := rfl
@[simp] theorem guestWrite_fresh (a : Nat) (l : List Byte) (s : State) : (guestWrite a l s).fresh = s.fresh := rfl

@[simp] theorem raiseIrqOp_params (n : Fin 16) (c : Nat) (s : State) : (raiseIrqOp n c s).params = s.params := rfl
@[simp] theorem raiseIrqOp_bus (n : Fin 16) (c : Nat) (s : State) : (raiseIrqOp n c s).bus = s.bus := rfl
@[simp] theorem raiseIrqOp_hostOut (n : Fin 16) (c : Nat) (s : State) : (raiseIrqOp n c s).hostOut = s.hostOut := rfl
@[simp] theorem raiseIrqOp_pit (n : Fin 16) (c : Nat) (s : State) : (raiseIrqOp n c s).pit = s.pit := rfl
@[simp] theorem raiseIrqOp_sched (n : Fin 16) (c : Nat) (s : State) : (raiseIrqOp n c s).sched = s.sched := rfl
@[simp] theorem raiseIrqOp_mem (n : Fin 16) (c : Nat) (s : State) : (raiseIrqOp n c s).mem = s.mem := rfl
@[simp] theorem raiseIrqOp_now (n : Fin 16) (c : Nat) (s : State) : (raiseIrqOp n c s).now = s.now := rfl
@[simp] theorem raiseIrqOp_inbox (n : Fin 16) (c : Nat) (s : State) : (raiseIrqOp n c s).inbox = s.inbox := rfl
@[simp] theorem raiseIrqOp_returned (n : Fin 16) (c : Nat) (s : State) : (raiseIrqOp n c s).returned = s.returned := rfl
@[simp] theorem raiseIrqOp_coreCalls (n : Fin 16) (c : Nat) (s : State) : (raiseIrqOp n c s).coreCalls = s.coreCalls := rfl
@[simp] theorem raiseIrqOp_fresh (n : Fin 16) (c : Nat) (s : State) : (raiseIrqOp n c s).fresh = s.fresh := rfl

@[simp] theorem clearIrqOp_params (n : Fin 16) (s : State) : (clearIrqOp n s).params = s.params := rfl
@[simp] theorem clearIrqOp_bus (n : Fin 16) (s : State) : (clearIrqOp n s).bus = s.bus := rfl
@[simp] theorem clearIrqOp_hostOut (n : Fin 16) (s : State) : (clearIrqOp n s).hostOut = s.hostOut := rfl
@[simp] theorem clearIrqOp_pit (n : Fin 16) (s : State) : (clearIrqOp n s).pit = s.pit := rfl
@[simp] theorem clearIrqOp_sched (n : Fin 16) (s : State) : (clearIrqOp n s).sched = s.sched := rfl
@[simp] theorem clearIrqOp_mem (n : Fin 16) (s : State) : (clearIrqOp n s).mem = s.mem := rfl
@[simp] theorem clearIrqOp_now (n : Fin 16) (s : State) : (clearIrqOp n s).now = s.now := rfl
@[simp] theorem clearIrqOp_inbox (n : Fin 16) (s : State) : (clearIrqOp n s).inbox = s.inbox := rfl
@[simp] theorem clearIrqOp_returned (n : Fin 16) (s : State) : (clearIrqOp n s).returned = s.returned := rfl
@[simp] theorem clearIrqOp_coreCalls (n : Fin 16) (s : State) : (clearIrqOp n s).coreCalls = s.coreCalls := rfl
@[simp] theorem clearIrqOp_fresh (n : Fin 16) (s : State) : (clearIrqOp n s).fresh = s.fresh := rfl

@[simp] theorem trapPoint_params (s : State) : (trapPoint s).params = s.params := rfl
@[simp] theorem trapPoint_bus (s : State) : (trapPoint s).bus = s.bus := rfl
@[simp] theorem trapPoint_hostOut (s : State) : (trapPoint s).hostOut = s.hostOut := rfl
@[simp] theorem trapPoint_pit (s : State) : (trapPoint s).pit = s.pit := rfl
@[simp] theorem trapPoint_sched (s : State) : (trapPoint s).sched = s.sched := rfl
@[simp] theorem trapPoint_mem (s : State) : (trapPoint s).mem = s.mem := rfl
@[simp] theorem trapPoint_now (s : State) : (trapPoint s).now = s.now := rfl
@[simp] theorem trapPoint_inbox (s : State) : (trapPoint s).inbox = s.inbox := rfl
@[simp] theorem trapPoint_coreCalls (s : State) : (trapPoint s).coreCalls = s.coreCalls := rfl
@[simp] theorem trapPoint_fresh (s : State) : (trapPoint s).fresh = s.fresh := rfl

@[simp] theorem icw1Effect_params (k : Ctrl) (d : Byte) (s : State) : (icw1Effect k d s).params = s.params := rfl
@[simp] theorem icw1Effect_bus (k : Ctrl) (d : Byte) (s : State) : (icw1Effect k d s).bus = s.bus := rfl
@[simp] theorem icw1Effect_hostOut (k : Ctrl) (d : Byte) (s : State) : (icw1Effect k d s).hostOut = s.hostOut := rfl
@[simp] theorem icw1Effect_pit (k : Ctrl) (d : Byte) (s : State) : (icw1Effect k d s).pit = s.pit := rfl
@[simp] theorem icw1Effect_sched (k : Ctrl) (d : Byte) (s : State) : (icw1Effect k d s).sched = s.sched := rfl
@[simp] theorem icw1Effect_mem (k : Ctrl) (d : Byte) (s : State) : (icw1Effect k d s).mem = s.mem := rfl
@[simp] theorem icw1Effect_now (k : Ctrl) (d : Byte) (s : State) : (icw1Effect k d s).now = s.now := rfl
@[simp] theorem icw1Effect_inbox (k : Ctrl) (d : Byte) (s : State) : (icw1Effect k d s).inbox = s.inbox := rfl
@[simp] theorem icw1Effect_returned (k : Ctrl) (d : Byte) (s : State) : (icw1Effect k d s).returned = s.returned := rfl
@[simp] theorem icw1Effect_coreCalls (k : Ctrl) (d : Byte) (s : State) : (icw1Effect k d s).coreCalls = s.coreCalls := rfl
@[simp] theorem icw1Effect_fresh (k : Ctrl) (d : Byte) (s : State) : (icw1Effect k d s).fresh = s.fresh := rfl

@[simp] theorem icw2Effect_params (k : Ctrl) (d : Byte) (s : State) : (icw2Effect k d s).params = s.params := rfl
@[simp] theorem icw2Effect_bus (k : Ctrl) (d : Byte) (s : State) : (icw2Effect k d s).bus = s.bus := rfl
@[simp] theorem icw2Effect_hostOut (k : Ctrl) (d : Byte) (s : State) : (icw2Effect k d s).hostOut = s.hostOut := rfl
@[simp] theorem icw2Effect_pit (k : Ctrl) (d : Byte) (s : State) : (icw2Effect k d s).pit = s.pit := rfl
@[simp] theorem icw2Effect_sched (k : Ctrl) (d : Byte) (s : State) : (icw2Effect k d s).sched = s.sched := rfl
@[simp] theorem icw2Effect_mem (k : Ctrl) (d : Byte) (s : State) : (icw2Effect k d s).mem = s.mem := rfl
@[simp] theorem icw2Effect_now (k : Ctrl) (d : Byte) (s : State) : (icw2Effect k d s).now = s.now := rfl
@[simp] theorem icw2Effect_inbox (k : Ctrl) (d : Byte) (s : State) : (icw2Effect k d s).inbox = s.inbox := rfl
@[simp] theorem icw2Effect_returned (k : Ctrl) (d : Byte) (s : State) : (icw2Effect k d s).returned = s.returned := rfl
@[simp] theorem icw2Effect_coreCalls (k : Ctrl) (d : Byte) (s : State) : (icw2Effect k d s).coreCalls = s.coreCalls := rfl
@[simp] theorem icw2Effect_fresh (k : Ctrl) (d : Byte) (s : State) : (icw2Effect k d s).fresh = s.fresh := rfl

@[simp] theorem icw3Effect_params (k : Ctrl) (d : Byte) (s : State) : (icw3Effect k d s).params = s.params := rfl
@[simp] theorem icw3Effect_bus (k : Ctrl) (d : Byte) (s : State) : (icw3Effect k d s).bus = s.bus := rfl
@[simp] theorem icw3Effect_hostOut (k : Ctrl) (d : Byte) (s : State) : (icw3Effect k d s).hostOut = s.hostOut := rfl
@[simp] theorem icw3Effect_pit (k : Ctrl) (d : Byte) (s : State) : (icw3Effect k d s).pit = s.pit := rfl
@[simp] theorem icw3Effect_sched (k : Ctrl) (d : Byte) (s : State) : (icw3Effect k d s).sched = s.sched := rfl
@[simp] theorem icw3Effect_mem (k : Ctrl) (d : Byte) (s : State) : (icw3Effect k d s).mem = s.mem := rfl
@[simp] theorem icw3Effect_now (k : Ctrl) (d : Byte) (s : State) : (icw3Effect k d s).now = s.now := rfl
@[simp] theorem icw3Effect_inbox (k : Ctrl) (d : Byte) (s : State) : (icw3Effect k d s).inbox = s.inbox := rfl
@[simp] theorem icw3Effect_returned (k : Ctrl) (d : Byte) (s : State) : (icw3Effect k d s).returned = s.returned := rfl
@[simp] theorem icw3Effect_coreCalls (k : Ctrl) (d : Byte) (s : State) : (icw3Effect k d s).coreCalls = s.coreCalls := rfl
@[simp] theorem icw3Effect_fresh (k : Ctrl) (d : Byte) (s : State) : (icw3Effect k d s).fresh = s.fresh := rfl

@[simp] theorem icw4Effect_params (k : Ctrl) (d : Byte) (s : State) : (icw4Effect k d s).params = s.params := rfl
@[simp] theorem icw4Effect_bus (k : Ctrl) (d : Byte) (s : State) : (icw4Effect k d s).bus = s.bus := rfl
@[simp] theorem icw4Effect_hostOut (k : Ctrl) (d : Byte) (s : State) : (icw4Effect k d s).hostOut = s.hostOut := rfl
@[simp] theorem icw4Effect_pit (k : Ctrl) (d : Byte) (s : State) : (icw4Effect k d s).pit = s.pit := rfl
@[simp] theorem icw4Effect_sched (k : Ctrl) (d : Byte) (s : State) : (icw4Effect k d s).sched = s.sched := rfl
@[simp] theorem icw4Effect_mem (k : Ctrl) (d : Byte) (s : State) : (icw4Effect k d s).mem = s.mem := rfl
@[simp] theorem icw4Effect_now (k : Ctrl) (d : Byte) (s : State) : (icw4Effect k d s).now = s.now := rfl
@[simp] theorem icw4Effect_inbox (k : Ctrl) (d : Byte) (s : State) : (icw4Effect k d s).inbox = s.inbox := rfl
@[simp] theorem icw4Effect_returned (k : Ctrl) (d : Byte) (s : State) : (icw4Effect k d s).returned = s.returned := rfl
@[simp] theorem icw4Effect_coreCalls (k : Ctrl) (d : Byte) (s : State) : (icw4Effect k d s).coreCalls = s.coreCalls := rfl
@[simp] theorem icw4Effect_fresh (k : Ctrl) (d : Byte) (s : State) : (icw4Effect k d s).fresh = s.fresh := rfl

@[simp] theorem ocw1Effect_params (k : Ctrl) (d : Byte) (s : State) : (ocw1Effect k d s).params = s.params := rfl
@[simp] theorem ocw1Effect_bus (k : Ctrl) (d : Byte) (s : State) : (ocw1Effect k d s).bus = s.bus := rfl
@[simp] theorem ocw1Effect_hostOut (k : Ctrl) (d : Byte) (s : State) : (ocw1Effect k d s).hostOut = s.hostOut := rfl
@[simp] theorem ocw1Effect_pit (k : Ctrl) (d : Byte) (s : State) : (ocw1Effect k d s).pit = s.pit := rfl
@[simp] theorem ocw1Effect_sched (k : Ctrl) (d : Byte) (s : State) : (ocw1Effect k d s).sched = s.sched := rfl
@[simp] theorem ocw1Effect_mem (k : Ctrl) (d : Byte) (s : State) : (ocw1Effect k d s).mem = s.mem := rfl
@[simp] theorem ocw1Effect_now (k : Ctrl) (d : Byte) (s : State) : (ocw1Effect k d s).now = s.now := rfl
@[simp] theorem ocw1Effect_inbox (k : Ctrl) (d : Byte) (s : State) : (ocw1Effect k d s).inbox = s.inbox := rfl
@[simp] theorem ocw1Effect_returned (k : Ctrl) (d : Byte) (s : State) : (ocw1Effect k d s).returned = s.returned := rfl
@[simp] theorem ocw1Effect_coreCalls (k : Ctrl) (d : Byte) (s : State) : (ocw1Effect k d s).coreCalls = s.coreCalls := rfl
@[simp] theorem ocw1Effect_fresh (k : Ctrl) (d : Byte) (s : State) : (ocw1Effect k d s).fresh = s.fresh := rfl

@[simp] theorem eoiEffect_params (k : Ctrl) (s : State) : (eoiEffect k s).params = s.params := rfl
@[simp] theorem eoiEffect_bus (k : Ctrl) (s : State) : (eoiEffect k s).bus = s.bus := rfl
@[simp] theorem eoiEffect_hostOut (k : Ctrl) (s : State) : (eoiEffect k s).hostOut = s.hostOut := rfl
@[simp] theorem eoiEffect_pit (k : Ctrl) (s : State) : (eoiEffect k s).pit = s.pit := rfl
@[simp] theorem eoiEffect_sched (k : Ctrl) (s : State) : (eoiEffect k s).sched = s.sched := rfl
@[simp] theorem eoiEffect_mem (k : Ctrl) (s : State) : (eoiEffect k s).mem = s.mem := rfl
@[simp] theorem eoiEffect_now (k : Ctrl) (s : State) : (eoiEffect k s).now = s.now := rfl
@[simp] theorem eoiEffect_inbox (k : Ctrl) (s : State) : (eoiEffect k s).inbox = s.inbox := rfl
@[simp] theorem eoiEffect_returned (k : Ctrl) (s : State) : (eoiEffect k s).returned = s.returned := rfl
@[simp] theorem eoiEffect_coreCalls (k : Ctrl) (s : State) : (eoiEffect k s).coreCalls = s.coreCalls := rfl
@[simp] theorem eoiEffect_fresh (k : Ctrl) (s : State) : (eoiEffect k s).fresh = s.fresh := rfl

@[simp] theorem seoiEffect_params (k : Ctrl) (l : BitVec 3) (s : State) : (seoiEffect k l s).params = s.params := rfl
@[simp] theorem seoiEffect_bus (k : Ctrl) (l : BitVec 3) (s : State) : (seoiEffect k l s).bus = s.bus := rfl
@[simp] theorem seoiEffect_hostOut (k : Ctrl) (l : BitVec 3) (s : State) : (seoiEffect k l s).hostOut = s.hostOut := rfl
@[simp] theorem seoiEffect_pit (k : Ctrl) (l : BitVec 3) (s : State) : (seoiEffect k l s).pit = s.pit := rfl
@[simp] theorem seoiEffect_sched (k : Ctrl) (l : BitVec 3) (s : State) : (seoiEffect k l s).sched = s.sched := rfl
@[simp] theorem seoiEffect_mem (k : Ctrl) (l : BitVec 3) (s : State) : (seoiEffect k l s).mem = s.mem := rfl
@[simp] theorem seoiEffect_now (k : Ctrl) (l : BitVec 3) (s : State) : (seoiEffect k l s).now = s.now := rfl
@[simp] theorem seoiEffect_inbox (k : Ctrl) (l : BitVec 3) (s : State) : (seoiEffect k l s).inbox = s.inbox := rfl
@[simp] theorem seoiEffect_returned (k : Ctrl) (l : BitVec 3) (s : State) : (seoiEffect k l s).returned = s.returned := rfl
@[simp] theorem seoiEffect_coreCalls (k : Ctrl) (l : BitVec 3) (s : State) : (seoiEffect k l s).coreCalls = s.coreCalls := rfl
@[simp] theorem seoiEffect_fresh (k : Ctrl) (l : BitVec 3) (s : State) : (seoiEffect k l s).fresh = s.fresh := rfl

@[simp] theorem setPeriodOp_params (ms : Nat) (s : State) : (setPeriodOp ms s).params = s.params := rfl
@[simp] theorem setPeriodOp_bus (ms : Nat) (s : State) : (setPeriodOp ms s).bus = s.bus := rfl
@[simp] theorem setPeriodOp_hostOut (ms : Nat) (s : State) : (setPeriodOp ms s).hostOut = s.hostOut := rfl
@[simp] theorem setPeriodOp_pic (ms : Nat) (s : State) : (setPeriodOp ms s).pic = s.pic := rfl
@[simp] theorem setPeriodOp_pit (ms : Nat) (s : State) : (setPeriodOp ms s).pit = s.pit := rfl
@[simp] theorem setPeriodOp_mem (ms : Nat) (s : State) : (setPeriodOp ms s).mem = s.mem := rfl
@[simp] theorem setPeriodOp_now (ms : Nat) (s : State) : (setPeriodOp ms s).now = s.now := rfl
@[simp] theorem setPeriodOp_inbox (ms : Nat) (s : State) : (setPeriodOp ms s).inbox = s.inbox := rfl
@[simp] theorem setPeriodOp_returned (ms : Nat) (s : State) : (setPeriodOp ms s).returned = s.returned := rfl
@[simp] theorem setPeriodOp_coreCalls (ms : Nat) (s : State) : (setPeriodOp ms s).coreCalls = s.coreCalls := rfl
@[simp] theorem setPeriodOp_fresh (ms : Nat) (s : State) : (setPeriodOp ms s).fresh = s.fresh := rfl

@[simp] theorem clearPeriodOp_params (s : State) : (clearPeriodOp s).params = s.params := rfl
@[simp] theorem clearPeriodOp_bus (s : State) : (clearPeriodOp s).bus = s.bus := rfl
@[simp] theorem clearPeriodOp_hostOut (s : State) : (clearPeriodOp s).hostOut = s.hostOut := rfl
@[simp] theorem clearPeriodOp_pic (s : State) : (clearPeriodOp s).pic = s.pic := rfl
@[simp] theorem clearPeriodOp_pit (s : State) : (clearPeriodOp s).pit = s.pit := rfl
@[simp] theorem clearPeriodOp_mem (s : State) : (clearPeriodOp s).mem = s.mem := rfl
@[simp] theorem clearPeriodOp_now (s : State) : (clearPeriodOp s).now = s.now := rfl
@[simp] theorem clearPeriodOp_inbox (s : State) : (clearPeriodOp s).inbox = s.inbox := rfl
@[simp] theorem clearPeriodOp_returned (s : State) : (clearPeriodOp s).returned = s.returned := rfl
@[simp] theorem clearPeriodOp_coreCalls (s : State) : (clearPeriodOp s).coreCalls = s.coreCalls := rfl
@[simp] theorem clearPeriodOp_fresh (s : State) : (clearPeriodOp s).fresh = s.fresh := rfl

@[simp] theorem setChannel_params (c : Chan) (v : Channel) (s : State) : (setChannel c v s).params = s.params := rfl
@[simp] theorem setChannel_bus (c : Chan) (v : Channel) (s : State) : (setChannel c v s).bus = s.bus := rfl
@[simp] theorem setChannel_hostOut (c : Chan) (v : Channel) (s : State) : (setChannel c v s).hostOut = s.hostOut := rfl
@[simp] theorem setChannel_pic (c : Chan) (v : Channel) (s : State) : (setChannel c v s).pic = s.pic := rfl
@[simp] theorem setChannel_sched (c : Chan) (v : Channel) (s : State) : (setChannel c v s).sched = s.sched := rfl
@[simp] theorem setChannel_mem (c : Chan) (v : Channel) (s : State) : (setChannel c v s).mem = s.mem := rfl
@[simp] theorem setChannel_now (c : Chan) (v : Channel) (s : State) : (setChannel c v s).now = s.now := rfl
@[simp] theorem setChannel_inbox (c : Chan) (v : Channel) (s : State) : (setChannel c v s).inbox = s.inbox := rfl
@[simp] theorem setChannel_returned (c : Chan) (v : Channel) (s : State) : (setChannel c v s).returned = s.returned := rfl
@[simp] theorem setChannel_coreCalls (c : Chan) (v : Channel) (s : State) : (setChannel c v s).coreCalls = s.coreCalls := rfl
@[simp] theorem setChannel_fresh (c : Chan) (v : Channel) (s : State) : (setChannel c v s).fresh = s.fresh := rfl

@[simp] theorem silenceTone_params (s : State) : (silenceTone s).params = s.params := rfl
@[simp] theorem silenceTone_bus (s : State) : (silenceTone s).bus = s.bus := rfl
@[simp] theorem silenceTone_pic (s : State) : (silenceTone s).pic = s.pic := rfl
@[simp] theorem silenceTone_sched (s : State) : (silenceTone s).sched = s.sched := rfl
@[simp] theorem silenceTone_mem (s : State) : (silenceTone s).mem = s.mem := rfl
@[simp] theorem silenceTone_now (s : State) : (silenceTone s).now = s.now := rfl
@[simp] theorem silenceTone_inbox (s : State) : (silenceTone s).inbox = s.inbox := rfl
@[simp] theorem silenceTone_returned (s : State) : (silenceTone s).returned = s.returned := rfl
@[simp] theorem silenceTone_coreCalls (s : State) : (silenceTone s).coreCalls = s.coreCalls := rfl
@[simp] theorem silenceTone_fresh (s : State) : (silenceTone s).fresh = s.fresh := rfl

@[simp] theorem startTone_params (s : State) : (startTone s).params = s.params := rfl
@[simp] theorem startTone_bus (s : State) : (startTone s).bus = s.bus := rfl
@[simp] theorem startTone_pic (s : State) : (startTone s).pic = s.pic := rfl
@[simp] theorem startTone_sched (s : State) : (startTone s).sched = s.sched := rfl
@[simp] theorem startTone_mem (s : State) : (startTone s).mem = s.mem := rfl
@[simp] theorem startTone_now (s : State) : (startTone s).now = s.now := rfl
@[simp] theorem startTone_inbox (s : State) : (startTone s).inbox = s.inbox := rfl
@[simp] theorem startTone_returned (s : State) : (startTone s).returned = s.returned := rfl
@[simp] theorem startTone_coreCalls (s : State) : (startTone s).coreCalls = s.coreCalls := rfl
@[simp] theorem startTone_fresh (s : State) : (startTone s).fresh = s.fresh := rfl

@[simp] theorem ldLoEffect_params (c : Chan) (d : Byte) (s : State) : (ldLoEffect c d s).params = s.params := rfl
@[simp] theorem ldLoEffect_bus (c : Chan) (d : Byte) (s : State) : (ldLoEffect c d s).bus = s.bus := rfl
@[simp] theorem ldLoEffect_hostOut (c : Chan) (d : Byte) (s : State) : (ldLoEffect c d s).hostOut = s.hostOut := rfl
@[simp] theorem ldLoEffect_pic (c : Chan) (d : Byte) (s : State) : (ldLoEffect c d s).pic = s.pic := rfl
@[simp] theorem ldLoEffect_sched (c : Chan) (d : Byte) (s : State) : (ldLoEffect c d s).sched = s.sched := rfl
@[simp] theorem ldLoEffect_mem (c : Chan) (d : Byte) (s : State) : (ldLoEffect c d s).mem = s.mem := rfl
@[simp] theorem ldLoEffect_now (c : Chan) (d : Byte) (s : State) : (ldLoEffect c d s).now = s.now := rfl
@[simp] theorem ldLoEffect_inbox (c : Chan) (d : Byte) (s : State) : (ldLoEffect c d s).inbox = s.inbox := rfl
@[simp] theorem ldLoEffect_returned (c : Chan) (d : Byte) (s : State) : (ldLoEffect c d s).returned = s.returned := rfl
@[simp] theorem ldLoEffect_coreCalls (c : Chan) (d : Byte) (s : State) : (ldLoEffect c d s).coreCalls = s.coreCalls := rfl
@[simp] theorem ldLoEffect_fresh (c : Chan) (d : Byte) (s : State) : (ldLoEffect c d s).fresh = s.fresh := rfl

@[simp] theorem installRedirect_params (m : Vector DWord 2048) (s : State) : (installRedirect m s).params = s.params := rfl
@[simp] theorem installRedirect_hostOut (m : Vector DWord 2048) (s : State) : (installRedirect m s).hostOut = s.hostOut := rfl
@[simp] theorem installRedirect_pic (m : Vector DWord 2048) (s : State) : (installRedirect m s).pic = s.pic := rfl
@[simp] theorem installRedirect_pit (m : Vector DWord 2048) (s : State) : (installRedirect m s).pit = s.pit := rfl
@[simp] theorem installRedirect_sched (m : Vector DWord 2048) (s : State) : (installRedirect m s).sched = s.sched := rfl
@[simp] theorem installRedirect_mem (m : Vector DWord 2048) (s : State) : (installRedirect m s).mem = s.mem := rfl
@[simp] theorem installRedirect_now (m : Vector DWord 2048) (s : State) : (installRedirect m s).now = s.now := rfl
@[simp] theorem installRedirect_inbox (m : Vector DWord 2048) (s : State) : (installRedirect m s).inbox = s.inbox := rfl
@[simp] theorem installRedirect_returned (m : Vector DWord 2048) (s : State) : (installRedirect m s).returned = s.returned := rfl
@[simp] theorem installRedirect_coreCalls (m : Vector DWord 2048) (s : State) : (installRedirect m s).coreCalls = s.coreCalls := rfl
@[simp] theorem installRedirect_fresh (m : Vector DWord 2048) (s : State) : (installRedirect m s).fresh = s.fresh := rfl

@[simp] theorem configureMemory_params (n : Nat) (s : State) : (configureMemory n s).params = s.params := rfl
@[simp] theorem configureMemory_bus (n : Nat) (s : State) : (configureMemory n s).bus = s.bus := rfl
@[simp] theorem configureMemory_hostOut (n : Nat) (s : State) : (configureMemory n s).hostOut = s.hostOut := rfl
@[simp] theorem configureMemory_pic (n : Nat) (s : State) : (configureMemory n s).pic = s.pic := rfl
@[simp] theorem configureMemory_pit (n : Nat) (s : State) : (configureMemory n s).pit = s.pit := rfl
@[simp] theorem configureMemory_sched (n : Nat) (s : State) : (configureMemory n s).sched = s.sched := rfl
@[simp] theorem configureMemory_now (n : Nat) (s : State) : (configureMemory n s).now = s.now := rfl
@[simp] theorem configureMemory_inbox (n : Nat) (s : State) : (configureMemory n s).inbox = s.inbox := rfl
@[simp] theorem configureMemory_returned (n : Nat) (s : State) : (configureMemory n s).returned = s.returned := rfl
@[simp] theorem configureMemory_coreCalls (n : Nat) (s : State) : (configureMemory n s).coreCalls = s.coreCalls := rfl
@[simp] theorem configureMemory_fresh (n : Nat) (s : State) : (configureMemory n s).fresh = s.fresh := rfl

@[simp] theorem tickOnce_params (p : Nat) (s : State) : (tickOnce p s).params = s.params := rfl
@[simp] theorem tickOnce_bus (p : Nat) (s : State) : (tickOnce p s).bus = s.bus := rfl
@[simp] theorem tickOnce_hostOut (p : Nat) (s : State) : (tickOnce p s).hostOut = s.hostOut := rfl
@[simp] theorem tickOnce_pit (p : Nat) (s : State) : (tickOnce p s).pit = s.pit := rfl
@[simp] theorem tickOnce_mem (p : Nat) (s : State) : (tickOnce p s).mem = s.mem := rfl
@[simp] theorem tickOnce_now (p : Nat) (s : State) : (tickOnce p s).now = s.now := rfl
@[simp] theorem tickOnce_inbox (p : Nat) (s : State) : (tickOnce p s).inbox = s.inbox := rfl
@[simp] theorem tickOnce_returned (p : Nat) (s : State) : (tickOnce p s).returned = s.returned := rfl
@[simp] theorem tickOnce_coreCalls (p : Nat) (s : State) : (tickOnce p s).coreCalls = s.coreCalls := rfl
@[simp] theorem tickOnce_fresh (p : Nat) (s : State) : (tickOnce p s).fresh = s.fresh := rfl

@[simp] theorem uartDrain_params (l : List String) (s : State) : (uartDrain l s).params = s.params := rfl
@[simp] theorem uartDrain_bus (l : List String) (s : State) : (uartDrain l s).bus = s.bus := rfl
@[simp] theorem uartDrain_pic (l : List String) (s : State) : (uartDrain l s).pic = s.pic := rfl
@[simp] theorem uartDrain_pit (l : List String) (s : State) : (uartDrain l s).pit = s.pit := rfl
@[simp] theorem uartDrain_sched (l : List String) (s : State) : (uartDrain l s).sched = s.sched := rfl
@[simp] theorem uartDrain_mem (l : List String) (s : State) : (uartDrain l s).mem = s.mem := rfl
@[simp] theorem uartDrain_now (l : List String) (s : State) : (uartDrain l s).now = s.now := rfl
@[simp] theorem uartDrain_inbox (l : List String) (s : State) : (uartDrain l s).inbox = s.inbox := rfl
@[simp] theorem uartDrain_returned (l : List String) (s : State) : (uartDrain l s).returned = s.returned := rfl
@[simp] theorem uartDrain_coreCalls (l : List String) (s : State) : (uartDrain l s).coreCalls = s.coreCalls := rfl
@[simp] theorem uartDrain_fresh (l : List String) (s : State) : (uartDrain l s).fresh = s.fresh := rfl

@[simp] theorem haltOnException_params (s : State) : (haltOnException s).params = s.params := rfl
@[simp] theorem haltOnException_bus (s : State) : (haltOnException s).bus = s.bus := rfl
@[simp] theorem haltOnException_pic (s : State) : (haltOnException s).pic = s.pic := rfl
@[simp] theorem haltOnException_pit (s : State) : (haltOnException s).pit = s.pit := rfl
@[simp] theorem haltOnException_mem (s : State) : (haltOnException s).mem = s.mem := rfl
@[simp] theorem haltOnException_now (s : State) : (haltOnException s).now = s.now := rfl
@[simp] theorem haltOnException_inbox (s : State) : (haltOnException s).inbox = s.inbox := rfl
@[simp] theorem haltOnException_returned (s : State) : (haltOnException s).returned = s.returned := rfl
@[simp] theorem haltOnException_coreCalls (s : State) : (haltOnException s).coreCalls = s.coreCalls := rfl

@[simp] theorem redraw_params (s : State) : (redraw s).params = s.params := rfl
@[simp] theorem redraw_bus (s : State) : (redraw s).bus = s.bus := rfl
@[simp] theorem redraw_pic (s : State) : (redraw s).pic = s.pic := rfl
@[simp] theorem redraw_pit (s : State) : (redraw s).pit = s.pit := rfl
@[simp] theorem redraw_sched (s : State) : (redraw s).sched = s.sched := rfl
@[simp] theorem redraw_mem (s : State) : (redraw s).mem = s.mem := rfl
@[simp] theorem redraw_now (s : State) : (redraw s).now = s.now := rfl
@[simp] theorem redraw_inbox (s : State) : (redraw s).inbox = s.inbox := rfl
@[simp] theorem redraw_returned (s : State) : (redraw s).returned = s.returned := rfl
@[simp] theorem redraw_coreCalls (s : State) : (redraw s).coreCalls = s.coreCalls := rfl

@[simp] theorem debugPause_params (s : State) : (debugPause s).params = s.params := rfl
@[simp] theorem debugPause_bus (s : State) : (debugPause s).bus = s.bus := rfl
@[simp] theorem debugPause_pic (s : State) : (debugPause s).pic = s.pic := rfl
@[simp] theorem debugPause_pit (s : State) : (debugPause s).pit = s.pit := rfl
@[simp] theorem debugPause_mem (s : State) : (debugPause s).mem = s.mem := rfl
@[simp] theorem debugPause_now (s : State) : (debugPause s).now = s.now := rfl
@[simp] theorem debugPause_inbox (s : State) : (debugPause s).inbox = s.inbox := rfl
@[simp] theorem debugPause_returned (s : State) : (debugPause s).returned = s.returned := rfl
@[simp] theorem debugPause_coreCalls (s : State) : (debugPause s).coreCalls = s.coreCalls := rfl

@[simp] theorem rearmAtNextTick_params (s : State) : (rearmAtNextTick s).params = s.params := rfl
@[simp] theorem rearmAtNextTick_bus (s : State) : (rearmAtNextTick s).bus = s.bus := rfl
@[simp] theorem rearmAtNextTick_hostOut (s : State) : (rearmAtNextTick s).hostOut = s.hostOut := rfl
@[simp] theorem rearmAtNextTick_pic (s : State) : (rearmAtNextTick s).pic = s.pic := rfl
@[simp] theorem rearmAtNextTick_pit (s : State) : (rearmAtNextTick s).pit = s.pit := rfl
@[simp] theorem rearmAtNextTick_mem (s : State) : (rearmAtNextTick s).mem = s.mem := rfl
@[simp] theorem rearmAtNextTick_now (s : State) : (rearmAtNextTick s).now = s.now := rfl
@[simp] theorem rearmAtNextTick_inbox (s : State) : (rearmAtNextTick s).inbox = s.inbox := rfl
@[simp] theorem rearmAtNextTick_returned (s : State) : (rearmAtNextTick s).returned = s.returned := rfl
@[simp] theorem rearmAtNextTick_coreCalls (s : State) : (rearmAtNextTick s).coreCalls = s.coreCalls := rfl
@[simp] theorem rearmAtNextTick_fresh (s : State) : (rearmAtNextTick s).fresh = s.fresh := rfl

@[simp] theorem rearmNow_params (s : State) : (rearmNow s).params = s.params := rfl
@[simp] theorem rearmNow_bus (s : State) : (rearmNow s).bus = s.bus := rfl
@[simp] theorem rearmNow_hostOut (s : State) : (rearmNow s).hostOut = s.hostOut := rfl
@[simp] theorem rearmNow_pic (s : State) : (rearmNow s).pic = s.pic := rfl
@[simp] theorem rearmNow_pit (s : State) : (rearmNow s).pit = s.pit := rfl
@[simp] theorem rearmNow_mem (s : State) : (rearmNow s).mem = s.mem := rfl
@[simp] theorem rearmNow_now (s : State) : (rearmNow s).now = s.now := rfl
@[simp] theorem rearmNow_inbox (s : State) : (rearmNow s).inbox = s.inbox := rfl
@[simp] theorem rearmNow_returned (s : State) : (rearmNow s).returned = s.returned := rfl
@[simp] theorem rearmNow_coreCalls (s : State) : (rearmNow s).coreCalls = s.coreCalls := rfl
@[simp] theorem rearmNow_fresh (s : State) : (rearmNow s).fresh = s.fresh := rfl

@[simp] theorem runSession_params (g : Nat) (s : State) : (runSession g s).params = s.params := rfl
@[simp] theorem runSession_bus (g : Nat) (s : State) : (runSession g s).bus = s.bus := rfl
@[simp] theorem runSession_hostOut (g : Nat) (s : State) : (runSession g s).hostOut = s.hostOut := rfl
@[simp] theorem runSession_pic (g : Nat) (s : State) : (runSession g s).pic = s.pic := rfl
@[simp] theorem runSession_pit (g : Nat) (s : State) : (runSession g s).pit = s.pit := rfl
@[simp] theorem runSession_mem (g : Nat) (s : State) : (runSession g s).mem = s.mem := rfl
@[simp] theorem runSession_now (g : Nat) (s : State) : (runSession g s).now = s.now := rfl
@[simp] theorem runSession_inbox (g : Nat) (s : State) : (runSession g s).inbox = s.inbox := rfl
@[simp] theorem runSession_returned (g : Nat) (s : State) : (runSession g s).returned = s.returned := rfl
@[simp] theorem runSession_fresh (g : Nat) (s : State) : (runSession g s).fresh = s.fresh := rfl

@[simp] theorem taken_params (s : State) : (taken s).params = s.params := rfl
@[simp] theorem taken_bus (s : State) : (taken s).bus = s.bus := rfl
@[simp] theorem taken_hostOut (s : State) : (taken s).hostOut = s.hostOut := rfl
@[simp] theorem taken_pic (s : State) : (taken s).pic = s.pic := rfl
@[simp] theorem taken_pit (s : State) : (taken s).pit = s.pit := rfl
@[simp] theorem taken_sched (s : State) : (taken s).sched = s.sched := rfl
@[simp] theorem taken_mem (s : State) : (taken s).mem = s.mem := rfl
@[simp] theorem taken_now (s : State) : (taken s).now = s.now := rfl
@[simp] theorem taken_returned (s : State) : (taken s).returned = s.returned := rfl
@[simp] theorem taken_coreCalls (s : State) : (taken s).coreCalls = s.coreCalls := rfl
@[simp] theorem taken_fresh (s : State) : (taken s).fresh = s.fresh := rfl

@[simp] theorem presentWord_params (w : Nat) (s : State) : (presentWord w s).params = s.params := rfl
@[simp] theorem presentWord_bus (w : Nat) (s : State) : (presentWord w s).bus = s.bus := rfl
@[simp] theorem presentWord_hostOut (w : Nat) (s : State) : (presentWord w s).hostOut = s.hostOut := rfl
@[simp] theorem presentWord_pic (w : Nat) (s : State) : (presentWord w s).pic = s.pic := rfl
@[simp] theorem presentWord_pit (w : Nat) (s : State) : (presentWord w s).pit = s.pit := rfl
@[simp] theorem presentWord_sched (w : Nat) (s : State) : (presentWord w s).sched = s.sched := rfl
@[simp] theorem presentWord_mem (w : Nat) (s : State) : (presentWord w s).mem = s.mem := rfl
@[simp] theorem presentWord_now (w : Nat) (s : State) : (presentWord w s).now = s.now := rfl
@[simp] theorem presentWord_returned (w : Nat) (s : State) : (presentWord w s).returned = s.returned := rfl
@[simp] theorem presentWord_coreCalls (w : Nat) (s : State) : (presentWord w s).coreCalls = s.coreCalls := rfl
@[simp] theorem presentWord_fresh (w : Nat) (s : State) : (presentWord w s).fresh = s.fresh := rfl

/-! The fields an update writes. -/

@[simp] theorem emit_hostOut (m : Msg) (s : State) : (emit m s).hostOut = s.hostOut ++ [m] := rfl
@[simp] theorem emitAll_hostOut (l : List Msg) (s : State) : (emitAll l s).hostOut = s.hostOut ++ l := rfl
@[simp] theorem reply_returned (r : Reply) (s : State) : (reply r s).returned = s.returned ++ [r] := rfl
@[simp] theorem callCore_coreCalls (c : CoreCall) (s : State) : (callCore c s).coreCalls = s.coreCalls ++ [c] := rfl
@[simp] theorem callCoreAll_coreCalls (l : List CoreCall) (s : State) :
    (callCoreAll l s).coreCalls = s.coreCalls ++ l := rfl
@[simp] theorem useFresh_fresh (s : State) : (useFresh s).fresh = s.fresh + 1 := rfl
@[simp] theorem guestWrite_mem (a : Nat) (l : List Byte) (s : State) :
    (guestWrite a l s).mem = s.mem.writeBytes (s.params.memOrigin + a) l := rfl
@[simp] theorem raiseIrqOp_pic (n : Fin 16) (c : Nat) (s : State) : (raiseIrqOp n c s).pic = s.pic.raise n c := rfl
@[simp] theorem clearIrqOp_pic (n : Fin 16) (s : State) : (clearIrqOp n s).pic = s.pic.clear n := rfl
@[simp] theorem setPeriodOp_sched (ms : Nat) (s : State) :
    (setPeriodOp ms s).sched = { s.sched with period := some ms, lastTick := s.now } := rfl
@[simp] theorem clearPeriodOp_sched (s : State) : (clearPeriodOp s).sched = { s.sched with period := none } := rfl
@[simp] theorem setChannel_pit (c : Chan) (v : Channel) (s : State) : (setChannel c v s).pit = s.pit.setChan c v := rfl
@[simp] theorem taken_inbox (s : State) : (taken s).inbox = s.inbox.tail := rfl

/-! The PIC's and the PIT's own accessors. -/

@[simp] theorem ctrl_setCtrl_same (k : Ctrl) (c : Controller) (p : Pic) : (p.setCtrl k c).ctrl k = c := by
  cases k <;> rfl

theorem ctrl_setCtrl_ne {j k : Ctrl} (h : j ≠ k) (c : Controller) (p : Pic) :
    (p.setCtrl k c).ctrl j = p.ctrl j := by
  cases j <;> cases k <;> first | rfl | exact absurd rfl h

@[simp] theorem setCtrl_pend (k : Ctrl) (c : Controller) (p : Pic) : (p.setCtrl k c).pend = p.pend := by
  cases k <;> rfl

@[simp] theorem setCtrl_queue (k : Ctrl) (c : Controller) (p : Pic) : (p.setCtrl k c).queue = p.queue := by
  cases k <;> rfl

@[simp] theorem setPending_ctrl (n : Fin 16) (v : Nat) (p : Pic) (k : Ctrl) : (p.setPending n v).ctrl k = p.ctrl k := by
  cases k <;> rfl

@[simp] theorem setPending_master (n : Fin 16) (v : Nat) (p : Pic) : (p.setPending n v).master = p.master := rfl

@[simp] theorem setPending_slave (n : Fin 16) (v : Nat) (p : Pic) : (p.setPending n v).slave = p.slave := rfl

@[simp] theorem setPending_queue (n : Fin 16) (v : Nat) (p : Pic) : (p.setPending n v).queue = p.queue := rfl

@[simp] theorem pending_setCtrl (k : Ctrl) (c : Controller) (p : Pic) (n : Fin 16) :
    (p.setCtrl k c).pending n = p.pending n := by
  cases k <;> rfl

@[simp] theorem pending_setPending_same (n : Fin 16) (v : Nat) (p : Pic) : (p.setPending n v).pending n = v := by
  simp [Pic.pending, Pic.setPending]

theorem pending_setPending_ne {m n : Fin 16} (h : m ≠ n) (v : Nat) (p : Pic) :
    (p.setPending n v).pending m = p.pending m := by
  simp only [Pic.pending, Pic.setPending]
  exact Vector.getElem_set_ne n.isLt m.isLt (fun e => h (Fin.ext e.symm))

@[simp] theorem chan_setChan_same (c : Chan) (v : Channel) (p : Pit) : (p.setChan c v).chan c = v := by
  cases c <;> rfl

theorem chan_setChan_ne {a c : Chan} (h : a ≠ c) (v : Channel) (p : Pit) : (p.setChan c v).chan a = p.chan a := by
  cases a <;> cases c <;> first | rfl | exact absurd rfl h

@[simp] theorem setChan_gate (c : Chan) (v : Channel) (p : Pit) : (p.setChan c v).gate = p.gate := by
  cases c <;> rfl

@[simp] theorem setChan_tone (c : Chan) (v : Channel) (p : Pit) : (p.setChan c v).tone = p.tone := by
  cases c <;> rfl

/-! Going on after an operation. -/

@[simp] theorem andThen_next {α β : Type} (a : α) (f : α → Outcome β) : andThen (.next a) f = f a := rfl

@[simp] theorem andThen_fault {α β : Type} (e : Fault) (f : α → Outcome β) : andThen (.fault e) f = .fault e := rfl

@[simp] theorem andThen_refused {α β : Type} (e : Refusal) (f : α → Outcome β) :
    andThen (.refused e) f = .refused e := rfl

/-- If a sequence of two operations answers a next outcome, the first one did. -/
theorem andThen_eq_next {α β : Type} {r : Outcome α} {f : α → Outcome β} {b : β} (h : andThen r f = .next b) :
    ∃ a, r = .next a ∧ f a = .next b := by
  cases r with
  | next a => exact ⟨a, rfl, h⟩
  | fault e => cases h
  | refused e => cases h

end Sys2Proof.Machine
end

