-- ==== Sys2Proof/Laws/Memory.lean ====
section
/-! SUPPORT. The sparse lists in canonical form, and guest memory: read after write, other places alone, the
canonical form kept. -/

namespace Sys2Proof.Machine

open Sys2Proof

theorem assocGet_assocSet_same {β : Type} (a : Nat) (v : β) (l : List (Nat × β)) :
    assocGet (assocSet a v l) a = some v := by
  induction l with
  | nil => simp [assocSet, assocGet]
  | cons p rest ih =>
    obtain ⟨b, w⟩ := p
    simp only [assocSet]
    split_ifs <;> simp_all [assocGet]

theorem assocGet_assocSet_ne {β : Type} {a c : Nat} (h : c ≠ a) (v : β) (l : List (Nat × β)) :
    assocGet (assocSet a v l) c = assocGet l c := by
  induction l with
  | nil => simp [assocSet, assocGet, h]
  | cons p rest ih =>
    obtain ⟨b, w⟩ := p
    simp only [assocSet]
    split_ifs with h1 h2
    · simp [assocGet, h]
    · subst h2; simp [assocGet, h]
    · simp [assocGet, ih]

/-- A key of the list after a write was a key before, or is the one written. -/
theorem mem_assocSet {β : Type} {a : Nat} {v : β} {l : List (Nat × β)} {p : Nat × β}
    (h : p ∈ assocSet a v l) : p = (a, v) ∨ p ∈ l := by
  induction l with
  | nil => simpa [assocSet] using h
  | cons q rest ih =>
    obtain ⟨b, w⟩ := q
    simp only [assocSet] at h
    split_ifs at h <;> simp only [List.mem_cons] at h ⊢ <;> tauto

theorem assocRising_cons {β : Type} (a : Nat) (v : β) (l : List (Nat × β)) :
    assocRising ((a, v) :: l) = true ↔ (∀ p ∈ l, a < p.1) ∧ assocRising l = true := by
  simp [assocRising]

/-- Every write keeps the canonical form. -/
theorem assocRising_assocSet {β : Type} (a : Nat) (v : β) (l : List (Nat × β)) (h : assocRising l = true) :
    assocRising (assocSet a v l) = true := by
  induction l with
  | nil => simp [assocSet, assocRising]
  | cons p rest ih =>
    obtain ⟨b, w⟩ := p
    rw [assocRising_cons] at h
    simp only [assocSet]
    split_ifs with h1 h2
    · rw [assocRising_cons, assocRising_cons]
      refine ⟨fun q hq => ?_, h⟩
      rcases List.mem_cons.1 hq with rfl | hq
      · exact h1
      · exact lt_trans h1 (h.1 q hq)
    · subst h2; rw [assocRising_cons]; exact h
    · rw [assocRising_cons]
      refine ⟨fun q hq => ?_, ih h.2⟩
      rcases mem_assocSet hq with rfl | hq
      · exact lt_of_le_of_ne (Nat.le_of_not_lt h1) (fun e => h2 e.symm)
      · exact h.1 q hq

@[simp] theorem writeBytes_size (i : Nat) (l : List Byte) (m : Memory) : (m.writeBytes i l).size = m.size := by
  induction l generalizing i m with
  | nil => rfl
  | cons b rest ih => simp [Memory.writeBytes, ih, Memory.writeByte]

/-- Every memory operation keeps the canonical form. -/
theorem writeBytes_wf (i : Nat) (l : List Byte) (m : Memory) (h : m.wf) : (m.writeBytes i l).wf := by
  induction l generalizing i m with
  | nil => exact h
  | cons b rest ih => exact ih _ _ (assocRising_assocSet _ _ _ h)

theorem writeBytes_nil (i : Nat) (m : Memory) : m.writeBytes i [] = m := rfl

/-- A byte outside the stored bytes reads as before. -/
theorem readByte_writeBytes_outside (i : Nat) (l : List Byte) (m : Memory) (a : Nat)
    (h : a < i ∨ i + l.length ≤ a) : (m.writeBytes i l).readByte a = m.readByte a := by
  induction l generalizing i m with
  | nil => rfl
  | cons b rest ih =>
    rw [Memory.writeBytes, ih (i + 1) _ (by simp only [List.length_cons] at h; omega)]
    have : a ≠ i := by simp only [List.length_cons] at h; omega
    simp [Memory.readByte, Memory.writeByte, assocGet_assocSet_ne this]

/-- A stored byte reads as the byte stored there. -/
theorem readByte_writeBytes_inside (i : Nat) (l : List Byte) (m : Memory) (j : Nat) (h : j < l.length) :
    (m.writeBytes i l).readByte (i + j) = l[j] := by
  induction l generalizing i j m with
  | nil => simp at h
  | cons b rest ih =>
    rw [Memory.writeBytes]
    cases j with
    | zero =>
      rw [readByte_writeBytes_outside _ _ _ _ (by omega)]
      simp [Memory.readByte, Memory.writeByte, assocGet_assocSet_same]
    | succ j =>
      have := ih (i + 1) (m.writeByte i b) j (by simpa using h)
      rw [show i + (j + 1) = i + 1 + j by omega, this]
      simp

/-- Read after write of a whole block. -/
theorem readBytes_writeBytes (i : Nat) (l : List Byte) (m : Memory) :
    (m.writeBytes i l).readBytes i l.length = l := by
  apply List.ext_getElem
  · simp [Memory.readBytes]
  · intro j h1 h2
    simp only [Memory.readBytes, List.getElem_map, List.getElem_range]
    exact readByte_writeBytes_inside i l m j h2

theorem setTable_table (w : Width) (t : List (Nat × Slot)) (b : Bus) : (b.setTable w t).table w = t := by
  cases w <;> rfl

theorem setTable_table_ne {v w : Width} (h : v ≠ w) (t : List (Nat × Slot)) (b : Bus) :
    (b.setTable w t).table v = b.table v := by
  cases v <;> cases w <;> first | rfl | exact absurd rfl h

end Sys2Proof.Machine
end

