-- ==== Sys2Proof/Laws/Pic.lean ====
section
/-! SUPPORT. What arbitration can do, said once (41_pic R136 to R141), and what follows from it for the raise,
the EOIs and the hand-off. -/

namespace Sys2Proof.Machine

open Sys2Proof

@[simp] theorem deliver_ctrl (k j : Ctrl) (i : Fin 8) (p : Pic) : (p.deliver k i).ctrl j = p.ctrl j := by
  cases j <;> rfl

@[simp] theorem deliver_master (k : Ctrl) (i : Fin 8) (p : Pic) : (p.deliver k i).master = p.master := rfl

@[simp] theorem deliver_slave (k : Ctrl) (i : Fin 8) (p : Pic) : (p.deliver k i).slave = p.slave := rfl

@[simp] theorem deliver_queue (k : Ctrl) (i : Fin 8) (p : Pic) :
    (p.deliver k i).queue = p.queue ++ [⟨k, i, vectorOf (p.ctrl k).icw1 i⟩] := rfl

theorem deliver_pending (k : Ctrl) (i : Fin 8) (p : Pic) (n : Fin 16) :
    (p.deliver k i).pending n =
      if n = globalLine k i then p.pending (globalLine k i) - 1 else p.pending n := by
  show (p.setPending (globalLine k i) (p.pending (globalLine k i) - 1)).pending n = _
  split_ifs with h
  · rw [h, pending_setPending_same]
  · exact pending_setPending_ne h _ _

theorem globalLine_injective {j k : Ctrl} {a b : Fin 8} (h : globalLine j a = globalLine k b) :
    j = k ∧ a = b := by
  have hv := congrArg Fin.val h
  cases j <;> cases k <;> simp only [globalLine] at hv
  · exact ⟨rfl, Fin.ext hv⟩
  · exact absurd hv (by omega)
  · exact absurd hv (by omega)
  · exact ⟨rfl, Fin.ext (by omega)⟩

/-- The first line of a list that can win, delivered. -/
def deliverFirst (p : Pic) : List (Ctrl × Fin 8) → Option Pic
  | [] => none
  | l :: rest => if p.eligible l.1 l.2 then some (p.deliver l.1 l.2) else deliverFirst p rest

theorem deliverFirst_append (p : Pic) (a b : List (Ctrl × Fin 8)) :
    deliverFirst p (a ++ b) = (deliverFirst p a).or (deliverFirst p b) := by
  induction a with
  | nil => simp [deliverFirst]
  | cons l rest ih => simp only [List.cons_append, deliverFirst]; split_ifs <;> simp [ih]

theorem scanSlave_eq (p : Pic) (l : List (Fin 8)) :
    scanSlave p l = deliverFirst p (l.map fun i => (.slave, i)) := by
  induction l with
  | nil => rfl
  | cons i rest ih => simp [scanSlave, deliverFirst, ih]

/-- Away from line 2 the master's scan is a plain scan. -/
theorem scanMaster_eq (p : Pic) (l : List (Fin 8)) (h : 2 ∉ l) :
    scanMaster p l = deliverFirst p (l.map fun i => (.master, i)) := by
  induction l with
  | nil => rfl
  | cons i rest ih =>
    have hi : i ≠ 2 := fun e => h (by simp [e])
    have hr : 2 ∉ rest := fun e => h (List.mem_cons_of_mem _ e)
    simp [scanMaster, deliverFirst, hi, ih hr]

/-- The master's scan, with the slave's scan in the place of line 2 (R137, R140). -/
theorem scanMaster_localLines (p : Pic) :
    scanMaster p localLines =
      ((deliverFirst p [(.master, 0), (.master, 1)]).or
        ((if p.master.masked 2 = false then arbitrateSlave p else none).or
          (deliverFirst p [(.master, 2), (.master, 3), (.master, 4), (.master, 5), (.master, 6),
            (.master, 7)]))) := by
  have h2 : scanMaster p [3, 4, 5, 6, 7] =
      deliverFirst p [(.master, 3), (.master, 4), (.master, 5), (.master, 6), (.master, 7)] :=
    scanMaster_eq p [3, 4, 5, 6, 7] (by decide)
  have h3 : scanMaster p [2, 3, 4, 5, 6, 7] =
      (if p.master.masked 2 = false then arbitrateSlave p else none).or
        (deliverFirst p [(.master, 2), (.master, 3), (.master, 4), (.master, 5), (.master, 6),
          (.master, 7)]) := by
    rw [scanMaster, h2, deliverFirst]
    simp only [true_and]
    cases (if p.master.masked 2 = false then arbitrateSlave p else none) <;> rfl
  rw [localLines, scanMaster, scanMaster, h3]
  simp only [deliverFirst, show ¬((0 : Fin 8) = 2) by decide, show ¬((1 : Fin 8) = 2) by decide,
    false_and, if_false]
  split_ifs <;> rfl

/-- An arbitration delivers the first line, in the order of R141, that can win it. -/
theorem arbitrate_eq_find (p : Pic) :
    p.arbitrate = match priorityOrder.find? p.canWin with
      | none => p
      | some l => p.deliver l.1 l.2 := by
  have find : ∀ l : List (Ctrl × Fin 8), (deliverFirst p l).getD p =
      match l.find? (fun x => p.eligible x.1 x.2) with
      | none => p
      | some l => p.deliver l.1 l.2 := by
    intro l
    induction l with
    | nil => rfl
    | cons a rest ih =>
      simp only [deliverFirst, List.find?_cons]
      cases h : p.eligible a.1 a.2 <;> simp [ih]
  have skip : ∀ (q : Ctrl × Fin 8 → Bool) (l : List (Ctrl × Fin 8)), (∀ x ∈ l, q x = false) → l.find? q = none := by
    intro q l hl; simp only [List.find?_eq_none]; intro x hx; simp [hl x hx]
  unfold Pic.arbitrate arbitrateMaster
  by_cases hm : p.master.phase = 0
  · rw [if_pos hm, scanMaster_localLines]
    by_cases hs : p.slave.phase = 0 ∧ p.master.masked 2 = false
    · have hw : ∀ x, p.canWin x = p.eligible x.1 x.2 := by
        intro x; simp [Pic.canWin, hm, hs.1, hs.2]
      have hw' : p.canWin = fun x => p.eligible x.1 x.2 := funext hw
      rw [hw', ← find, if_pos hs.2, arbitrateSlave, if_pos hs.1, scanSlave_eq, ← deliverFirst_append,
        ← deliverFirst_append]
      rfl
    · have hno : (if p.master.masked 2 = false then arbitrateSlave p else none) = none := by
        split_ifs with h
        · rw [arbitrateSlave, if_neg (fun e => hs ⟨e, h⟩)]
        · rfl
      rw [hno, Option.none_or, ← deliverFirst_append, find]
      have hsl : ∀ i, p.canWin (.slave, i) = false := by
        intro i
        simp only [Pic.canWin]
        by_cases h : p.slave.phase = 0
        · have : p.master.masked 2 = true := by
            cases h2 : p.master.masked 2
            · exact absurd ⟨h, h2⟩ hs
            · rfl
          simp [this]
        · simp [h]
      have hma : ∀ i, p.canWin (.master, i) = p.eligible .master i := by
        intro i; simp [Pic.canWin, hm]
      have : priorityOrder.find? p.canWin =
          ([(Ctrl.master, (0 : Fin 8)), (Ctrl.master, 1)] ++ [(Ctrl.master, 2), (Ctrl.master, 3),
            (Ctrl.master, 4), (Ctrl.master, 5), (Ctrl.master, 6), (Ctrl.master, 7)]).find? (fun x => p.eligible x.1 x.2) := by
        simp only [priorityOrder, List.cons_append, List.nil_append, List.find?_cons, hsl, hma,
          List.find?_nil]
      rw [this]
  · rw [if_neg hm]
    have : priorityOrder.find? p.canWin = none := skip _ _ (by
      intro x _; simp [Pic.canWin, hm])
    rw [this]; rfl

/-- All an arbitration can do: nothing, or one delivery of a line that can win (R137, R139). -/
theorem arbitrate_cases (p : Pic) :
    (p.arbitrate = p ∧ ∀ l ∈ priorityOrder, p.canWin l = false) ∨
    ∃ k i, (k, i) ∈ priorityOrder ∧ p.canWin (k, i) = true ∧ p.arbitrate = p.deliver k i := by
  rw [arbitrate_eq_find]
  cases h : priorityOrder.find? p.canWin with
  | none =>
    refine .inl ⟨rfl, fun l hl => ?_⟩
    have := List.find?_eq_none.1 h l hl
    simpa using this
  | some l => exact .inr ⟨l.1, l.2, List.mem_of_find?_eq_some h, List.find?_some h, rfl⟩

theorem canWin_eligible {p : Pic} {k : Ctrl} {i : Fin 8} (h : p.canWin (k, i) = true) :
    p.eligible k i = true := by
  simp only [Pic.canWin, Bool.and_eq_true] at h; exact h.2

theorem eligible_iff (p : Pic) (k : Ctrl) (i : Fin 8) :
    p.eligible k i = true ↔
      (p.ctrl k).inService i = false ∧ (p.ctrl k).masked i = false ∧ 0 < p.pending (globalLine k i) := by
  simp [Pic.eligible, and_assoc]

/-- Arbitration changes no register. -/
@[simp] theorem arbitrate_ctrl (p : Pic) (k : Ctrl) : p.arbitrate.ctrl k = p.ctrl k := by
  rcases arbitrate_cases p with ⟨h, _⟩ | ⟨j, i, _, _, h⟩ <;> rw [h]
  exact deliver_ctrl j k i p

@[simp] theorem arbitrate_master (p : Pic) : p.arbitrate.master = p.master := arbitrate_ctrl p .master

@[simp] theorem arbitrate_slave (p : Pic) : p.arbitrate.slave = p.slave := arbitrate_ctrl p .slave

/-- Arbitration appends at most one entry, and nothing of the queue is lost or reordered. -/
theorem arbitrate_queue (p : Pic) : ∃ l, p.arbitrate.queue = p.queue ++ l ∧ l.length ≤ 1 := by
  rcases arbitrate_cases p with ⟨h, _⟩ | ⟨j, i, _, _, h⟩ <;> rw [h]
  · exact ⟨[], by simp, by simp⟩
  · exact ⟨[_], deliver_queue _ _ _, by simp⟩

/-- What arbitration adds to the queue was eligible and carries the controller's current base (R139). -/
theorem arbitrate_entry {p : Pic} {e : QueueEntry} (h : e ∈ p.arbitrate.queue) :
    e ∈ p.queue ∨ (p.eligible e.k e.i = true ∧ e.vector = vectorOf (p.ctrl e.k).icw1 e.i) := by
  rcases arbitrate_cases p with ⟨ha, _⟩ | ⟨j, i, _, hw, ha⟩ <;> rw [ha] at h
  · exact .inl h
  · rw [deliver_queue, List.mem_append, List.mem_singleton] at h
    rcases h with h | rfl
    · exact .inl h
    · exact .inr ⟨canWin_eligible hw, rfl⟩

/-- Arbitration keeps, line by line, the raises that are outstanding: one moves from the count to the queue. -/
theorem arbitrate_outstanding (p : Pic) (n : Fin 16) : p.arbitrate.outstanding n = p.outstanding n := by
  rcases arbitrate_cases p with ⟨h, _⟩ | ⟨k, i, _, hw, h⟩ <;> rw [h]
  have hp : 0 < p.pending (globalLine k i) := ((eligible_iff p k i).1 (canWin_eligible hw)).2.2
  simp only [Pic.outstanding, deliver_pending, deliver_queue, List.filter_append, List.length_append]
  by_cases hn : n = globalLine k i
  · subst hn; simp; omega
  · have : ¬ globalLine k i = n := fun e => hn e.symm
    simp [hn, this]

/-- The vector formula keeps the local line in the low three bits. -/
theorem vectorOf_low (b : Byte) (i : Fin 8) : (vectorOf b i).extractLsb' 0 3 = BitVec.ofNat 3 i.val := by
  revert b; revert i; unfold vectorOf; decide

/-- R55 (b) survives an arbitration. -/
theorem arbitrate_vectorMatchesLine {p : Pic} (h : ∀ e ∈ p.queue, e.vectorMatchesLine) :
    ∀ e ∈ p.arbitrate.queue, e.vectorMatchesLine := by
  intro e he
  rcases arbitrate_entry he with h1 | ⟨_, h2⟩
  · exact h e h1
  · rw [QueueEntry.vectorMatchesLine, h2]; exact vectorOf_low _ _

@[simp] theorem raise_ctrl (p : Pic) (n : Fin 16) (c : Nat) (k : Ctrl) : (p.raise n c).ctrl k = p.ctrl k := by
  simp [Pic.raise]

@[simp] theorem retire_queue_ctrl_other (p : Pic) {j k : Ctrl} (b : Byte) (h : j ≠ k) :
    (p.retire k b).ctrl j = p.ctrl j := by
  simp [Pic.retire, ctrl_setCtrl_ne h]

theorem retire_ctrl_same (p : Pic) (k : Ctrl) (b : Byte) :
    (p.retire k b).ctrl k = { p.ctrl k with isr := b } := by
  simp [Pic.retire]

/-- A raise adds its count to what is outstanding on its line and nothing to any other (R142, R143). -/
theorem raise_outstanding (p : Pic) (n : Fin 16) (c : Nat) (m : Fin 16) :
    (p.raise n c).outstanding m = p.outstanding m + if m = n then c else 0 := by
  rw [Pic.raise, arbitrate_outstanding]
  simp only [Pic.outstanding, setPending_queue]
  split_ifs with h
  · subst h; rw [pending_setPending_same]; omega
  · rw [pending_setPending_ne h]; omega

theorem raise_vectorMatchesLine {p : Pic} (n : Fin 16) (c : Nat) (h : ∀ e ∈ p.queue, e.vectorMatchesLine) :
    ∀ e ∈ (p.raise n c).queue, e.vectorMatchesLine :=
  arbitrate_vectorMatchesLine (p := p.setPending n _) h

@[simp] theorem clear_ctrl (p : Pic) (n : Fin 16) (k : Ctrl) : (p.clear n).ctrl k = p.ctrl k := by
  simp [Pic.clear]

@[simp] theorem clear_queue (p : Pic) (n : Fin 16) : (p.clear n).queue = p.queue := rfl

/-- Handing out leaves the rest of the queue in its order. -/
theorem dequeue_queue (p : Pic) : p.dequeue.2.queue = p.queue.tail := by
  unfold Pic.dequeue
  cases h : p.queue with
  | nil => simp [h]
  | cons e rest => simp

end Sys2Proof.Machine
end

