-- ==== Sys2Proof/Laws/Frame.lean ====
section
/-! SUPPORT. What port transactions and the CPU core's activity leave alone, said once (`Stays`, and
`Frame` where no trap point takes from the queue), where they complete, and the device invariants they keep
(`DevicesLegal`). -/

namespace Sys2Proof.Machine

open Sys2Proof

theorem Pic.Extends.refl (p : Pic) : p.Extends p := ⟨[], by simp⟩

theorem Pic.Extends.trans {p q r : Pic} (a : p.Extends q) (b : q.Extends r) : p.Extends r := by
  obtain ⟨l, ha⟩ := a
  obtain ⟨m, hb⟩ := b
  exact ⟨l ++ m, by rw [hb, ha, List.append_assoc]⟩

theorem extends_of_eq {p q : Pic} (h : q.queue = p.queue) : p.Extends q := ⟨[], by simp [h]⟩

theorem extends_setCtrl (k : Ctrl) (c : Controller) (p : Pic) : p.Extends (p.setCtrl k c) :=
  extends_of_eq (by simp)

theorem extends_arbitrate (p : Pic) : p.Extends p.arbitrate := by
  obtain ⟨l, h, _⟩ := arbitrate_queue p
  exact ⟨l, h⟩

theorem extends_retire (k : Ctrl) (b : Byte) (p : Pic) : p.Extends (p.retire k b) :=
  (extends_setCtrl _ _ _).trans (extends_arbitrate _)

theorem extends_raise (p : Pic) (n : Fin 16) (c : Nat) : p.Extends (p.raise n c) :=
  (extends_of_eq (q := p.setPending n (p.pending n + c)) (by simp)).trans (extends_arbitrate _)

theorem extends_clear (n : Fin 16) (p : Pic) : p.Extends (p.clear n) := extends_of_eq (by simp)

/-- What everything inside a burst leaves alone, a trap point included: parameters, tables, what is presented, the
contract calls, the size of memory, the clock, and the Scheduler but for its period and last tick. The host log and
the replies only grow. -/
structure Stays (s t : State) : Prop where
  params : t.params = s.params
  bus : t.bus = s.bus
  inbox : t.inbox = s.inbox
  coreCalls : t.coreCalls = s.coreCalls
  size : t.mem.size = s.mem.size
  noMemory : s.mem.size = 0 → t.mem = s.mem
  state : t.sched.state = s.sched.state
  wake : t.sched.wake = s.sched.wake
  debugReq : t.sched.debugReq = s.sched.debugReq
  cpu : t.sched.cpu = s.sched.cpu
  regmap : t.sched.regmap = s.sched.regmap
  generation : t.sched.generation = s.sched.generation
  now : t.now = s.now
  hostOut : ∃ l, t.hostOut = s.hostOut ++ l
  returned : ∃ l, t.returned = s.returned ++ l

/-- The same without a trap point: the ready queue only gains entries, at its end (R32). -/
structure Frame (s t : State) : Prop extends Stays s t where
  queue : s.pic.Extends t.pic

theorem Stays.refl (s : State) : Stays s s :=
  ⟨rfl, rfl, rfl, rfl, rfl, fun _ => rfl, rfl, rfl, rfl, rfl, rfl, rfl, rfl, ⟨[], by simp⟩, ⟨[], by simp⟩⟩

theorem Stays.trans {s t u : State} (a : Stays s t) (b : Stays t u) : Stays s u where
  params := b.params.trans a.params
  bus := b.bus.trans a.bus
  inbox := b.inbox.trans a.inbox
  coreCalls := b.coreCalls.trans a.coreCalls
  size := b.size.trans a.size
  noMemory h := (b.noMemory (a.size.trans h)).trans (a.noMemory h)
  state := b.state.trans a.state
  wake := b.wake.trans a.wake
  debugReq := b.debugReq.trans a.debugReq
  cpu := b.cpu.trans a.cpu
  regmap := b.regmap.trans a.regmap
  generation := b.generation.trans a.generation
  now := b.now.trans a.now
  hostOut := by
    obtain ⟨l, hl⟩ := a.hostOut; obtain ⟨m, hm⟩ := b.hostOut
    exact ⟨l ++ m, by rw [hm, hl, List.append_assoc]⟩
  returned := by
    obtain ⟨l, hl⟩ := a.returned; obtain ⟨m, hm⟩ := b.returned
    exact ⟨l ++ m, by rw [hm, hl, List.append_assoc]⟩

theorem Frame.refl (s : State) : Frame s s := ⟨.refl s, .refl _⟩

theorem Frame.trans {s t u : State} (a : Frame s t) (b : Frame t u) : Frame s u :=
  ⟨a.toStays.trans b.toStays, a.queue.trans b.queue⟩

/-- An update of the PIC alone. -/
theorem stays_pic (s : State) (p : Pic) : Stays s { s with pic := p } :=
  ⟨rfl, rfl, rfl, rfl, rfl, fun _ => rfl, rfl, rfl, rfl, rfl, rfl, rfl, rfl, ⟨[], by simp⟩, ⟨[], by simp⟩⟩

/-- An update of the PIC alone that only adds to its queue. -/
theorem frame_pic {s : State} {p : Pic} (h : s.pic.Extends p) : Frame s { s with pic := p } := ⟨stays_pic s p, h⟩

/-- An update of the PIT alone. -/
theorem frame_pit (s : State) (p : Pit) : Frame s { s with pit := p } :=
  ⟨⟨rfl, rfl, rfl, rfl, rfl, fun _ => rfl, rfl, rfl, rfl, rfl, rfl, rfl, rfl, ⟨[], by simp⟩,
    ⟨[], by simp⟩⟩, .refl _⟩

theorem frame_emit (m : Msg) (s : State) : Frame s (emit m s) :=
  ⟨⟨rfl, rfl, rfl, rfl, rfl, fun _ => rfl, rfl, rfl, rfl, rfl, rfl, rfl, rfl, ⟨[m], rfl⟩,
    ⟨[], by simp⟩⟩, .refl _⟩

theorem frame_emitAll (l : List Msg) (s : State) : Frame s (emitAll l s) :=
  ⟨⟨rfl, rfl, rfl, rfl, rfl, fun _ => rfl, rfl, rfl, rfl, rfl, rfl, rfl, rfl, ⟨l, rfl⟩,
    ⟨[], by simp⟩⟩, .refl _⟩

theorem frame_reply (r : Reply) (s : State) : Frame s (reply r s) :=
  ⟨⟨rfl, rfl, rfl, rfl, rfl, fun _ => rfl, rfl, rfl, rfl, rfl, rfl, rfl, rfl, ⟨[], by simp⟩,
    ⟨[r], rfl⟩⟩, .refl _⟩

theorem frame_useFresh (s : State) : Frame s (useFresh s) :=
  ⟨⟨rfl, rfl, rfl, rfl, rfl, fun _ => rfl, rfl, rfl, rfl, rfl, rfl, rfl, rfl, ⟨[], by simp⟩,
    ⟨[], by simp⟩⟩, .refl _⟩

theorem frame_setPeriodOp (ms : Nat) (s : State) : Frame s (setPeriodOp ms s) :=
  ⟨⟨rfl, rfl, rfl, rfl, rfl, fun _ => rfl, rfl, rfl, rfl, rfl, rfl, rfl, rfl, ⟨[], by simp⟩,
    ⟨[], by simp⟩⟩, .refl _⟩

theorem frame_clearPeriodOp (s : State) : Frame s (clearPeriodOp s) :=
  ⟨⟨rfl, rfl, rfl, rfl, rfl, fun _ => rfl, rfl, rfl, rfl, rfl, rfl, rfl, rfl, ⟨[], by simp⟩,
    ⟨[], by simp⟩⟩, .refl _⟩

theorem frame_tickOnce (p : Nat) (s : State) : Frame s (tickOnce p s) :=
  ⟨⟨rfl, rfl, rfl, rfl, rfl, fun _ => rfl, rfl, rfl, rfl, rfl, rfl, rfl, rfl, ⟨[], by simp⟩,
    ⟨[], by simp⟩⟩,
    extends_raise _ _ _⟩

/-- With no memory configured, only the empty write is in the region. -/
theorem inRegion_zero {m : Memory} {a : Nat} {l : List Byte} (hz : m.size = 0)
    (h : m.inRegion a l.length = true) : l = [] := by
  cases l with
  | nil => rfl
  | cons b rest => simp [Memory.inRegion, hz] at h

theorem frame_guestWrite {a : Nat} {l : List Byte} {s : State} (h : s.mem.inRegion a l.length = true) :
    Frame s (guestWrite a l s) where
  params := rfl
  bus := rfl
  inbox := rfl
  coreCalls := rfl
  size := by simp
  noMemory hz := by rw [inRegion_zero hz h]; rfl
  state := rfl
  wake := rfl
  debugReq := rfl
  cpu := rfl
  regmap := rfl
  generation := rfl
  now := rfl
  queue := .refl _
  hostOut := ⟨[], by simp⟩
  returned := ⟨[], by simp⟩

theorem frame_silenceTone (s : State) : Frame s (silenceTone s) :=
  (frame_pit s _).trans (frame_emit _ _)

theorem frame_startTone (s : State) : Frame s (startTone s) :=
  (frame_pit s _).trans (frame_emit _ _)

theorem frame_forward (p : Port) (v : Byte) (s : State) : Frame s (forward p v s) := by
  unfold forward; split
  · exact frame_emit _ _
  · exact .refl _

theorem frame_picCommandWrite (k : Ctrl) (d : Byte) (s : State) : Frame s (picCommandWrite k d s) := by
  unfold picCommandWrite; split_ifs
  · exact frame_pic (extends_setCtrl _ _ _)
  · exact frame_pic (extends_retire _ _ _)
  · exact frame_pic (extends_retire _ _ _)
  · exact .refl _

theorem frame_picDataWrite (k : Ctrl) (d : Byte) (s : State) : Frame s (picDataWrite k d s) := by
  unfold picDataWrite; split
  · exact frame_pic ((extends_setCtrl _ _ _).trans (extends_arbitrate _))
  all_goals exact frame_pic (extends_setCtrl _ _ _)

theorem frame_pitCtrlEffect (c : Chan) (d : Byte) (s : State) : Frame s (pitCtrlEffect c d s) := by
  cases c
  · exact ((frame_pit s _).trans (frame_clearPeriodOp _)).trans (frame_pic (extends_clear _ _))
  · exact frame_pit s _
  · exact (frame_pit s _).trans (frame_silenceTone _)

theorem frame_loadComplete (c : Chan) (s : State) : Frame s (loadComplete c s) := by
  cases c
  · exact frame_setPeriodOp _ _
  · exact .refl _
  · simp only [loadComplete]; split
    · exact frame_startTone _
    · exact .refl _

theorem frame_ldLoEffect (c : Chan) (d : Byte) (s : State) : Frame s (ldLoEffect c d s) := frame_pit _ _

theorem frame_ldHiEffect (c : Chan) (d : Byte) (s : State) : Frame s (ldHiEffect c d s) :=
  (frame_pit s _).trans (frame_loadComplete c _)

theorem frame_spkWrEffect (d : Byte) (s : State) : Frame s (spkWrEffect d s) := by
  unfold spkWrEffect; split
  · exact (frame_pit s _).trans (frame_startTone _)
  · exact (frame_pit s _).trans (frame_silenceTone _)
  · exact .refl _

theorem frame_pitControlWrite (d : Byte) (s : State) : Frame s (pitControlWrite d s) := by
  unfold pitControlWrite; split
  · exact .refl _
  · split
    · exact .refl _
    · exact frame_pitCtrlEffect _ _ _

theorem frame_pitDataWrite (c : Chan) (d : Byte) (s : State) : Frame s (pitDataWrite c d s) := by
  unfold pitDataWrite; split
  · exact frame_ldLoEffect _ _ _
  · exact frame_ldHiEffect _ _ _

theorem frame_ownWrite (h : WriteHandler) (d : Byte) (s : State) : Frame s (ownWrite h d s) := by
  cases h
  · exact frame_picCommandWrite _ _ _
  · exact frame_picDataWrite _ _ _
  · exact frame_pitDataWrite _ _ _
  · exact frame_pitControlWrite _ _
  · exact frame_spkWrEffect _ _
  · exact .refl _

theorem memWriteOp_eq_next {a : Nat} {l : List Byte} {s t : State} (h : memWriteOp a l s = .next t) :
    s.mem.inRegion a l.length = true ∧ t = guestWrite a l s := by
  unfold memWriteOp at h
  split_ifs at h with hr
  cases h; exact ⟨hr, rfl⟩

theorem frame_memWriteOp {a : Nat} {l : List Byte} {s t : State} (h : memWriteOp a l s = .next t) : Frame s t := by
  obtain ⟨hr, rfl⟩ := memWriteOp_eq_next h
  exact frame_guestWrite hr

/-- One action of a device: it completes exactly where its DMA lies in the region, else it is refused (R73). -/
theorem runAction_outcome (a : DeviceAction) (s : State) :
    (actionFits s.mem a = true ∧ ∃ t, runAction a s = .next t) ∨
      (actionFits s.mem a = false ∧ runAction a s = .refused .dmaOutsideMemory) := by
  cases a with
  | raise n more => exact .inl ⟨rfl, _, rfl⟩
  | clear n => exact .inl ⟨rfl, _, rfl⟩
  | emit m => exact .inl ⟨rfl, _, rfl⟩
  | portWrite p d =>
    refine .inl ⟨rfl, ?_⟩
    simp only [runAction]; split <;> exact ⟨_, rfl⟩
  | dmaRead addr n =>
    cases h : s.mem.inRegion addr n
    · exact .inr ⟨h, by simp [runAction, h]⟩
    · exact .inl ⟨h, s, by simp [runAction, h]⟩
  | dmaWrite addr bytes =>
    cases h : s.mem.inRegion addr bytes.length
    · exact .inr ⟨h, by simp [runAction, memWriteOp, h]⟩
    · exact .inl ⟨h, _, by simp [runAction, memWriteOp, h]; rfl⟩

theorem frame_runAction {a : DeviceAction} {s t : State} (h : runAction a s = .next t) : Frame s t := by
  cases a with
  | raise n more => cases h; exact frame_pic (extends_raise _ _ _)
  | clear n => cases h; exact frame_pic (extends_clear _ _)
  | emit m => cases h; exact frame_emit _ _
  | dmaRead addr n =>
    simp only [runAction] at h
    split_ifs at h; cases h; exact .refl _
  | dmaWrite addr bytes => exact frame_memWriteOp h
  | portWrite p d =>
    simp only [runAction] at h
    split at h <;> cases h
    · exact (frame_ownWrite _ _ _).trans (frame_forward _ _ _)
    · exact frame_forward _ _ _

theorem frame_runActions {l : List DeviceAction} {s t : State} (h : runActions l s = .next t) : Frame s t := by
  induction l generalizing s with
  | nil => cases h; exact .refl _
  | cons a rest ih =>
    obtain ⟨u, hu, hr⟩ := andThen_eq_next h
    exact (frame_runAction hu).trans (ih hr)

/-- Where memory is as large, an action's DMA lies in it as before. -/
theorem actionFits_of_size {m n : Memory} (h : n.size = m.size) (a : DeviceAction) :
    actionFits n a = actionFits m a := by
  cases a <;> simp [actionFits, Memory.inRegion, h]

/-- The actions of a device complete exactly where all their DMA lies in the region, else they are refused and the
transaction with them (R73, log 12). -/
theorem runActions_outcome (l : List DeviceAction) (s : State) :
    ((∀ a ∈ l, actionFits s.mem a = true) ∧ ∃ t, runActions l s = .next t) ∨
      ((∃ a ∈ l, actionFits s.mem a = false) ∧ runActions l s = .refused .dmaOutsideMemory) := by
  induction l generalizing s with
  | nil => exact .inl ⟨by simp, s, rfl⟩
  | cons a rest ih =>
    rcases runAction_outcome a s with ⟨ha, t, ht⟩ | ⟨ha, ht⟩
    · have hsize := actionFits_of_size (frame_runAction ht).size
      rcases ih t with ⟨hr, u, hu⟩ | ⟨⟨b, hb, hf⟩, hu⟩
      · exact .inl ⟨by simpa [ha] using fun b hb => (hsize b).symm.trans (hr b hb),
          u, by rw [runActions, ht]; exact hu⟩
      · exact .inr ⟨⟨b, List.mem_cons_of_mem _ hb, (hsize b).symm.trans hf⟩, by rw [runActions, ht]; exact hu⟩
    · exact .inr ⟨⟨a, by simp, ha⟩, by rw [runActions, ht]; rfl⟩

theorem runActions_completes {l : List DeviceAction} {s : State} (h : ∀ a ∈ l, actionFits s.mem a = true) :
    ∃ t, runActions l s = .next t := by
  rcases runActions_outcome l s with ⟨_, ht⟩ | ⟨⟨a, ha, hf⟩, _⟩
  · exact ht
  · rw [h a ha] at hf; cases hf

theorem frame_callWrite {h : WriteHandler} {w : Width} {p : Port} {v : DWord} {s t : State}
    (e : callWrite h w p v s = .next t) : Frame s t := by
  cases h
  case other id => exact (frame_useFresh s).trans (frame_runActions e)
  all_goals (simp only [callWrite] at e; cases e; exact frame_ownWrite _ _ _)

theorem callWrite_completes {h : WriteHandler} {w : Width} {p : Port} {v : DWord} {s : State}
    (e : writeHandlerFits s.mem h w p v) : ∃ t, callWrite h w p v s = .next t := by
  cases h
  case other id => exact runActions_completes (e s.fresh)
  all_goals exact ⟨_, rfl⟩

theorem frame_callRead {h : ReadHandler} {w : Width} {p : Port} {s : State} {r : DWord × State}
    (e : callRead h w p s = .next r) : Frame s r.2 := by
  cases h
  case other id =>
    obtain ⟨t, ht, hr⟩ := andThen_eq_next e
    cases hr; exact (frame_useFresh s).trans (frame_runActions ht)
  case picData k => cases e; exact .refl _
  all_goals (cases e; exact frame_useFresh _)

theorem callRead_completes {h : ReadHandler} {w : Width} {p : Port} {s : State}
    (e : readHandlerFits s.mem h w p) : ∃ r, callRead h w p s = .next r := by
  cases h
  case other id =>
    obtain ⟨t, ht⟩ := runActions_completes (s := useFresh s) (e s.fresh)
    exact ⟨_, by simp only [callRead]; rw [ht]; rfl⟩
  all_goals exact ⟨_, rfl⟩

theorem frame_busWriteByte {p : Port} {v : DWord} {s t : State} (e : busWriteByte p v s = .next t) : Frame s t := by
  unfold busWriteByte at e; split at e
  · obtain ⟨u, hu, hr⟩ := andThen_eq_next e
    cases hr; exact (frame_callWrite hu).trans (frame_forward _ _ _)
  · cases e; exact frame_forward _ _ _

theorem busWriteByte_completes {p : Port} {v : DWord} {s : State} (e : s.slotWriteFits .byte p v) :
    ∃ t, busWriteByte p v s = .next t := by
  unfold busWriteByte; split
  · obtain ⟨t, ht⟩ := callWrite_completes (e _ ‹_›)
    exact ⟨_, by rw [ht]; rfl⟩
  · exact ⟨_, rfl⟩

theorem frame_busReadByte {p : Port} {s : State} {r : Byte × State} (e : busReadByte p s = .next r) :
    Frame s r.2 := by
  unfold busReadByte at e; split at e
  · obtain ⟨u, hu, hr⟩ := andThen_eq_next e
    cases hr; exact frame_callRead hu
  · cases e; exact .refl _

theorem busReadByte_completes {p : Port} {s : State} (e : s.slotReadFits .byte p) :
    ∃ r, busReadByte p s = .next r := by
  unfold busReadByte; split
  · obtain ⟨r, hr⟩ := callRead_completes (e _ ‹_›)
    exact ⟨_, by rw [hr]; rfl⟩
  · exact ⟨_, rfl⟩

theorem frame_ioWrite {w : Width} {p : Port} {v : DWord} {s t : State} (e : ioWrite w p v s = .next t) :
    Frame s t := by
  cases w
  · exact frame_busWriteByte e
  · simp only [ioWrite, busWriteWord] at e
    split at e
    · exact frame_callWrite e
    · split at e
      · obtain ⟨u, hu, hr⟩ := andThen_eq_next e
        exact (frame_busWriteByte hu).trans (frame_busWriteByte hr)
      · cases e; exact .refl _
  · simp only [ioWrite, busWriteDword] at e
    split at e
    · exact frame_callWrite e
    · cases e; exact .refl _

theorem writeHandlerFits_of_size {m n : Memory} (e : n.size = m.size) {h : WriteHandler} {w : Width} {p : Port}
    {v : DWord} (f : writeHandlerFits m h w p v) : writeHandlerFits n h w p v := by
  cases h
  case other id => exact fun k a ha => (actionFits_of_size e a).trans (f k a ha)
  all_goals trivial

theorem readHandlerFits_of_size {m n : Memory} (e : n.size = m.size) {h : ReadHandler} {w : Width} {p : Port}
    (f : readHandlerFits m h w p) : readHandlerFits n h w p := by
  cases h
  case other id => exact fun k a ha => (actionFits_of_size e a).trans (f k a ha)
  all_goals trivial

/-- A write's handlers fit as before where the tables and the size of memory are the same. -/
theorem slotWriteFits_of_stays {s t : State} (e : Stays s t) {w : Width} {p : Port} {v : DWord}
    (f : s.slotWriteFits w p v) : t.slotWriteFits w p v := fun h hh =>
  writeHandlerFits_of_size e.size (f h (by rw [← e.bus]; exact hh))

theorem slotReadFits_of_stays {s t : State} (e : Stays s t) {w : Width} {p : Port}
    (f : s.slotReadFits w p) : t.slotReadFits w p := fun h hh =>
  readHandlerFits_of_size e.size (f h (by rw [← e.bus]; exact hh))

/-- A write transaction completes where the handlers it may call keep their DMA in memory (R73). -/
theorem ioWrite_completes {w : Width} {p : Port} {v : DWord} {s : State} (e : s.writeFits w p v) :
    ∃ t, ioWrite w p v s = .next t := by
  obtain ⟨e, f⟩ := e
  cases w
  · exact busWriteByte_completes e
  · simp only [ioWrite, busWriteWord]
    split
    · exact callWrite_completes (e _ ‹_›)
    · rename_i hn
      split
      · obtain ⟨f1, f2⟩ := f rfl hn ‹_›
        obtain ⟨u, hu⟩ := busWriteByte_completes f1
        obtain ⟨t, ht⟩ := busWriteByte_completes (slotWriteFits_of_stays (frame_busWriteByte hu).toStays f2)
        exact ⟨t, by rw [hu]; exact ht⟩
      · exact ⟨_, rfl⟩
  · simp only [ioWrite, busWriteDword]
    split
    · exact callWrite_completes (e _ ‹_›)
    · exact ⟨_, rfl⟩

theorem frame_ioRead {w : Width} {p : Port} {s : State} {r : DWord × State} (e : ioRead w p s = .next r) :
    Frame s r.2 := by
  cases w
  · obtain ⟨u, hu, hr⟩ := andThen_eq_next e
    cases hr; exact frame_busReadByte hu
  · obtain ⟨u, hu, hr⟩ := andThen_eq_next e
    cases hr
    unfold busReadWord at hu
    split at hu
    · obtain ⟨v, hv, hr⟩ := andThen_eq_next hu
      cases hr
      have := frame_callRead hv
      exact this
    · split at hu
      · obtain ⟨lo, hlo, hr⟩ := andThen_eq_next hu
        obtain ⟨hi, hhi, hr⟩ := andThen_eq_next hr
        cases hr; exact (frame_busReadByte hlo).trans (frame_busReadByte hhi)
      · cases hu; exact .refl _
  · simp only [ioRead, busReadDword] at e
    split at e
    · exact frame_callRead e
    · cases e; exact .refl _

/-- A read transaction completes where the handlers it may call keep their DMA in memory (R72, R73). -/
theorem ioRead_completes {w : Width} {p : Port} {s : State} (e : s.readFits w p) :
    ∃ r, ioRead w p s = .next r := by
  obtain ⟨e, f⟩ := e
  cases w
  · obtain ⟨r, hr⟩ := busReadByte_completes e
    exact ⟨_, by simp only [ioRead]; rw [hr]; rfl⟩
  · suffices h : ∃ r, busReadWord p s = .next r by
      obtain ⟨r, hr⟩ := h
      exact ⟨_, by simp only [ioRead]; rw [hr]; rfl⟩
    unfold busReadWord
    split
    · obtain ⟨r, hr⟩ := callRead_completes (e _ ‹_›)
      exact ⟨_, by rw [hr]; rfl⟩
    · rename_i hn
      split
      · obtain ⟨f1, f2⟩ := f rfl hn ‹_›
        obtain ⟨lo, hlo⟩ := busReadByte_completes f1
        obtain ⟨hi, hhi⟩ := busReadByte_completes (slotReadFits_of_stays (frame_busReadByte hlo).toStays f2)
        exact ⟨_, by rw [hlo]; simp only [andThen_next]; rw [hhi]; rfl⟩
      · exact ⟨_, rfl⟩
  · simp only [ioRead, busReadDword]
    split
    · exact callRead_completes (e _ ‹_›)
    · exact ⟨_, rfl⟩

theorem frame_ioReadReply {w : Width} {p : Port} {s t : State} (e : ioReadReply w p s = .next t) : Frame s t := by
  obtain ⟨r, hr, e⟩ := andThen_eq_next e
  cases e; exact (frame_ioRead hr).trans (frame_reply _ _)

theorem ioReadReply_completes {w : Width} {p : Port} {s : State} (e : s.readFits w p) :
    ∃ t, ioReadReply w p s = .next t := by
  obtain ⟨r, hr⟩ := ioRead_completes e
  exact ⟨_, by rw [ioReadReply, hr]; rfl⟩

theorem stays_trapPoint (s : State) : Stays s (trapPoint s) := (stays_pic s _).trans (frame_reply _ _).toStays

theorem clockTo_eq_next {t : Time} {s u : State} (h : clockTo t s = .next u) :
    s.now ≤ t ∧ u = { s with now := t } := by
  unfold clockTo at h
  split at h
  · exact ⟨‹_›, by cases h; rfl⟩
  · cases h

/-- The same, with the clock moved on. -/
structure Moved (s t : State) : Prop where
  stays : Stays { s with now := t.now } t
  clock : s.now ≤ t.now

theorem Stays.moved {s t : State} (f : Stays s t) : Moved s t := by
  refine ⟨?_, le_of_eq f.now.symm⟩
  have h : ({ s with now := t.now } : State) = s := by rw [f.now]
  rw [h]; exact f

theorem Frame.moved {s t : State} (f : Frame s t) : Moved s t := f.toStays.moved

theorem Stays.withNow {s t : State} (f : Stays s t) (x : Time) :
    Stays { s with now := x } { t with now := x } :=
  ⟨f.params, f.bus, f.inbox, f.coreCalls, f.size, f.noMemory, f.state, f.wake, f.debugReq, f.cpu, f.regmap,
    f.generation, rfl, f.hostOut, f.returned⟩

theorem Moved.trans {s t u : State} (a : Moved s t) (b : Moved t u) : Moved s u :=
  ⟨(a.stays.withNow u.now).trans b.stays, le_trans a.clock b.clock⟩

theorem moved_clock {t : Time} {s : State} (h : s.now ≤ t) : Moved s { s with now := t } := ⟨.refl _, h⟩

/-- If one thing the core does answers a next state: within the frame at another clock reading, and but for a trap
point the queue only gains entries. -/
theorem runCoreOp_eq_next {o : CoreOp} {s t : State} (h : runCoreOp o s = .next t) :
    Moved s t ∧ (o ≠ .trap → s.pic.Extends t.pic) := by
  have go : Frame s t → Moved s t ∧ (o ≠ .trap → s.pic.Extends t.pic) := fun f => ⟨f.moved, fun _ => f.queue⟩
  cases o with
  | read w p => exact go (frame_ioReadReply h)
  | write w p v => exact go (frame_ioWrite h)
  | trap => cases h; exact ⟨(stays_trapPoint _).moved, fun e => absurd rfl e⟩
  | load a n =>
    simp only [runCoreOp] at h
    split_ifs at h; cases h; exact go (frame_reply _ _)
  | store a l =>
    simp only [runCoreOp] at h
    split_ifs at h; cases h; exact go (frame_guestWrite ‹_›)
  | clock u =>
    obtain ⟨hu, rfl⟩ := clockTo_eq_next h
    exact ⟨moved_clock hu, fun _ => .refl _⟩

theorem moved_runCoreOps {l : List CoreOp} {s t : State} (h : runCoreOps l s = .next t) : Moved s t := by
  induction l generalizing s with
  | nil => cases h; exact (Frame.refl _).moved
  | cons o rest ih =>
    obtain ⟨u, hu, hr⟩ := andThen_eq_next h
    exact (runCoreOp_eq_next hu).1.trans (ih hr)

theorem frame_catchUpLoop (fuel p : Nat) (t1 : Time) (s : State) : Frame s (catchUpLoop fuel p t1 s) := by
  induction fuel generalizing s with
  | zero => exact .refl _
  | succ n ih =>
    unfold catchUpLoop; split
    · exact (frame_tickOnce p s).trans (ih _)
    · exact .refl _

theorem frame_tickCatchUp (t1 : Time) (s : State) : Frame s (tickCatchUp t1 s) := by
  unfold tickCatchUp; split
  · exact .refl _
  · exact frame_catchUpLoop _ _ _ _

theorem frame_raiseEach (l : List (Fin 16)) (s : State) : Frame s (raiseEach l s) := by
  induction l generalizing s with
  | nil => exact .refl _
  | cons n rest ih => exact (frame_pic (extends_raise s.pic _ _)).trans (ih _)

/-! ### The invariants of the devices -/

/-- The part of a legal state that port transactions and ticks touch. -/
structure DevicesLegal (s : State) : Prop where
  queue : ∀ e ∈ s.pic.queue, e.vectorMatchesLine
  period : ∀ p, s.sched.period = some p → 1 ≤ p ∧ p ≤ 55
  tone : s.pit.tone ≠ .silent → s.pit.gate = true
  toneHz : ∀ f, s.pit.tone = .hz f → 0 < f
  memory : s.mem.wf

theorem devices_of_eq {s t : State} (h : DevicesLegal s) (hp : t.pic.queue = s.pic.queue)
    (hd : t.sched.period = s.sched.period) (hi : t.pit = s.pit) (hm : t.mem = s.mem) : DevicesLegal t where
  queue := by rw [hp]; exact h.queue
  period := by rw [hd]; exact h.period
  tone := by rw [hi]; exact h.tone
  toneHz := by rw [hi]; exact h.toneHz
  memory := by rw [hm]; exact h.memory

theorem devices_queue {s : State} (h : DevicesLegal s) {p : Pic} (hq : ∀ e ∈ p.queue, e.vectorMatchesLine) :
    DevicesLegal { s with pic := p } :=
  ⟨hq, h.period, h.tone, h.toneHz, h.memory⟩

theorem effectiveCount_range (v : BitVec 16) : 1 ≤ effectiveCount v ∧ effectiveCount v ≤ 65536 := by
  unfold effectiveCount
  split_ifs with h
  · omega
  · have hlt := v.isLt
    have : v.toNat ≠ 0 := fun e => h (BitVec.eq_of_toNat_eq (by simpa using e))
    omega

theorem toneHz_pos (v : BitVec 16) : 0 < toneHz (effectiveCount v) := by
  have h : (0 : Rat) < (effectiveCount v : Rat) := by exact_mod_cast (effectiveCount_range v).1
  unfold toneHz Config.pitHz
  exact div_pos (by norm_num) h

theorem devices_startTone {s : State} (h : DevicesLegal s) (hg : s.pit.gate = true) :
    DevicesLegal (startTone s) where
  queue := h.queue
  period := h.period
  tone _ := hg
  toneHz f hf := by
    have : toneHz (effectiveCount s.pit.ch2.value) = f := by
      simpa [startTone, emit] using hf
    rw [← this]; exact toneHz_pos _
  memory := h.memory

theorem devices_silenceTone {s : State} (hq : ∀ e ∈ s.pic.queue, e.vectorMatchesLine)
    (hp : ∀ p, s.sched.period = some p → 1 ≤ p ∧ p ≤ 55) (hm : s.mem.wf) : DevicesLegal (silenceTone s) where
  queue := hq
  period := hp
  tone e := absurd rfl e
  toneHz f hf := by simp [silenceTone, emit] at hf
  memory := hm

theorem devices_setChannel {s : State} (h : DevicesLegal s) (c : Chan) (v : Channel) :
    DevicesLegal (setChannel c v s) where
  queue := h.queue
  period := h.period
  tone := by simpa using h.tone
  toneHz := by simpa using h.toneHz
  memory := h.memory

theorem devices_forward {s : State} (h : DevicesLegal s) (p : Port) (v : Byte) : DevicesLegal (forward p v s) := by
  unfold forward; split
  · exact ⟨h.queue, h.period, h.tone, h.toneHz, h.memory⟩
  · exact h

theorem devices_picCommandWrite {s : State} (h : DevicesLegal s) (k : Ctrl) (d : Byte) :
    DevicesLegal (picCommandWrite k d s) := by
  unfold picCommandWrite; split_ifs
  · exact devices_queue h (by simpa using h.queue)
  · exact devices_queue h (arbitrate_vectorMatchesLine (by simpa using h.queue))
  · exact devices_queue h (arbitrate_vectorMatchesLine (by simpa using h.queue))
  · exact h

theorem devices_picDataWrite {s : State} (h : DevicesLegal s) (k : Ctrl) (d : Byte) :
    DevicesLegal (picDataWrite k d s) := by
  unfold picDataWrite; split
  · exact devices_queue h (arbitrate_vectorMatchesLine (by simpa using h.queue))
  all_goals exact devices_queue h (by simpa using h.queue)

theorem periodMs_range {c : Nat} (h : 1 ≤ c ∧ c ≤ 65536) : 1 ≤ periodMs c ∧ periodMs c ≤ 55 := by
  unfold periodMs ceilDiv Config.pitHz; omega

theorem devices_loadComplete {s : State} (h : DevicesLegal s) (c : Chan) : DevicesLegal (loadComplete c s) := by
  cases c
  · refine ⟨h.queue, ?_, h.tone, h.toneHz, h.memory⟩
    intro p hp
    have : periodMs (effectiveCount s.pit.ch0.value) = p := by simpa [loadComplete, setPeriodOp] using hp
    rw [← this]; exact periodMs_range (effectiveCount_range _)
  · exact h
  · simp only [loadComplete]
    split
    · exact devices_startTone h ‹_›
    · exact h

theorem devices_pitCtrlEffect {s : State} (h : DevicesLegal s) (c : Chan) (d : Byte) :
    DevicesLegal (pitCtrlEffect c d s) := by
  cases c
  · refine ⟨h.queue, ?_, (devices_setChannel h .ch0 ⟨0, 0, d⟩).tone,
      (devices_setChannel h .ch0 ⟨0, 0, d⟩).toneHz, h.memory⟩
    intro p hp; simp [pitCtrlEffect, clearIrqOp, clearPeriodOp] at hp
  · exact devices_setChannel h _ _
  · exact devices_silenceTone h.queue h.period h.memory

theorem devices_pitControlWrite {s : State} (h : DevicesLegal s) (d : Byte) :
    DevicesLegal (pitControlWrite d s) := by
  unfold pitControlWrite; split
  · exact h
  · split
    · exact h
    · exact devices_pitCtrlEffect h _ _

theorem devices_ldHiEffect {s : State} (h : DevicesLegal s) (c : Chan) (d : Byte) :
    DevicesLegal (ldHiEffect c d s) :=
  devices_loadComplete (devices_setChannel h _ _) c

theorem devices_pitDataWrite {s : State} (h : DevicesLegal s) (c : Chan) (d : Byte) :
    DevicesLegal (pitDataWrite c d s) := by
  unfold pitDataWrite; split
  · exact devices_setChannel h _ _
  · exact devices_ldHiEffect h _ _

theorem devices_spkWrEffect {s : State} (h : DevicesLegal s) (d : Byte) : DevicesLegal (spkWrEffect d s) := by
  unfold spkWrEffect; split
  · exact devices_startTone (s := { s with pit := { s.pit with gate := true } })
      ⟨h.queue, h.period, fun _ => rfl, h.toneHz, h.memory⟩ rfl
  · exact devices_silenceTone h.queue h.period h.memory
  · exact h

theorem devices_ownWrite {s : State} (h : DevicesLegal s) (w : WriteHandler) (d : Byte) :
    DevicesLegal (ownWrite w d s) := by
  cases w
  · exact devices_picCommandWrite h _ _
  · exact devices_picDataWrite h _ _
  · exact devices_pitDataWrite h _ _
  · exact devices_pitControlWrite h _
  · exact devices_spkWrEffect h _
  · exact h

theorem devices_guestWrite {s : State} (h : DevicesLegal s) (a : Nat) (l : List Byte) :
    DevicesLegal (guestWrite a l s) :=
  ⟨h.queue, h.period, h.tone, h.toneHz, writeBytes_wf _ _ _ h.memory⟩

theorem devices_memWriteOp {a : Nat} {l : List Byte} {s t : State} (h : DevicesLegal s)
    (e : memWriteOp a l s = .next t) : DevicesLegal t := by
  obtain ⟨_, rfl⟩ := memWriteOp_eq_next e
  exact devices_guestWrite h _ _

theorem devices_runAction {a : DeviceAction} {s t : State} (h : DevicesLegal s) (e : runAction a s = .next t) :
    DevicesLegal t := by
  cases a with
  | raise n more => cases e; exact devices_queue h (raise_vectorMatchesLine _ _ h.queue)
  | clear n => cases e; exact devices_queue h (by simpa using h.queue)
  | emit m => cases e; exact ⟨h.queue, h.period, h.tone, h.toneHz, h.memory⟩
  | dmaRead addr n =>
    simp only [runAction] at e
    split_ifs at e; cases e; exact h
  | dmaWrite addr bytes => exact devices_memWriteOp h e
  | portWrite p d =>
    simp only [runAction] at e
    split at e <;> cases e
    · exact devices_forward (devices_ownWrite h _ _) _ _
    · exact devices_forward h _ _

theorem devices_runActions {l : List DeviceAction} {s t : State} (h : DevicesLegal s)
    (e : runActions l s = .next t) : DevicesLegal t := by
  induction l generalizing s with
  | nil => cases e; exact h
  | cons a rest ih =>
    obtain ⟨u, hu, hr⟩ := andThen_eq_next e
    exact ih (devices_runAction h hu) hr

theorem devices_useFresh {s : State} (h : DevicesLegal s) : DevicesLegal (useFresh s) :=
  ⟨h.queue, h.period, h.tone, h.toneHz, h.memory⟩

theorem devices_reply {s : State} (h : DevicesLegal s) (r : Reply) : DevicesLegal (reply r s) :=
  ⟨h.queue, h.period, h.tone, h.toneHz, h.memory⟩

theorem devices_callWrite {w : WriteHandler} {wd : Width} {p : Port} {v : DWord} {s t : State}
    (h : DevicesLegal s) (e : callWrite w wd p v s = .next t) : DevicesLegal t := by
  cases w
  case other id => exact devices_runActions (devices_useFresh h) e
  all_goals (simp only [callWrite] at e; cases e; exact devices_ownWrite h _ _)

theorem devices_callRead {r : ReadHandler} {w : Width} {p : Port} {s : State} {x : DWord × State}
    (h : DevicesLegal s) (e : callRead r w p s = .next x) : DevicesLegal x.2 := by
  cases r
  case other id =>
    obtain ⟨t, ht, hr⟩ := andThen_eq_next e
    cases hr; exact devices_runActions (devices_useFresh h) ht
  case picData k => cases e; exact h
  all_goals (cases e; exact devices_useFresh h)

theorem devices_busWriteByte {p : Port} {v : DWord} {s t : State} (h : DevicesLegal s)
    (e : busWriteByte p v s = .next t) : DevicesLegal t := by
  unfold busWriteByte at e; split at e
  · obtain ⟨u, hu, hr⟩ := andThen_eq_next e
    cases hr; exact devices_forward (devices_callWrite h hu) _ _
  · cases e; exact devices_forward h _ _

theorem devices_busReadByte {p : Port} {s : State} {r : Byte × State} (h : DevicesLegal s)
    (e : busReadByte p s = .next r) : DevicesLegal r.2 := by
  unfold busReadByte at e; split at e
  · obtain ⟨u, hu, hr⟩ := andThen_eq_next e
    cases hr; exact devices_callRead h hu
  · cases e; exact h

theorem devices_ioWrite {w : Width} {p : Port} {v : DWord} {s t : State} (h : DevicesLegal s)
    (e : ioWrite w p v s = .next t) : DevicesLegal t := by
  cases w
  · exact devices_busWriteByte h e
  · simp only [ioWrite, busWriteWord] at e
    split at e
    · exact devices_callWrite h e
    · split at e
      · obtain ⟨u, hu, hr⟩ := andThen_eq_next e
        exact devices_busWriteByte (devices_busWriteByte h hu) hr
      · cases e; exact h
  · simp only [ioWrite, busWriteDword] at e
    split at e
    · exact devices_callWrite h e
    · cases e; exact h

theorem devices_ioRead {w : Width} {p : Port} {s : State} {r : DWord × State} (h : DevicesLegal s)
    (e : ioRead w p s = .next r) : DevicesLegal r.2 := by
  cases w
  · obtain ⟨u, hu, hr⟩ := andThen_eq_next e
    cases hr; exact devices_busReadByte h hu
  · obtain ⟨u, hu, hr⟩ := andThen_eq_next e
    cases hr
    unfold busReadWord at hu
    split at hu
    · obtain ⟨v, hv, hr⟩ := andThen_eq_next hu
      cases hr
      have := devices_callRead h hv
      exact this
    · split at hu
      · obtain ⟨lo, hlo, hr⟩ := andThen_eq_next hu
        obtain ⟨hi, hhi, hr⟩ := andThen_eq_next hr
        cases hr; exact devices_busReadByte (devices_busReadByte h hlo) hhi
      · cases hu; exact h
  · simp only [ioRead, busReadDword] at e
    split at e
    · exact devices_callRead h e
    · cases e; exact h

theorem devices_ioReadReply {w : Width} {p : Port} {s t : State} (h : DevicesLegal s)
    (e : ioReadReply w p s = .next t) : DevicesLegal t := by
  obtain ⟨r, hr, e⟩ := andThen_eq_next e
  cases e; exact devices_reply (devices_ioRead h hr) _

theorem devices_trapPoint {s : State} (h : DevicesLegal s) : DevicesLegal (trapPoint s) := by
  refine devices_reply (devices_queue h ?_) _
  intro e he
  rw [dequeue_queue] at he
  exact h.queue e (List.mem_of_mem_tail he)

theorem devices_runCoreOp {o : CoreOp} {s t : State} (h : DevicesLegal s) (ht : runCoreOp o s = .next t) :
    DevicesLegal t := by
  cases o with
  | read w p => exact devices_ioReadReply h ht
  | write w p v => exact devices_ioWrite h ht
  | trap => cases ht; exact devices_trapPoint h
  | load a n =>
    simp only [runCoreOp] at ht
    split at ht
    · cases ht; exact devices_reply h _
    · cases ht
  | store a l =>
    simp only [runCoreOp] at ht
    split at ht
    · cases ht; exact devices_guestWrite h _ _
    · cases ht
  | clock u =>
    obtain ⟨_, rfl⟩ := clockTo_eq_next ht
    exact ⟨h.queue, h.period, h.tone, h.toneHz, h.memory⟩

theorem devices_runCoreOps {l : List CoreOp} {s t : State} (h : DevicesLegal s) (ht : runCoreOps l s = .next t) :
    DevicesLegal t := by
  induction l generalizing s with
  | nil => cases ht; exact h
  | cons o rest ih =>
    obtain ⟨u, hu, hr⟩ := andThen_eq_next ht
    exact ih (devices_runCoreOp h hu) hr

theorem devices_catchUpLoop {s : State} (h : DevicesLegal s) (fuel p : Nat) (t1 : Time) :
    DevicesLegal (catchUpLoop fuel p t1 s) := by
  induction fuel generalizing s with
  | zero => exact h
  | succ n ih =>
    unfold catchUpLoop; split
    · exact ih ⟨raise_vectorMatchesLine _ _ h.queue, h.period, h.tone, h.toneHz, h.memory⟩
    · exact h

theorem devices_tickCatchUp {s : State} (h : DevicesLegal s) (t1 : Time) : DevicesLegal (tickCatchUp t1 s) := by
  unfold tickCatchUp; split
  · exact h
  · exact devices_catchUpLoop h _ _ _

theorem devices_raiseEach {s : State} (h : DevicesLegal s) (l : List (Fin 16)) : DevicesLegal (raiseEach l s) := by
  induction l generalizing s with
  | nil => exact h
  | cons n rest ih => exact ih (devices_queue h (raise_vectorMatchesLine _ _ h.queue))

/-- A legal state has legal devices. -/
theorem State.Legal.devices {s : State} (h : s.Legal) : DevicesLegal s :=
  ⟨h.queue, h.period, h.tone, h.toneHz, h.memory⟩

/-- Within the frame, legal devices are all a legal state needs. -/
theorem legal_of_moved {s t : State} (h : s.Legal) (m : Moved s t) (d : DevicesLegal t) : t.Legal where
  queue := d.queue
  wake := by rw [m.stays.wake, m.stays.state]; exact h.wake
  period := d.period
  tone := d.tone
  toneHz := d.toneHz
  notShutdown := by rw [m.stays.state]; exact h.notShutdown
  cpu := by rw [m.stays.state, m.stays.cpu]; exact h.cpu
  unallocated := by
    rw [m.stays.state]
    intro e
    have hm := h.unallocated e
    rw [m.stays.noMemory (by rw [hm]), hm]
  memory := d.memory
  own := by rw [m.stays.bus, m.stays.params]; exact h.own
  tables := by rw [m.stays.bus]; exact h.tables
  presented := by rw [m.stays.inbox]; exact h.presented

end Sys2Proof.Machine
end

