-- ==== Sys2Proof/Laws/Sched.lean ====
section
/-! SUPPORT. The Scheduler, said once: the catch-up loop makes exactly the ticks due, the CPU core's activity
completes where it can be followed, and what one continuation does. -/

namespace Sys2Proof.Machine

open Sys2Proof

/-- n ticks in a row. -/
def ticks (n p : Nat) (s : State) : State :=
  match n with
  | 0 => s
  | n + 1 => ticks n p (tickOnce p s)

theorem ticksDue_eq (lt t1 : Time) (p : Nat) : ticksDue lt t1 p = ⌊(t1 - lt) / (p : Rat)⌋.toNat := rfl

theorem ticksDue_succ {lt t1 : Time} {p n : Nat} (hp : 0 < p) (h : ticksDue lt t1 p = n + 1) :
    (p : Rat) ≤ t1 - lt ∧ ticksDue (lt + (p : Rat)) t1 p = n := by
  have hp' : (0 : Rat) < p := by exact_mod_cast hp
  rw [ticksDue_eq] at h
  constructor
  · have h1 : (1 : Rat) ≤ (t1 - lt) / p := by
      have : (1 : Int) ≤ ⌊(t1 - lt) / (p : Rat)⌋ := by omega
      exact_mod_cast Int.le_floor.1 this
    rw [le_div_iff₀ hp'] at h1; linarith
  · rw [ticksDue_eq]
    have e : (t1 - (lt + (p : Rat))) / (p : Rat) = (t1 - lt) / (p : Rat) - ((1 : Int) : Rat) := by
      field_simp; push_cast; ring
    rw [e, Int.floor_sub_intCast]; omega

theorem catchUpLoop_eq (n p : Nat) (t1 : Time) (s : State) (hp : 0 < p) (h : ticksDue s.sched.lastTick t1 p = n) :
    catchUpLoop n p t1 s = ticks n p s := by
  induction n generalizing s with
  | zero => rfl
  | succ n ih =>
    obtain ⟨h1, h2⟩ := ticksDue_succ hp h
    rw [catchUpLoop, if_pos h1, ticks, ih]
    exact h2

/-- The catch-up makes exactly the ticks due: its bound never cuts the loop short (R201). -/
theorem tickCatchUp_eq {t1 : Time} {s : State} {p : Nat} (hs : s.sched.period = some p) (hp : 0 < p) :
    tickCatchUp t1 s = ticks (ticksDue s.sched.lastTick t1 p) p s := by
  simp only [tickCatchUp, hs]
  exact catchUpLoop_eq _ _ _ _ hp rfl

theorem ticks_lastTick (n p : Nat) (s : State) :
    (ticks n p s).sched.lastTick = s.sched.lastTick + (n : Rat) * (p : Rat) := by
  induction n generalizing s with
  | zero => simp [ticks]
  | succ n ih =>
    rw [ticks, ih]
    show s.sched.lastTick + (p : Rat) + _ = _
    push_cast; ring

theorem ticks_outstanding (n p : Nat) (s : State) (m : Fin 16) :
    (ticks n p s).pic.outstanding m = s.pic.outstanding m + if m = 0 then n else 0 := by
  induction n generalizing s with
  | zero => simp [ticks]
  | succ n ih =>
    rw [ticks, ih]
    show (s.pic.raise 0 1).outstanding m + _ = _
    rw [raise_outstanding]
    split_ifs <;> omega

/-- Ticks touch the PIC and the last tick, nothing else. -/
theorem ticks_rest (n p : Nat) (s : State) :
    ticks n p s =
      { s with pic := (ticks n p s).pic
               sched := { s.sched with lastTick := s.sched.lastTick + (n : Rat) * (p : Rat) } } := by
  induction n generalizing s with
  | zero => simp [ticks]
  | succ n ih =>
    conv_lhs => rw [ticks, ih]
    show ({ s with pic := _, sched := _ } : State) = _
    have e : s.sched.lastTick + (p : Rat) + (n : Rat) * (p : Rat) =
        s.sched.lastTick + ((n + 1 : Nat) : Rat) * (p : Rat) := by push_cast; ring
    rw [← e]; rfl

/-- After the ticks due, less than a period is left over. -/
theorem ticksDue_bound {lt t1 : Time} {p : Nat} (hp : 0 < p) (h : lt ≤ t1) :
    0 ≤ t1 - (lt + (ticksDue lt t1 p : Rat) * (p : Rat)) ∧
      t1 - (lt + (ticksDue lt t1 p : Rat) * (p : Rat)) < p := by
  have hp' : (0 : Rat) < p := by exact_mod_cast hp
  have h0 : (0 : Rat) ≤ (t1 - lt) / p := div_nonneg (by linarith) hp'.le
  have hz : ((ticksDue lt t1 p : Nat) : Int) = ⌊(t1 - lt) / (p : Rat)⌋ := by
    rw [ticksDue_eq]; exact Int.toNat_of_nonneg (Int.floor_nonneg.2 h0)
  have hq : ((ticksDue lt t1 p : Nat) : Rat) = ((⌊(t1 - lt) / (p : Rat)⌋ : Int) : Rat) := by
    rw [← hz]; norm_cast
  have h1 := Int.floor_le ((t1 - lt) / (p : Rat))
  have h2 := Int.lt_floor_add_one ((t1 - lt) / (p : Rat))
  rw [← hq] at h1 h2
  rw [le_div_iff₀ hp'] at h1
  rw [div_lt_iff₀ hp'] at h2
  constructor <;> nlinarith

/-- Within `Stays` at another clock reading, what the core does fits as before. -/
theorem coreOpFits_of_moved {s t : State} (m : Moved s t) {o : CoreOp} (h : CoreOp.fits s o) : CoreOp.fits t o := by
  have e := m.stays
  have hs : t.mem.size = s.mem.size := e.size
  cases o with
  | read w p =>
    exact ⟨slotReadFits_of_stays e h.1, fun hw hn hp =>
      ⟨slotReadFits_of_stays e (h.2 hw (by rw [← e.bus]; exact hn) hp).1,
        slotReadFits_of_stays e (h.2 hw (by rw [← e.bus]; exact hn) hp).2⟩⟩
  | write w p v =>
    exact ⟨slotWriteFits_of_stays e h.1, fun hw hn hp =>
      ⟨slotWriteFits_of_stays e (h.2 hw (by rw [← e.bus]; exact hn) hp).1,
        slotWriteFits_of_stays e (h.2 hw (by rw [← e.bus]; exact hn) hp).2⟩⟩
  | trap => trivial
  | load a n => simpa [CoreOp.fits, Memory.inRegion, hs] using h
  | store a l => simpa [CoreOp.fits, Memory.inRegion, hs] using h
  | clock u => trivial

/-- One thing the core does completes where it can be followed, and leaves the rest followable (R193). -/
theorem runCoreOp_completes {o : CoreOp} {rest : List CoreOp} {s : State} (h : followable s s.now (o :: rest)) :
    ∃ t, runCoreOp o s = .next t ∧ clockRises t.now rest = true ∧
      clockAfter s.now (o :: rest) = clockAfter t.now rest := by
  obtain ⟨hc, hm⟩ := h
  have ho := hm o (by simp)
  -- everything but a clock reading leaves the clock
  have go : ∀ t, runCoreOp o s = .next t → Stays s t → clockRises s.now rest = true →
      clockAfter s.now (o :: rest) = clockAfter s.now rest →
      ∃ t, runCoreOp o s = .next t ∧ clockRises t.now rest = true ∧
        clockAfter s.now (o :: rest) = clockAfter t.now rest := fun t ht e hr ha =>
    ⟨t, ht, by rw [e.now]; exact hr, by rw [e.now]; exact ha⟩
  cases o with
  | read w p =>
    obtain ⟨t, ht⟩ := ioReadReply_completes ho
    exact go t ht (frame_ioReadReply ht).toStays hc rfl
  | write w p v =>
    obtain ⟨t, ht⟩ := ioWrite_completes ho
    exact go t ht (frame_ioWrite ht).toStays hc rfl
  | trap => exact go _ rfl (stays_trapPoint s) hc rfl
  | load a n => exact go _ (if_pos ho) (frame_reply _ _).toStays hc rfl
  | store a b => exact go _ (if_pos ho) (frame_guestWrite ho).toStays hc rfl
  | clock u =>
    simp only [clockRises, Bool.and_eq_true, decide_eq_true_eq] at hc
    exact ⟨{ s with now := u }, by simp only [runCoreOp, clockTo]; rw [if_pos hc.1], hc.2, rfl⟩

/-- What the core does completes where it can be followed (R193). -/
theorem runCoreOps_completes {l : List CoreOp} {s : State} (h : followable s s.now l) :
    ∃ t, runCoreOps l s = .next t ∧ t.now = clockAfter s.now l := by
  induction l generalizing s with
  | nil => exact ⟨s, rfl, rfl⟩
  | cons o rest ih =>
    obtain ⟨u, hu, hr, ha⟩ := runCoreOp_completes h
    have hm := (runCoreOp_eq_next hu).1
    obtain ⟨t, ht, hn⟩ := ih ⟨hr, fun q hq => coreOpFits_of_moved hm (h.2 q (List.mem_cons_of_mem _ hq))⟩
    exact ⟨t, by rw [runCoreOps, hu]; exact ht, by rw [hn, ha]⟩

/-- All one continuation does (R200): enabled, the clock reads t1, the ticks and the burst, the drain, the clock
reads t2, the branch. -/
theorem execCont_eq_next {t1 t2 : Time} {b : Burst} {s t : State} (h : execCont t1 b t2 s = .next t) :
    ∃ u, continuationEnabled t1 s = true ∧ s.now ≤ t1 ∧
      runCoreOps b.ops (enterBurst t1 { s with now := t1 }) = .next u ∧ u.now ≤ t2 ∧
      t = branchOn (classify u.params.status b.ending) { uartDrain b.drained u with now := t2 } := by
  unfold execCont at h
  split at h
  · obtain ⟨s1, h1, h⟩ := andThen_eq_next h
    obtain ⟨hn, rfl⟩ := clockTo_eq_next h1
    obtain ⟨u, h2, h⟩ := andThen_eq_next h
    obtain ⟨s3, h3, h⟩ := andThen_eq_next h
    obtain ⟨hn3, rfl⟩ := clockTo_eq_next h3
    refine ⟨u, ‹_›, hn, h2, hn3, ?_⟩
    cases h; rfl
  · cases h

/-- Entering the burst: the wake time is consumed, the core is called, and beyond that only ticks (R200 to R202). -/
theorem enterBurst_frame (t1 : Time) (s : State) :
    Frame { s with sched := { s.sched with wake := none }
                   coreCalls := s.coreCalls ++ [.run s.sched.cpu s.params.burstBudget] } (enterBurst t1 s) := by
  have f := frame_tickCatchUp t1 { s with sched := { s.sched with wake := none } }
  have hc : (enterBurst t1 s).coreCalls = s.coreCalls ++ [.run s.sched.cpu s.params.burstBudget] := by
    show _ ++ _ = _
    rw [f.coreCalls, f.cpu, f.params]
  exact ⟨⟨f.params, f.bus, f.inbox, hc, f.size, f.noMemory, f.state, f.wake, f.debugReq, f.cpu, f.regmap,
    f.generation, f.now, f.hostOut, f.returned⟩, f.queue⟩

theorem devices_enterBurst {s : State} (h : DevicesLegal s) (t1 : Time) : DevicesLegal (enterBurst t1 s) := by
  have := devices_tickCatchUp (s := { s with sched := { s.sched with wake := none } })
    ⟨h.queue, h.period, h.tone, h.toneHz, h.memory⟩ t1
  exact ⟨this.queue, this.period, this.tone, this.toneHz, this.memory⟩

/-- The four ends of a continuation as updates of the Scheduler and the host log (R205 to R209). -/
theorem branchOn_cases (c : StatusClass) (s : State) :
    (c = .exception ∧ branchOn c s = haltOnException s) ∨
    (c ≠ .exception ∧ (c = .debugTrap ∨ s.sched.debugReq = true) ∧ branchOn c s = debugPause s) ∨
    (c = .halt ∧ s.sched.debugReq = false ∧ branchOn c s = rearmAtNextTick s) ∨
    (c = .other ∧ s.sched.debugReq = false ∧ branchOn c s = rearmNow s) := by
  cases c <;> cases h : s.sched.debugReq <;> simp [branchOn, h]

@[simp] theorem isOutput_toMsg (o : Output) : o.toMsg.isOutput = true := by cases o <;> rfl

@[simp] theorem isReport_toMsg (r : Report) : r.toMsg.isReport = true := by
  rcases r with (_ | _) | _ <;> rfl

/-- A redraw adds reports to the host log, nothing else (R207, R213). -/
theorem redraw_hostOut (s : State) : ∃ l, (redraw s).hostOut = s.hostOut ++ l ∧ ∀ m ∈ l, m.isReport = true :=
  ⟨_, rfl, fun m hm => by obtain ⟨r, _, rfl⟩ := List.mem_map.1 hm; simp⟩

/-- The end of a continuation adds reports to the host log, nothing else (R205 to R209). -/
theorem branchOn_hostOut (c : StatusClass) (s : State) :
    ∃ l, (branchOn c s).hostOut = s.hostOut ++ l ∧ ∀ m ∈ l, m.isReport = true := by
  rcases branchOn_cases c s with ⟨_, h⟩ | ⟨_, _, h⟩ | ⟨_, _, h⟩ | ⟨_, _, h⟩ <;> rw [h]
  · refine ⟨(Config.dumpTexts s.fresh).map Msg.write ++ [.alert (Config.alertText s.fresh)], ?_, fun m hm => ?_⟩
    · simp [haltOnException]
    · simp only [List.mem_append, List.mem_map, List.mem_singleton] at hm
      rcases hm with ⟨_, _, rfl⟩ | rfl <;> rfl
  · exact redraw_hostOut _
  · exact ⟨[], by simp, by simp⟩
  · exact ⟨[], by simp, by simp⟩

end Sys2Proof.Machine
end

