-- ==== Sys2Proof/Laws/Exec.lean ====
section
/-! SUPPORT. What an operation can do to the machine as a whole, said once: the operations that stay within the
frame, and those of the Scheduler's commands that do not. -/

namespace Sys2Proof.Machine

open Sys2Proof

theorem forward_eq (p : Port) (d : Byte) (s : State) :
    forward p d s = { s with hostOut := s.hostOut ++ s.forwarded p d } := by
  unfold forward State.forwarded; split <;> simp [emit]

/-- The operations that stay within the frame: all but REGISTER and the Scheduler's commands. -/
def quiet : Instr → Bool
  | .register _ _ _ _ => false
  | .start _ _ _ _ => false
  | .run _ => false
  | .cont _ _ _ => false
  | .resetCmd _ => false
  | .stepCmd _ _ => false
  | .stepOver _ _ => false
  | .breakCmd => false
  | .continueCmd => false
  | .debugCmd _ => false
  | _ => true

theorem frame_icw {s : State} {k : Ctrl} {c : Controller} (p : Port) (d : Byte) :
    Frame s (forward p d { s with pic := s.pic.setCtrl k c }) :=
  (frame_pic (extends_setCtrl _ _ _)).trans (frame_forward _ _ _)

/-- A next state of a quiet operation but DEQUEUEIRQ, the one with a trap point, is within the frame. -/
theorem frame_of_quiet {i : Instr} {s t : State} (hq : quiet i = true) (hd : i ≠ .dequeueIrq)
    (h : exec i s = .next t) : Frame s t := by
  cases i <;> simp only [quiet, Bool.false_eq_true] at hq
  case inb p => exact frame_ioReadReply h
  case inw p => exact frame_ioReadReply h
  case ind p => exact frame_ioReadReply h
  case outb p v => exact frame_ioWrite (w := .byte) h
  case outw p v => exact frame_ioWrite (w := .word) h
  case outd p v => exact frame_ioWrite (w := .dword) h
  case picIcw1 k d =>
    simp only [exec, execPicIcw1] at h
    split_ifs at h; cases h; exact frame_icw _ _
  case picIcw2 k d =>
    simp only [exec, execPicIcw2] at h
    split_ifs at h; cases h; exact frame_icw _ _
  case picIcw3 k d =>
    simp only [exec, execPicIcw3] at h
    split_ifs at h; cases h; exact frame_icw _ _
  case picIcw4 k d =>
    simp only [exec, execPicIcw4] at h
    split_ifs at h; cases h; exact frame_icw _ _
  case picOcw1 k d =>
    simp only [exec, execPicOcw1] at h
    split_ifs at h; cases h
    exact (frame_pic ((extends_setCtrl _ _ _).trans (extends_arbitrate _))).trans (frame_forward _ _ _)
  case picEoi k x => cases h; exact (frame_pic (extends_retire _ _ _)).trans (frame_forward _ _ _)
  case picSeoi k x => cases h; exact (frame_pic (extends_retire _ _ _)).trans (frame_forward _ _ _)
  case picNopCmd k d =>
    simp only [exec, execPicNopCmd] at h
    split_ifs at h; cases h; exact frame_forward _ _ _
  case picRdImr k => cases h; exact frame_reply _ _
  case picRdCmd k => cases h; exact (frame_useFresh s).trans (frame_reply _ _)
  case pitCtrl sc rw m b =>
    simp only [exec, execPitCtrl] at h
    split_ifs at h; cases h; exact (frame_pitCtrlEffect _ _ _).trans (frame_forward _ _ _)
  case pitLatch sc x => cases h; exact frame_forward _ _ _
  case pitRdback x => cases h; exact frame_forward _ _ _
  case pitRdCtrl => cases h; exact frame_reply _ _
  case pitLdLo c d =>
    simp only [exec, execPitLdLo] at h
    split_ifs at h; cases h; exact (frame_ldLoEffect _ _ _).trans (frame_forward _ _ _)
  case pitLdHi c d =>
    simp only [exec, execPitLdHi] at h
    split_ifs at h; cases h; exact (frame_ldHiEffect _ _ _).trans (frame_forward _ _ _)
  case pitRd c => cases h; exact (frame_useFresh s).trans (frame_reply _ _)
  case spkWr d => cases h; exact (frame_spkWrEffect _ _).trans (frame_forward _ _ _)
  case spkRd => cases h; exact (frame_useFresh s).trans (frame_reply _ _)
  case arbitrate => cases h; exact frame_pic (extends_arbitrate _)
  case raiseIrq n c =>
    simp only [exec, execRaiseIrq] at h
    split_ifs at h; cases h; exact frame_pic (extends_raise _ _ _)
  case clearIrq n =>
    simp only [exec, execClearIrq] at h
    split_ifs at h; cases h; exact frame_pic (extends_clear _ _)
  case dequeueIrq => exact absurd rfl hd
  case setPeriod ms =>
    simp only [exec, execSetPeriod] at h
    split_ifs at h; cases h; exact frame_setPeriodOp _ _
  case clearPeriod => cases h; exact frame_clearPeriodOp _
  case memRead a n =>
    simp only [exec, execMemRead] at h
    split_ifs at h; cases h; exact frame_reply _ _
  case memWrite a l => exact frame_memWriteOp h
  case nmi => cases h
  case key => cases h; exact (frame_useFresh s).trans (frame_raiseEach _ _)
  case pointer => cases h; exact (frame_useFresh s).trans (frame_raiseEach _ _)
  case attach => cases h; exact (frame_useFresh s).trans (frame_raiseEach _ _)

/-- A next state of a quiet operation leaves alone what everything inside a burst does. -/
theorem stays_of_quiet {i : Instr} {s t : State} (hq : quiet i = true) (h : exec i s = .next t) : Stays s t := by
  by_cases hd : i = .dequeueIrq
  · subst hd; cases h; exact stays_trapPoint _
  · exact (frame_of_quiet hq hd h).toStays

theorem devices_icw {s : State} (h : DevicesLegal s) {k : Ctrl} {c : Controller} (p : Port) (d : Byte) :
    DevicesLegal (forward p d { s with pic := s.pic.setCtrl k c }) :=
  devices_forward (devices_queue h (by simpa using h.queue)) _ _

/-- A next state of a quiet operation has legal devices, if SETPERIOD is presented within its range. -/
theorem devices_of_quiet {i : Instr} {s t : State} (d : DevicesLegal s) (hq : quiet i = true)
    (hp : ∀ ms, i = .setPeriod ms → ms ≤ 55) (h : exec i s = .next t) : DevicesLegal t := by
  cases i <;> simp only [quiet, Bool.false_eq_true] at hq
  case inb p => exact devices_ioReadReply d h
  case inw p => exact devices_ioReadReply d h
  case ind p => exact devices_ioReadReply d h
  case outb p v => exact devices_ioWrite (w := .byte) d h
  case outw p v => exact devices_ioWrite (w := .word) d h
  case outd p v => exact devices_ioWrite (w := .dword) d h
  case picIcw1 k b =>
    simp only [exec, execPicIcw1] at h
    split_ifs at h; cases h; exact devices_icw d _ _
  case picIcw2 k b =>
    simp only [exec, execPicIcw2] at h
    split_ifs at h; cases h; exact devices_icw d _ _
  case picIcw3 k b =>
    simp only [exec, execPicIcw3] at h
    split_ifs at h; cases h; exact devices_icw d _ _
  case picIcw4 k b =>
    simp only [exec, execPicIcw4] at h
    split_ifs at h; cases h; exact devices_icw d _ _
  case picOcw1 k b =>
    simp only [exec, execPicOcw1] at h
    split_ifs at h; cases h
    exact devices_forward (devices_queue d (arbitrate_vectorMatchesLine (by simpa using d.queue))) _ _
  case picEoi k x =>
    cases h; exact devices_forward (devices_queue d (arbitrate_vectorMatchesLine (by simpa using d.queue))) _ _
  case picSeoi k x =>
    cases h; exact devices_forward (devices_queue d (arbitrate_vectorMatchesLine (by simpa using d.queue))) _ _
  case picNopCmd k b =>
    simp only [exec, execPicNopCmd] at h
    split_ifs at h; cases h; exact devices_forward d _ _
  case picRdImr k => cases h; exact devices_reply d _
  case picRdCmd k => cases h; exact devices_reply (devices_useFresh d) _
  case pitCtrl sc rw m b =>
    simp only [exec, execPitCtrl] at h
    split_ifs at h; cases h; exact devices_forward (devices_pitCtrlEffect d _ _) _ _
  case pitLatch sc x => cases h; exact devices_forward d _ _
  case pitRdback x => cases h; exact devices_forward d _ _
  case pitRdCtrl => cases h; exact devices_reply d _
  case pitLdLo c b =>
    simp only [exec, execPitLdLo] at h
    split_ifs at h; cases h; exact devices_forward (devices_setChannel d _ _) _ _
  case pitLdHi c b =>
    simp only [exec, execPitLdHi] at h
    split_ifs at h; cases h; exact devices_forward (devices_ldHiEffect d _ _) _ _
  case pitRd c => cases h; exact devices_reply (devices_useFresh d) _
  case spkWr b => cases h; exact devices_forward (devices_spkWrEffect d _) _ _
  case spkRd => cases h; exact devices_reply (devices_useFresh d) _
  case arbitrate => cases h; exact devices_queue d (arbitrate_vectorMatchesLine d.queue)
  case raiseIrq n c =>
    simp only [exec, execRaiseIrq] at h
    split_ifs at h; cases h; exact devices_queue d (raise_vectorMatchesLine _ _ d.queue)
  case clearIrq n =>
    simp only [exec, execClearIrq] at h
    split_ifs at h; cases h; exact devices_queue d d.queue
  case dequeueIrq => cases h; exact devices_trapPoint d
  case setPeriod ms =>
    simp only [exec, execSetPeriod] at h
    split_ifs at h; cases h
    refine ⟨d.queue, ?_, d.tone, d.toneHz, d.memory⟩
    intro p e
    have hms : ms = p := by simpa [setPeriodOp] using e
    have := hp ms rfl
    omega
  case clearPeriod =>
    cases h
    exact ⟨d.queue, fun p e => by simp [clearPeriodOp] at e, d.tone, d.toneHz, d.memory⟩
  case memRead a n =>
    simp only [exec, execMemRead] at h
    split_ifs at h; cases h; exact devices_reply d _
  case memWrite a l => exact devices_memWriteOp d h
  case nmi => cases h
  case key => cases h; exact devices_raiseEach (devices_useFresh d) _
  case pointer => cases h; exact devices_raiseEach (devices_useFresh d) _
  case attach => cases h; exact devices_raiseEach (devices_useFresh d) _

/-- A step of the core past its check: the activity after the recorded calls, then the redraw (R213, R214). -/
theorem stepCore_eq_next {cs : List CoreCall} {ops : List CoreOp} {s t : State} (h : stepCore cs ops s = .next t) :
    paused s = true ∧ ∃ u, runCoreOps ops (callCoreAll cs s) = .next u ∧ t = redraw u := by
  unfold stepCore at h
  split_ifs at h with hp
  obtain ⟨u, hu, h⟩ := andThen_eq_next h
  cases h
  exact ⟨hp, u, hu, rfl⟩

/-- The calls of a step over: the instruction's length is asked, then one step, or a run to a breakpoint behind it
(R214, log 35). -/
theorem stepOverCalls_cases (s : State) : ∃ seg off,
    stepOverCalls s = [.disassemble s.sched.cpu seg off 1, .step s.sched.cpu] ∨
    ∃ len, stepOverCalls s = [.disassemble s.sched.cpu seg off 1, .setBreakpoint s.sched.cpu seg (off + len),
      .run s.sched.cpu s.params.burstBudget] := by
  unfold stepOverCalls
  cases Config.atConstruct s.fresh
  · exact ⟨_, _, .inl rfl⟩
  · exact ⟨_, _, .inr ⟨_, rfl⟩⟩

/-- The firmware load past its check (R195, R212). -/
theorem loadFirmware_eq_next {s t : State} (h : loadFirmware s = .next t) :
    s.mem.inRegion s.params.firmwareOrigin s.params.firmware.length = true ∧
      t = guestWrite s.params.firmwareOrigin s.params.firmware s :=
  memWriteOp_eq_next h

end Sys2Proof.Machine
end

