-- ==== Sys2Proof/Laws/PerInstr.lean ====
section
/-! SUPPORT. A law of every operation as syntax: where it has an encoding, its word is a bus transaction, and the
transaction's own word is that word (30_encoding R81, R82, R96). -/

namespace Sys2Proof.Laws.WordIsTransaction

open Sys2Proof

/-- The word of the operation, if it has one, is a bus transaction whose word is the same. -/
def Statement (i : Instr) : Prop :=
  ∀ (ports : Ports) (tw : TransactionWord), encode ports i = some tw →
    ∃ b, decodeBus tw = .ok b ∧ encode ports b = some tw

theorem of_read {i : Instr} (wc : BitVec 2) (hw : wc = 0 ∨ wc = 1 ∨ wc = 2) (p : Ports → Port)
    (h : ∀ ports, encode ports i = some (packWord false wc (p ports) 0)) : Statement i := by
  intro ports tw e
  rw [h, Option.some.injEq] at e
  subst e
  rcases hw with rfl | rfl | rfl <;>
    simp only [decodeBus, twWidthCode_packWord, twIsWrite_packWord, twPort_packWord, widthOfCode] <;>
    exact ⟨_, rfl, rfl⟩

theorem of_write {i : Instr} (wc : BitVec 2) (hw : wc = 0 ∨ wc = 1 ∨ wc = 2) (p : Ports → Port) (d : DWord)
    (h : ∀ ports, encode ports i = some (packWord true wc (p ports) d)) : Statement i := by
  intro ports tw e
  rw [h, Option.some.injEq] at e
  subst e
  rcases hw with rfl | rfl | rfl <;>
    simp only [decodeBus, twWidthCode_packWord, twIsWrite_packWord, twPort_packWord, twData_packWord,
      widthOfCode] <;>
    exact ⟨_, rfl, rfl⟩

theorem of_none {i : Instr} (h : ∀ ports, encode ports i = none) : Statement i := by
  intro ports tw e
  rw [h] at e; cases e

theorem inb (port : Port) :
    Statement (.inb port) := of_read 0 (by decide) (fun _ => port) fun _ => rfl

theorem inw (port : Port) :
    Statement (.inw port) := of_read 1 (by decide) (fun _ => port) fun _ => rfl

theorem ind (port : Port) :
    Statement (.ind port) := of_read 2 (by decide) (fun _ => port) fun _ => rfl

theorem outb (port : Port) (value : DWord) :
    Statement (.outb port value) := of_write 0 (by decide) (fun _ => port) _ fun _ => rfl

theorem outw (port : Port) (value : DWord) :
    Statement (.outw port value) := of_write 1 (by decide) (fun _ => port) _ fun _ => rfl

theorem outd (port : Port) (value : DWord) :
    Statement (.outd port value) := of_write 2 (by decide) (fun _ => port) _ fun _ => rfl

theorem picIcw1 (k : Ctrl) (d : Byte) :
    Statement (.picIcw1 k d) := of_write 0 (by decide) (fun s => s.picCmd k) _ fun _ => rfl

theorem picIcw2 (k : Ctrl) (d : Byte) :
    Statement (.picIcw2 k d) := of_write 0 (by decide) (fun s => s.picData k) _ fun _ => rfl

theorem picIcw3 (k : Ctrl) (d : Byte) :
    Statement (.picIcw3 k d) := of_write 0 (by decide) (fun s => s.picData k) _ fun _ => rfl

theorem picIcw4 (k : Ctrl) (d : Byte) :
    Statement (.picIcw4 k d) := of_write 0 (by decide) (fun s => s.picData k) _ fun _ => rfl

theorem picOcw1 (k : Ctrl) (d : Byte) :
    Statement (.picOcw1 k d) := of_write 0 (by decide) (fun s => s.picData k) _ fun _ => rfl

theorem picEoi (k : Ctrl) (ignored : BitVec 3) :
    Statement (.picEoi k ignored) := of_write 0 (by decide) (fun s => s.picCmd k) _ fun _ => rfl

theorem picSeoi (k : Ctrl) (line : BitVec 3) :
    Statement (.picSeoi k line) := of_write 0 (by decide) (fun s => s.picCmd k) _ fun _ => rfl

theorem picNopCmd (k : Ctrl) (d : Byte) :
    Statement (.picNopCmd k d) := of_write 0 (by decide) (fun s => s.picCmd k) _ fun _ => rfl

theorem picRdImr (k : Ctrl) :
    Statement (.picRdImr k) := of_read 0 (by decide) (fun s => s.picData k) fun _ => rfl

theorem picRdCmd (k : Ctrl) :
    Statement (.picRdCmd k) := of_read 0 (by decide) (fun s => s.picCmd k) fun _ => rfl

theorem pitCtrl (sc : Chan) (rw : BitVec 2) (mode : BitVec 3) (bcd : BitVec 1) :
    Statement (.pitCtrl sc rw mode bcd) := of_write 0 (by decide) (fun s => s.pitCtrl) _ fun _ => rfl

theorem pitLatch (sc : Chan) (ignored : BitVec 4) :
    Statement (.pitLatch sc ignored) := of_write 0 (by decide) (fun s => s.pitCtrl) _ fun _ => rfl

theorem pitRdback (ignored : BitVec 6) :
    Statement (.pitRdback ignored) := of_write 0 (by decide) (fun s => s.pitCtrl) _ fun _ => rfl

theorem pitRdCtrl :
    Statement .pitRdCtrl := of_read 0 (by decide) (fun s => s.pitCtrl) fun _ => rfl

theorem pitLdLo (c : Chan) (d : Byte) :
    Statement (.pitLdLo c d) := of_write 0 (by decide) (fun s => s.pitChan c) _ fun _ => rfl

theorem pitLdHi (c : Chan) (d : Byte) :
    Statement (.pitLdHi c d) := of_write 0 (by decide) (fun s => s.pitChan c) _ fun _ => rfl

theorem pitRd (c : Chan) :
    Statement (.pitRd c) := of_read 0 (by decide) (fun s => s.pitChan c) fun _ => rfl

theorem spkWr (d : Byte) :
    Statement (.spkWr d) := of_write 0 (by decide) (fun _ => Config.speakerPort) _ fun _ => rfl

theorem spkRd :
    Statement .spkRd := of_read 0 (by decide) (fun _ => Config.speakerPort) fun _ => rfl

theorem register (port : Port) (w : Width) (wr : Option WriteHandler) (rd : Option ReadHandler) :
    Statement (.register port w wr rd) := of_none fun _ => rfl

theorem arbitrate :
    Statement .arbitrate := of_none fun _ => rfl

theorem raiseIrq (n : Nat) (count : Nat) :
    Statement (.raiseIrq n count) := of_none fun _ => rfl

theorem clearIrq (n : Nat) :
    Statement (.clearIrq n) := of_none fun _ => rfl

theorem dequeueIrq :
    Statement .dequeueIrq := of_none fun _ => rfl

theorem setPeriod (ms : Nat) :
    Statement (.setPeriod ms) := of_none fun _ => rfl

theorem clearPeriod :
    Statement .clearPeriod := of_none fun _ => rfl

theorem memRead (addr : Nat) (n : Nat) :
    Statement (.memRead addr n) := of_none fun _ => rfl

theorem memWrite (addr : Nat) (bytes : List Byte) :
    Statement (.memWrite addr bytes) := of_none fun _ => rfl

theorem start (memoryKB : Nat) (redirectMap : Vector DWord 2048) (generation : Nat) (imageName : Option String) :
    Statement (.start memoryKB redirectMap generation imageName) := of_none fun _ => rfl

theorem run (generation : Nat) :
    Statement (.run generation) := of_none fun _ => rfl

theorem cont (t1 : Time) (burst : Burst) (t2 : Time) :
    Statement (.cont t1 burst t2) := of_none fun _ => rfl

theorem resetCmd (generation : Nat) :
    Statement (.resetCmd generation) := of_none fun _ => rfl

theorem stepCmd (ops : List CoreOp) (ending : BurstEnd) :
    Statement (.stepCmd ops ending) := of_none fun _ => rfl

theorem stepOver (ops : List CoreOp) (ending : BurstEnd) :
    Statement (.stepOver ops ending) := of_none fun _ => rfl

theorem breakCmd :
    Statement .breakCmd := of_none fun _ => rfl

theorem continueCmd :
    Statement .continueCmd := of_none fun _ => rfl

theorem debugCmd (command : DebugCommand) :
    Statement (.debugCmd command) := of_none fun _ => rfl

theorem nmi :
    Statement .nmi := of_none fun _ => rfl

theorem key (kind : String) (code : String) (keyCode : Nat) (ctrlKey : Bool) (altKey : Bool) :
    Statement (.key kind code keyCode ctrlKey altKey) := of_none fun _ => rfl

theorem pointer (move : Option (Int × Int)) (button : Option Nat) (pressed : Option Bool) :
    Statement (.pointer move button pressed) := of_none fun _ => rfl

theorem attach (image : List Byte) :
    Statement (.attach image) := of_none fun _ => rfl

end Sys2Proof.Laws.WordIsTransaction
end

