-- ==== Sys2Proof/Tests/Slice0.lean ====
section
/-! SUPPORT. The model's own tests: ill-formed terms that the checks refuse, words written out from 30_encoding and
opcode_table.json, single steps whose expected values are those of 95_test_vectors (its number in the docstring), and
a witness for the hypotheses of each obligation that has some. -/

namespace Sys2Proof.Tests

open Sys2Proof Sys2Proof.Machine

/- The theorems are elaborated in turn: each waits for the kernel, and a hundred waiting at once take a thread each. -/
set_option Elab.async false

/-! ### Well-formedness -/

theorem test_wf_icw1_needs_bit4 : Instr.wellFormed (.picIcw1 .master 0x01) = false := by decide

theorem test_wf_nop_is_no_eoi : Instr.wellFormed (.picNopCmd .master 0x20) = false := by decide

theorem test_wf_nop_is_no_icw1 : Instr.wellFormed (.picNopCmd .slave 0x30) = false := by decide

theorem test_wf_pit_ctrl_is_no_latch : Instr.wellFormed (.pitCtrl .ch0 0 3 0) = false := by decide

theorem test_wf_own_handlers_are_byte_wide :
    Instr.wellFormed (.register 0x20 .word (some (.picCmd .master)) none) = false ∧
    Instr.wellFormed (.register 0x61 .dword none (some .speaker)) = false := by decide

theorem test_wf_raise_line_in_range : Instr.wellFormed (.raiseIrq 16 1) = false := by decide

theorem test_wf_raise_count_positive : Instr.wellFormed (.raiseIrq 3 0) = false := by decide

theorem test_wf_clear_line_in_range : Instr.wellFormed (.clearIrq 16) = false := by decide

theorem test_wf_period_positive : Instr.wellFormed (.setPeriod 0) = false := by decide

theorem test_wf_burst_clock_rises :
    Instr.wellFormed (.cont 4 ⟨[.clock 5, .clock 4], .threw, []⟩ 9) = false ∧
    Instr.wellFormed (.cont 4 ⟨[.clock 5], .threw, []⟩ 4) = false := by decide +kernel

/-! ### Decoding: words written out from the match column, one at least for each constructor that has one -/

/-- A decoding context with the given phases, otherwise as at power-on. -/
def ctxAt (pic : Fin 4) (pit : Fin 2) : DecodeCtx :=
  { DecodeCtx.powerOn with picPhase := fun _ => pic, pitPhase := fun _ => pit }

/-- 95_test_vectors A1, B1.2, B1.3. -/
theorem test_decode_bus :
    decode .powerOn 0x0030000000000 = .ok (.inb 0x300) ∧
    decode .powerOn 0x1002100000000 = .ok (.inw 0x21) ∧
    decode .powerOn 0x2004000000000 = .ok (.ind 0x40) ∧
    decode .powerOn 0x4030000000055 = .ok (.outb 0x300 0x55) ∧
    decode .powerOn 0x503FF0000BEEF = .ok (.outw 0x3FF 0xBEEF) ∧
    decode .powerOn 0x6002000000011 = .ok (.outd 0x20 0x11) := by decide +kernel

/-- 95_test_vectors A4, B2.1, B2.4, B2.5, B2.11, Program 1. -/
theorem test_decode_pic :
    decode .powerOn 0x4002000000015 = .ok (.picIcw1 .master 0x15) ∧
    decode (ctxAt 1 0) 0x400A100000070 = .ok (.picIcw2 .slave 0x70) ∧
    decode (ctxAt 2 0) 0x4002100000004 = .ok (.picIcw3 .master 0x04) ∧
    decode (ctxAt 3 0) 0x4002100000001 = .ok (.picIcw4 .master 0x01) ∧
    decode (ctxAt 0 0) 0x400A1000000EF = .ok (.picOcw1 .slave 0xEF) ∧
    decode .powerOn 0x4002000000027 = .ok (.picEoi .master 7) ∧
    decode .powerOn 0x400A000000065 = .ok (.picSeoi .slave 5) ∧
    decode .powerOn 0x4002000000028 = .ok (.picNopCmd .master 0x28) ∧
    decode .powerOn 0x4002000000030 = .ok (.picIcw1 .master 0x30) ∧
    decode .powerOn 0x000A100000000 = .ok (.picRdImr .slave) ∧
    decode .powerOn 0x0002000000000 = .ok (.picRdCmd .master) := by decide +kernel

/-- 95_test_vectors B1.2, B3.1, B3.2, B3.8. -/
theorem test_decode_pit :
    decode .powerOn 0x4004300000036 = .ok (.pitCtrl .ch0 3 3 0) ∧
    decode .powerOn 0x4004300000054 = .ok (.pitCtrl .ch1 1 2 0) ∧
    decode .powerOn 0x4004300000080 = .ok (.pitLatch .ch2 0) ∧
    decode .powerOn 0x40043000000C2 = .ok (.pitRdback 2) ∧
    decode .powerOn 0x0004300000000 = .ok .pitRdCtrl ∧
    decode (ctxAt 0 0) 0x40042000000A9 = .ok (.pitLdLo .ch2 0xA9) ∧
    decode (ctxAt 0 1) 0x4004200000004 = .ok (.pitLdHi .ch2 0x04) ∧
    decode .powerOn 0x0004100000000 = .ok (.pitRd .ch1) ∧
    decode .powerOn 0x4006100000003 = .ok (.spkWr 0x03) ∧
    decode .powerOn 0x0006100000000 = .ok .spkRd := by decide +kernel

/-- 95_test_vectors B1.2: the data field of a byte write is masked. -/
theorem test_decode_masks_byte : decode .powerOn 0x40021000001FB = .ok (.picOcw1 .master 0xFB) := by
  decide +kernel

theorem test_decode_rejects_width_three : decode .powerOn 0x7002000000000 = .error .widthCodeThree := by
  decide +kernel

theorem test_table_word : decodeTableWord 56 0x4002000000064 = some (.picSeoi .master 4) := by decide +kernel

theorem test_table_word_too_long : decodeTableWord 56 0x8000000000000 = none := by decide +kernel

/-! ### States and helpers -/

/-- Concrete parameters: the default ports, and values of the tests' own for what the spec leaves open. -/
def params : Params where
  ports := Config.defaultPorts
  status := ⟨100, 10, 19, 20, 29⟩
  burstBudget := 1000
  firmware := [0xEA, 0x5B]
  firmwareOrigin := 16
  memOrigin := 4

/-- Power-on with `PIC_RESET_IMR = 0xFF`. -/
def base : State := .powerOn params 0xFF

/-- Both controllers initialised as in 95_test_vectors Program 1, with the given masks. -/
def ready (master slave : Byte) : State :=
  { base with pic := { base.pic with
      master := ⟨0, 0x11, 0x08, 0x04, 0x01, master, 0⟩
      slave := ⟨0, 0x11, 0x70, 0x02, 0x01, slave, 0⟩ } }

/-- `ready` with master in-service bits. -/
def serving (master isr : Byte) : State :=
  { ready master 0xFF with pic := { (ready master 0xFF).pic with
      master := ⟨0, 0x11, 0x08, 0x04, 0x01, master, isr⟩ } }

/-- `s` with one pending count set. -/
def pendAt (n : Fin 16) (v : Nat) (s : State) : State := { s with pic := s.pic.setPending n v }

/-- `s` with the given ready queue. -/
def queued (l : List QueueEntry) (s : State) : State := { s with pic := { s.pic with queue := l } }

/-- `s` with the given redirected ports. -/
def flagged (l : List Nat) (s : State) : State := { s with bus := { s.bus with redirect := l } }

/-- `s` in a session: the given Scheduler state and wake time, a CPU handle, 640 KiB of memory. -/
def session (state : SchedState) (wake : Option Time) (s : State) : State :=
  { s with
    sched := { s.sched with state := state, wake := wake, cpu := some 1, generation := 1 }
    mem := ⟨655360, []⟩ }

/-- `s` with a period and a last tick. -/
def ticking (period : Option Nat) (lastTick : Time) (s : State) : State :=
  { s with sched := { s.sched with period := period, lastTick := lastTick } }

/-- `s` with the debug request set. -/
def breaking (s : State) : State := { s with sched := { s.sched with debugReq := true } }

/-- `s` with PIT channel c as given. -/
def withChan (c : Chan) (v : Channel) (s : State) : State := { s with pit := s.pit.setChan c v }

/-- A fact about the next state, none where there is none. -/
def after {α : Type} (r : Result) (f : State → α) : Option α :=
  match r with
  | .next t => some (f t)
  | .fault _ => none
  | .refused _ => none

/-- The refusal an operation ends in, if any. -/
def refusal (r : Result) : Option Refusal :=
  match r with
  | .next _ => none
  | .fault _ => none
  | .refused e => some e

/-- The operations of a list, one after another. -/
def execAll (l : List Instr) (s : State) : Result :=
  match l with
  | [] => .next s
  | i :: rest => andThen (exec i s) (execAll rest)

/-! ### Single steps: the bus -/

/-- A1. -/
theorem test_inb_unmapped : after (exec (.inb 0x300) base) (·.returned) = some [.data .byte 0xFF] := by decide +kernel

/-- B1.2: no read handler at the PIT control port. -/
theorem test_inb_pit_control : after (exec (.inb 0x43) base) (·.returned) = some [.data .byte 0xFF] := by
  decide +kernel

/-- B1.3. -/
theorem test_inw_fallback : after (exec (.inw 0x21) (ready 0xFB 0xFF)) (·.returned) = some [.data .word 0xFFFB] := by
  decide +kernel

/-- B1.3, no fallback from port 1024 on. -/
theorem test_inw_above_limit : after (exec (.inw 0x400) base) (·.returned) = some [.data .word 0xFFFF] := by
  decide +kernel

/-- B1.4. -/
theorem test_ind_never_split :
    after (exec (.ind 0x40) base) (·.returned) = some [.data .dword 0xFFFFFFFF] := by decide +kernel

/-- B1.5. -/
theorem test_outb_handler_and_redirect :
    after (exec (.outb 0x21 0xFE) (flagged [0x21] (ready 0xFF 0xFF))) (fun t => (t.pic.master.imr, t.hostOut)) =
      some (0xFE, [.outb 0x21 0xFE]) := by decide +kernel

/-- B1.2: the handler gets the masked value. -/
theorem test_outb_masks : after (exec (.outb 0x21 0x1FB) base) (·.pic.master.imr) = some 0xFB := by decide +kernel

/-- B1.3: the high byte goes to the next port. -/
theorem test_outw_fallback :
    after (exec (.outw 0x40 0x2E9B) base) (fun t => (t.pit.ch0, t.pit.ch1, t.sched.period)) =
      some (⟨0x009B, 1, 0⟩, ⟨0x002E, 1, 0⟩, none) := by decide +kernel

/-- B1.3: the last port of the fallback and the first above it. -/
theorem test_outw_limit :
    after (exec (.outw 0x3FF 0xBEEF) (flagged [0x3FF, 0x400] base)) (·.hostOut) =
      some [.outb 0x3FF 0xEF, .outb 0x400 0xBE] ∧
    after (exec (.outw 0x400 0x1234) (flagged [0x3FF, 0x400] base)) (·.hostOut) = some [] := by decide +kernel

/-- B1.4, A1. -/
theorem test_outd_never_split :
    after (exec (.outd 0x20 0x11) (flagged [0x20] base)) (fun t => (t.pic.master.phase, t.hostOut)) =
      some (0, []) := by decide +kernel

/-- B1.1. -/
theorem test_register_occupied :
    refusal (exec (.register 0x61 .byte (some (.other 2)) none) base) = some (.configError 0x61 .byte) := by decide +kernel

/-- B1.1: another width of the same port is another slot. -/
theorem test_register_other_width :
    after (exec (.register 0x61 .word (some (.other 2)) none) base)
      (fun t => (t.bus.wrH .word 0x61, t.bus.wrH .byte 0x61)) = some (some (.other 2), some .speaker) := by
  decide +kernel

/-! ### Single steps: the PIC -/

/-- B2.4. -/
theorem test_icw1 :
    after (exec (.picIcw1 .master 0x15) (pendAt 3 2 (queued [⟨.master, 1, 0x09⟩] (serving 0x00 0x40))))
      (fun t => (t.pic.master, t.pic.pending 3, t.pic.queue)) =
      some (⟨1, 0x15, 0x08, 0x04, 0x01, 0x00, 0x00⟩, 2, [⟨.master, 1, 0x09⟩]) := by decide +kernel

/-- B2.1: the sequence, `imr` kept. -/
theorem test_icw2_icw3_icw4 :
    after (execAll [.picIcw1 .master 0x11, .picIcw2 .master 0x08, .picIcw3 .master 0x04, .picIcw4 .master 0x01] base)
      (·.pic.master) = some ⟨0, 0x11, 0x08, 0x04, 0x01, 0xFF, 0⟩ := by decide +kernel

/-- Program 1: the slave's words. -/
theorem test_icw_slave :
    after (execAll [.picIcw1 .slave 0x11, .picIcw2 .slave 0x70, .picIcw3 .slave 0x02, .picIcw4 .slave 0x01] base)
      (·.pic.slave) = some ⟨0, 0x11, 0x70, 0x02, 0x01, 0xFF, 0⟩ := by decide +kernel

/-- A2, order 1, step 3. -/
theorem test_ocw1_one_winner :
    after (exec (.picOcw1 .master 0xDB) (pendAt 5 1 (pendAt 2 1 (ready 0xFF 0xFF))))
      (fun t => (t.pic.queue, t.pic.pending 2, t.pic.pending 5)) = some ([⟨.master, 2, 0x0A⟩], 0, 1) := by
  decide +kernel

/-- B2.6, step 3: the slave's line 0 before the master's line 3. -/
theorem test_ocw1_cascade :
    after (exec (.picOcw1 .master 0x00) (pendAt 3 1 (pendAt 12 1 (pendAt 8 1 (ready 0xFF 0x00)))))
      (·.pic.queue) = some [⟨.slave, 0, 0x70⟩] := by decide +kernel

/-- A4, second half. -/
theorem test_eoi_lowest :
    after (exec (.picEoi .master 7) (serving 0xFF 0x08)) (·.pic.master.isr) = some 0x00 ∧
    after (exec (.picEoi .master 0) (serving 0xFF 0x22)) (·.pic.master.isr) = some 0x20 := by decide +kernel

/-- A4, first half, step 4. -/
theorem test_eoi_arbitrates :
    after (exec (.picEoi .master 0) (pendAt 0 1 (serving 0xFE 0x01)))
      (fun t => (t.pic.master.isr, t.pic.pending 0, t.pic.queue)) = some (0x00, 0, [⟨.master, 0, 0x08⟩]) := by
  decide +kernel

/-- A4, second half. -/
theorem test_seoi_named_line :
    after (exec (.picSeoi .master 5) (serving 0xFF 0x28)) (·.pic.master.isr) = some 0x08 ∧
    after (exec (.picSeoi .master 2) (serving 0xFF 0x08)) (·.pic.master.isr) = some 0x08 := by decide +kernel

/-- B2.11. -/
theorem test_seoi_arbitrates :
    after (exec (.picSeoi .master 4) (pendAt 4 2 (serving 0x00 0x10)))
      (fun t => (t.pic.master.isr, t.pic.pending 4, t.pic.queue)) = some (0x00, 1, [⟨.master, 4, 0x0C⟩]) := by
  decide +kernel

/-- B2.5. -/
theorem test_nopcmd : after (exec (.picNopCmd .master 0x28) (serving 0xFF 0x28)) (·.pic.master.isr) = some 0x28 := by
  decide +kernel

/-- Program 1. -/
theorem test_rdimr : after (exec (.picRdImr .slave) (ready 0xFA 0xEF)) (·.returned) = some [.data .byte 0xEF] := by
  decide +kernel

/-- B1.2: any byte; the controller is not touched. -/
theorem test_rdcmd : after (exec (.picRdCmd .master) (ready 0xFA 0xEF)) (fun t => (t.pic.master.imr, t.returned.length)) =
    some (0xFA, 1) := by decide +kernel

/-- B2.7: master IMR bit 2 gates the slave. -/
theorem test_arbitrate_gate :
    after (exec .arbitrate (pendAt 12 1 (ready 0x04 0x00))) (·.pic.queue) = some [] ∧
    after (exec .arbitrate (pendAt 12 1 (ready 0x00 0x00))) (·.pic.queue) = some [⟨.slave, 4, 0x74⟩] := by
  decide +kernel

/-- B2.11. -/
theorem test_raise_count :
    after (exec (.raiseIrq 4 3) (ready 0x00 0xFF)) (fun t => (t.pic.pending 4, t.pic.queue)) =
      some (2, [⟨.master, 4, 0x0C⟩]) := by decide +kernel

/-- B2.17. -/
theorem test_raise_domain :
    refusal (exec (.raiseIrq 16 1) base) = some .lineOutOfRange ∧ refusal (exec (.raiseIrq 3 0) base) = some .countNotPositive := by
  decide +kernel

/-- B2.12. -/
theorem test_clear_keeps_queue :
    after (exec (.clearIrq 0) (pendAt 0 2 (queued [⟨.master, 0, 0x08⟩] (ready 0xFF 0xFF))))
      (fun t => (t.pic.pending 0, t.pic.queue)) = some (0, [⟨.master, 0, 0x08⟩]) := by decide +kernel

/-- B2.13: the vector of arbitration time, after the base has changed. -/
theorem test_dequeue_stale_vector :
    after (exec .dequeueIrq (queued [⟨.master, 6, 0x26⟩] (ready 0x00 0xFF)))
      (fun t => (t.returned, t.pic.master.isr, t.pic.queue)) = some ([.vector 0x26], 0x40, []) := by decide +kernel

/-- B2.16. -/
theorem test_dequeue_empty :
    after (exec .dequeueIrq (serving 0x00 0x05)) (fun t => (t.returned, t.pic.master.isr)) =
      some ([.vector 0], 0x05) := by decide +kernel

/-! ### Single steps: the PIT and the speaker -/

/-- B3.3. -/
theorem test_pit_ctrl_channel0 :
    after (exec (.pitCtrl .ch0 3 2 0)
        (ticking (some 10) 0 (pendAt 0 4 (queued [⟨.master, 0, 0x08⟩] (withChan .ch0 ⟨5, 1, 0⟩ (ready 0xFE 0xFF))))))
      (fun t => (t.pit.ch0, t.sched.period, t.pic.pending 0, t.pic.queue)) =
      some (⟨0, 0, 0x34⟩, none, 0, [⟨.master, 0, 0x08⟩]) := by decide +kernel

/-- B3.1: 0xB6. -/
theorem test_pit_ctrl_channel2 :
    after (exec (.pitCtrl .ch2 3 3 0) base) (fun t => (t.pit.ch2, t.hostOut)) = some (⟨0, 0, 0xB6⟩, [.beep 0]) := by
  decide +kernel

/-- B3.1: 0x80. -/
theorem test_pit_latch :
    after (exec (.pitLatch .ch2 0) (withChan .ch2 ⟨7, 1, 0xB6⟩ base)) (·.pit.ch2) = some ⟨7, 1, 0xB6⟩ := by
  decide +kernel

/-- B3.1: 0xC2. -/
theorem test_pit_rdback :
    after (exec (.pitRdback 2) (withChan .ch0 ⟨7, 1, 0x34⟩ base)) (·.pit.ch0) = some ⟨7, 1, 0x34⟩ := by decide +kernel

/-- B3.12. -/
theorem test_pit_rdctrl : after (exec .pitRdCtrl base) (·.returned) = some [.data .byte 0xFF] := by decide +kernel

/-- B3.10: the high byte stays. -/
theorem test_pit_ldlo :
    after (exec (.pitLdLo .ch2 0xA9) (withChan .ch2 ⟨0x1234, 0, 0xB6⟩ base)) (·.pit.ch2) = some ⟨0x12A9, 1, 0xB6⟩ := by
  decide +kernel

/-- B3.2 at clock 500, with 0x9B, 0x2E. -/
theorem test_pit_ldhi_channel0 :
    after (exec (.pitLdHi .ch0 0x2E) (withChan .ch0 ⟨0x9B, 1, 0x34⟩ { base with now := 500 }))
      (fun t => (t.pit.ch0, t.sched.period, t.sched.lastTick)) = some (⟨0x2E9B, 0, 0x34⟩, some 10, 500) := by
  decide +kernel

/-- B3.9: the load with the gate set. -/
theorem test_pit_ldhi_channel2 :
    after (exec (.pitLdHi .ch2 0x09) { withChan .ch2 ⟨0x50, 1, 0xB6⟩ base with
        pit := { (withChan .ch2 ⟨0x50, 1, 0xB6⟩ base).pit with gate := true } })
      (fun t => (t.pit.ch2.value, t.hostOut)) = some (2384, [.beep (1193181 / 2384)]) := by decide +kernel

/-- B3.12: a read does not advance the phase. -/
theorem test_pit_rd : after (exec (.pitRd .ch0) (withChan .ch0 ⟨7, 1, 0x34⟩ base)) (·.pit.ch0) = some ⟨7, 1, 0x34⟩ := by
  decide +kernel

/-- B3.9. -/
theorem test_spk_wr_on :
    after (exec (.spkWr 0x02) base) (fun t => (t.pit.gate, t.hostOut)) = some (true, [.beep (1193181 / 65536)]) := by
  decide +kernel

/-- B3.8, step 7. -/
theorem test_spk_wr_off :
    after (exec (.spkWr 0x01) { base with pit := { base.pit with gate := true, tone := .hz 1000 } })
      (fun t => (t.pit.gate, t.pit.tone, t.hostOut)) = some (false, .silent, [.beep 0]) := by decide +kernel

/-- Program 4: `SPK.RD` reads only. -/
theorem test_spk_rd : after (exec .spkRd base) (fun t => (t.pit, t.returned.length)) = some (Pit.powerOn, 1) := by
  decide +kernel

/-- A5. -/
theorem test_period_table :
    ([0x0001, 0x04A9, 0x04AA, 0x0952, 0x0953, 0x1234, 0x2E9B, 0x2E9C, 0xE90B, 0xE90C, 0xFFFF, 0x0000] :
      List (BitVec 16)).map (fun v => periodMs (effectiveCount v)) = [1, 1, 2, 2, 3, 4, 10, 11, 50, 51, 55, 55] := by
  decide +kernel

/-- B4.6: the clock is sampled at the call. -/
theorem test_set_period :
    after (exec (.setPeriod 10) { base with now := 104 }) (fun t => (t.sched.period, t.sched.lastTick)) =
      some (some 10, 104) := by decide +kernel

/-- R197: the last tick stays. -/
theorem test_clear_period :
    after (exec .clearPeriod (ticking (some 10) 7 base)) (fun t => (t.sched.period, t.sched.lastTick)) =
      some (none, 7) := by decide +kernel

/-! ### Single steps: guest memory -/

/-- B5. -/
theorem test_mem_write_read :
    after (execAll [.memWrite 0x7C00 [0xDE, 0xAD, 0xBE, 0xEF], .memRead 0x7C02 2] (session .running none base))
      (fun t => (t.mem.cells, t.returned)) =
      some ([(0x7C04, 0xDE), (0x7C05, 0xAD), (0x7C06, 0xBE), (0x7C07, 0xEF)], [.bytes [0xBE, 0xEF]]) := by
  decide +kernel

/-- B5: the last byte and the first outside. -/
theorem test_mem_bounds :
    after (exec (.memRead 655359 1) (session .running none base)) (·.returned.length) = some 1 ∧
    refusal (exec (.memRead 655359 2) (session .running none base)) = some .dmaOutsideMemory ∧
    refusal (exec (.memWrite 655360 [0]) (session .running none base)) = some .dmaOutsideMemory := by decide +kernel

/-- R73: a device whose DMA leaves guest memory has its transaction refused; inside, the actions are taken in order. -/
theorem test_device_dma :
    refusal (runActions [.raise 4 0, .dmaWrite 655360 [1]] (session .running none base)) = some .dmaOutsideMemory ∧
    after (runActions [.dmaWrite 4 [1], .raise 4 0] (session .running none (ready 0 0)))
      (fun t => (t.mem.cells, t.pic.queue.length)) = some ([(8, 1)], 1) := by decide +kernel

/-- R70: a direct access of the core outside guest memory. -/
theorem test_core_access_outside :
    refusal (exec (.stepCmd [.load 655359 2] .threw) (session .debugPaused none base)) =
      some (.coreAccessOutsideMemory 655359 2) := by decide +kernel

/-! ### Single steps: the Scheduler and the host -/

/-- R195: memory sized, firmware at `MEM_ORIGIN + FIRMWARE_ORIGIN`, running at once. -/
theorem test_start :
    after (exec (.start 640 (Vector.replicate 2048 0) 7 none) base)
      (fun t => (t.mem, t.sched.state, t.sched.wake, t.sched.generation)) =
      some (⟨655360, [(20, 0xEA), (21, 0x5B)]⟩, .running, some 0, 7) := by decide +kernel

/-- R89: bit j of entry i is port 32 * i + j. -/
theorem test_redirect_ports : flaggedPorts 0 [0, 0x2, 0x80000001] = [0x21, 64, 95] := by decide +kernel

/-- B4.9. -/
theorem test_start_when_running :
    refusal (exec (.run 1) (session .running none base)) = some .notIdle := by decide +kernel

/-- R198. -/
theorem test_run : after (exec (.run 5) { base with now := 3 }) (fun t => (t.sched.state, t.sched.wake, t.sched.generation)) =
    some (.running, some 3, 5) := by decide +kernel

/-- Program 2: the first continuation. -/
theorem test_cont_halt :
    after (exec (.cont 0 ⟨[.write .byte 0x43 0x34, .write .byte 0x40 0x9B, .clock 2, .write .byte 0x40 0x2E],
        .status 20, []⟩ 3) (session .running (some 0) (ready 0xFE 0xFF)))
      (fun t => (t.pit.ch0, t.sched.period, t.sched.lastTick, t.sched.wake, t.sched.state)) =
      some (⟨11931, 0, 0x34⟩, some 10, 2, some 12, .running) := by decide +kernel

/-- Program 2: the second continuation. -/
theorem test_cont_three_ticks :
    after (exec (.cont 37 ⟨[.trap, .write .byte 0x20 0x20, .trap, .write .byte 0x20 0x20, .trap,
        .write .byte 0x20 0x20, .trap], .status 50, ["x"]⟩ 38)
        (ticking (some 10) 2 (session .running (some 12) (ready 0xFE 0xFF))))
      (fun t => (t.returned, t.sched.lastTick, t.sched.wake, t.pic.master.isr, t.hostOut)) =
      some ([.vector 8, .vector 8, .vector 8, .vector 0], 32, some 38, 0, [.write "x"]) := by decide +kernel

/-- B4.4: an exception keeps the debug request, a halt does not. -/
theorem test_cont_branches :
    after (exec (.cont 0 ⟨[], .status 100, []⟩ 0) (breaking (session .running (some 0) base)))
      (fun t => (t.sched.state, t.sched.debugReq, t.sched.wake)) = some (.haltedException, true, none) ∧
    after (exec (.cont 0 ⟨[], .status 20, []⟩ 0) (breaking (session .running (some 0) base)))
      (fun t => (t.sched.state, t.sched.debugReq, t.sched.wake)) = some (.debugPaused, false, none) ∧
    after (exec (.cont 0 ⟨[], .status 10, []⟩ 0) (session .running (some 0) base)) (·.sched.state) =
      some .debugPaused ∧
    after (exec (.cont 0 ⟨[], .threw, []⟩ 0) (session .running (some 0) base)) (·.sched.state) =
      some .haltedException := by decide +kernel

/-- B4.1. -/
theorem test_catch_up :
    ([1009.999, 1010, 1030, 1035, 1039.5, 1040, 999] : List Rat).map (fun t1 =>
      let s := tickCatchUp t1 (ticking (some 10) 1000 base)
      (s.pic.pending 0, s.sched.lastTick)) =
    [(0, 1000), (1, 1010), (3, 1030), (3, 1030), (3, 1030), (4, 1040), (0, 1000)] := by decide +kernel

/-- B4.5. -/
theorem test_halt_delay :
    haltDelay (some 10) 1030 1036 = 4 ∧ haltDelay (some 10) 1030 1040 = 0 ∧ haltDelay (some 10) 1030 1047 = 0 ∧
    haltDelay none 1030 1036 = 0 := by decide +kernel

/-- B4.7. -/
theorem test_reset_from_halt :
    after (exec (.resetCmd 3) { breaking (ticking (some 10) 50 (session .haltedException none (serving 0xFE 0x01))) with
        now := 60 })
      (fun t => (t.sched, t.pic.master.isr)) =
      some (⟨.running, some 10, 50, true, some 60, some 1, [], 3⟩, 0x01) := by decide +kernel

/-- B4.7. -/
theorem test_reset_while_paused :
    after (exec (.resetCmd 2) (session .debugPaused none base)) (fun t => (t.sched.state, t.sched.wake, t.mem.cells)) =
      some (.debugPaused, none, [(20, 0xEA), (21, 0x5B)]) ∧
    refusal (exec (.resetCmd 2) base) = some .noCpuHandle := by decide +kernel

/-- Program 5: a step while paused. -/
theorem test_step :
    after (exec (.stepCmd [.write .byte 0x21 0xFF] (.status 50))
        (ticking (some 10) 0 (session .debugPaused none (ready 0xFE 0xFF))))
      (fun t => (t.pic.master.imr, t.sched.state, t.sched.lastTick, t.coreCalls)) =
      some (0xFF, .debugPaused, 0, [.step (some 1)]) := by decide +kernel

/-- R214: it completes, and the core's activity is taken up; which calls it makes is a free value. -/
theorem test_step_over :
    after (exec (.stepOver [.trap] .threw) (session .haltedException none base))
      (fun t => (t.sched.state, t.returned)) = some (.haltedException, [.vector 0]) := rfl

/-- B4.9. -/
theorem test_step_refused :
    refusal (exec (.stepCmd [] .threw) base) = some .notPaused ∧
    refusal (exec (.stepOver [] .threw) (session .running none base)) = some .notPaused := by decide +kernel

/-- Program 5, B4.9. -/
theorem test_break :
    after (exec .breakCmd (session .running (some 0) base)) (·.sched.debugReq) = some true ∧
    after (exec .breakCmd (session .debugPaused none base)) (·.sched.debugReq) = some false := by decide +kernel

/-- Program 5, at clock 50. -/
theorem test_continue :
    after (exec .continueCmd (breaking (ticking (some 10) 0 (session .haltedException none { base with now := 50 }))))
      (fun t => (t.sched.state, t.sched.wake, t.sched.debugReq, t.sched.lastTick)) =
      some (.running, some 50, false, 0) := by decide +kernel

/-- R217. -/
theorem test_debug :
    after (exec (.debugCmd .breakIn) (session .running (some 0) base)) (·.sched.debugReq) = some true ∧
    refusal (exec (.debugCmd (.modify "r ax 1")) base) = some .debugModification := by decide +kernel

/-- B4.9. -/
theorem test_nmi : refusal (exec .nmi (session .running (some 0) base)) = some .nmiUnmodelled := by decide +kernel

/-- R211: the commands complete and leave the Scheduler as it is. -/
theorem test_host_events :
    after (exec (.key "keydown" "KeyA" 65 false false) base) (·.sched.state) = some .idle ∧
    after (exec (.pointer (some (5, -3)) none none) base) (·.sched.state) = some .idle ∧
    after (exec (.attach [0xEB]) base) (·.sched.state) = some .idle := by
  refine ⟨?_, ?_, ?_⟩ <;> exact congrArg some (frame_raiseEach _ _).state

/-! ### Witnesses: concrete states and operands that meet the hypotheses of each obligation that has some, clause by
clause. A witness is named after its obligation. -/

theorem completes {r : Result} (h : after r (fun _ => ()) = some ()) : ∃ t, r = .next t := by
  cases r with
  | next t => exact ⟨t, rfl⟩
  | fault e => cases h
  | refused e => cases h

theorem powerOn_own : DecodeCtx.powerOn.Own :=
  ⟨fun k => by cases k <;> rfl, fun k => by cases k <;> rfl, fun c => by cases c <;> rfl, rfl, rfl,
   fun k => by cases k <;> rfl, fun k => by cases k <;> rfl, fun c => by cases c <;> rfl, rfl, rfl⟩

theorem witness_DecodeOfEncode :
    DecodeCtx.powerOn.Own ∧ DecodeCtx.powerOn.meets (.picOcw1 .slave 0xEF) ∧
    Instr.wellFormed (.picOcw1 .slave 0xEF) = true ∧
    encode DecodeCtx.powerOn.ports (.picOcw1 .slave 0xEF) = some 0x400A1000000EF ∧
    DecodeCtx.powerOn.meets (.outb 0x300 0x55) ∧ DecodeCtx.powerOn.meets (.inb 0x300) ∧
    (ctxAt 1 1).meets (.picIcw2 .master 8) ∧ (ctxAt 2 1).meets (.picIcw3 .master 4) ∧
    (ctxAt 3 1).meets (.picIcw4 .master 1) ∧ (ctxAt 0 0).meets (.pitLdLo .ch0 0) ∧
    (ctxAt 0 1).meets (.pitLdHi .ch0 0) :=
  ⟨powerOn_own, rfl, rfl, rfl, .inl rfl, .inl ⟨rfl, by decide⟩, rfl, rfl, rfl, rfl, rfl⟩

theorem witness_EncodeOfDecode : decode .powerOn 0x40021000001FB = .ok (.picOcw1 .master 0xFB) := by decide +kernel

theorem witness_BusPatternsUnderMask :
    (0x0FFFFFFFFFFFF : TransactionWord) &&& 0x7000000000000 = 0x0000000000000 ∧
    (0x1FFFF00000000 : TransactionWord) &&& 0x7000000000000 = 0x1000000000000 ∧
    (0x2000000000000 : TransactionWord) &&& 0x7000000000000 = 0x2000000000000 ∧
    (0x4FFFFFFFFFFFF : TransactionWord) &&& 0x7000000000000 = 0x4000000000000 ∧
    (0x5FFFF00000000 : TransactionWord) &&& 0x7000000000000 = 0x5000000000000 ∧
    (0x6000000000000 : TransactionWord) &&& 0x7000000000000 = 0x6000000000000 ∧
    (0x3000000000000 : TransactionWord).extractLsb' 48 2 = 3 ∧
    (0x7FFFFFFFFFFFF : TransactionWord).extractLsb' 48 2 = 3 := by decide +kernel

theorem witness_StepRunsDecodedInstruction :
    (∃ s : State, s.inbox = [.word 0x4002000000011] ∧
      decode s.decodeCtx 0x4002000000011 = .ok (.picIcw1 .master 0x11)) ∧
    (∃ s : State, s.inbox = [.op .dequeueIrq]) ∧
    decode base.decodeCtx (BitVec.ofNat 51 0x4002000000011) = .ok (.picIcw1 .master 0x11) :=
  ⟨⟨{ base with inbox := [.word 0x4002000000011] }, rfl, by decide +kernel⟩,
   ⟨{ base with inbox := [.op .dequeueIrq] }, rfl⟩, by decide +kernel⟩

theorem witness_StepWithoutInstruction :
    base.inbox = [] ∧ base.now ≤ (0 : Time) ∧ (-1 : Time) < base.now ∧
    ({ base with inbox := [.clock 0] } : State).inbox = [.clock 0] ∧
    (0x7000000000000 : TransactionWord).extractLsb' 48 2 = 3 := by decide +kernel

theorem witness_RegisterCommandIsItsBusTransaction :
    (decodeBus 0x4002100000008 = .ok (.outb 0x21 0x08) ∧
      decode base.decodeCtx 0x4002100000008 = .ok (.picOcw1 .master 0x08)) ∧
    (decodeBus 0x0006100000000 = .ok (.inb 0x61) ∧ decode base.decodeCtx 0x0006100000000 = .ok .spkRd) ∧
    (decodeBus 0x1002100000000 = .ok (.inw 0x21) ∧ decode base.decodeCtx 0x1002100000000 = .ok (.inw 0x21)) := by
  decide +kernel

theorem slotWriteFits_none {s : State} {w : Width} {p : Port} {v : DWord} (e : s.bus.wrH w p = none) :
    s.slotWriteFits w p v := fun h hh => by rw [e] at hh; cases hh

theorem slotWriteFits_some {s : State} {w : Width} {p : Port} {v : DWord} {h : WriteHandler}
    (e : s.bus.wrH w p = some h) (f : writeHandlerFits s.mem h w p (maskTo w v)) : s.slotWriteFits w p v :=
  fun g hg => by rw [e] at hg; cases hg; exact f

theorem slotReadFits_none {s : State} {w : Width} {p : Port} (e : s.bus.rdH w p = none) :
    s.slotReadFits w p := fun h hh => by rw [e] at hh; cases hh

theorem slotReadFits_some {s : State} {w : Width} {p : Port} {h : ReadHandler}
    (e : s.bus.rdH w p = some h) (f : readHandlerFits s.mem h w p) : s.slotReadFits w p :=
  fun g hg => by rw [e] at hg; cases hg; exact f

/-- With a handler and without. -/
theorem witness_ByteWriteRunsHandlerThenForwards :
    base.writeFits .byte 0x20 0x11 ∧ base.writeFits .byte 0x300 0x55 :=
  ⟨⟨slotWriteFits_some rfl trivial, fun h => by cases h⟩, ⟨slotWriteFits_none rfl, fun h => by cases h⟩⟩

theorem witness_WordWriteFallsBackToBytes :
    (base.writeFits .word 0x20 0x0811 ∧ base.writeFits .word 0x400 0) ∧
    (∃ s : State, s.bus.wrH .word 0x3FF = some (.other 1)) ∧ base.bus.wrH .word 0x3FF = none ∧
    (0x3FF : Port).toNat < 1024 ∧ base.bus.wrH .word 0x400 = none ∧ 1024 ≤ (0x400 : Port).toNat :=
  ⟨⟨⟨slotWriteFits_none rfl, fun _ _ _ => ⟨slotWriteFits_some rfl trivial, slotWriteFits_some rfl trivial⟩⟩,
     ⟨slotWriteFits_none rfl, fun _ _ h => absurd h (by decide)⟩⟩,
   ⟨{ base with bus := { base.bus with h16 := [(0x3FF, ⟨some (.other 1), none⟩)] } }, rfl⟩, by decide +kernel⟩

theorem witness_DwordAccessNeverSplit : base.writeFits .dword 0x20 0x11 ∧ base.readFits .dword 0x20 :=
  ⟨⟨slotWriteFits_none rfl, fun h => by cases h⟩, ⟨slotReadFits_none rfl, fun h => by cases h⟩⟩

theorem witness_ByteReadReturnsMaskedOrAllOnes : base.readFits .byte 0x21 ∧ base.readFits .byte 0x300 :=
  ⟨⟨slotReadFits_some rfl trivial, fun h => by cases h⟩, ⟨slotReadFits_none rfl, fun h => by cases h⟩⟩

/-- The last port of the fallback and the first above it. -/
theorem witness_WordReadJoinsLowAndHighByte :
    (∃ s : State, s.bus.rdH .word 0x3FF = some (.other 1)) ∧ base.bus.rdH .word 0x3FF = none ∧
    (0x3FF : Port).toNat < 1024 ∧ base.bus.rdH .word 0x400 = none ∧ 1024 ≤ (0x400 : Port).toNat ∧
    base.readFits .word 0x20 ∧ base.readFits .word 0x400 :=
  ⟨⟨{ base with bus := { base.bus with h16 := [(0x3FF, ⟨none, some (.other 1)⟩)] } }, rfl⟩,
   by decide +kernel, by decide, by decide +kernel, by decide,
   ⟨slotReadFits_none rfl, fun _ _ _ => ⟨slotReadFits_some rfl trivial, slotReadFits_some rfl trivial⟩⟩,
   ⟨slotReadFits_none rfl, fun _ _ h => absurd h (by decide)⟩⟩

/-- The word clauses at the last port of the fallback and at the first above it. -/
theorem witness_UnmappedPortsReadOnesAndDiscardWrites :
    base.bus.rdH .byte 0x300 = none ∧ base.bus.wrH .byte 0x300 = none ∧
    base.bus.rdH .word 0x3FF = none ∧ base.bus.rdH .byte 0x3FF = none ∧ base.bus.rdH .byte (0x3FF + 1) = none ∧
    base.bus.rdH .word 0x400 = none ∧ ¬ (0x400 : Port).toNat < 1024 ∧ base.bus.rdH .dword 0xFFFF = none ∧
    base.bus.wrH .word 0x3FF = none ∧ (0x3FF : Port).toNat < 1024 ∧ base.bus.wrH .byte 0x3FF = none ∧
    base.bus.wrH .byte (0x3FF + 1) = none ∧ base.bus.wrH .word 0x400 = none ∧ 1024 ≤ (0x400 : Port).toNat ∧
    base.bus.wrH .dword 0xFFFF = none := by decide +kernel

theorem witness_RegisterFillsFreeSlotOnly :
    base.sched.state = .idle ∧ assocGet (base.bus.table .byte) (0x300 : Port).toNat = none ∧
    assocGet (base.bus.table .byte) (0x20 : Port).toNat ≠ none ∧
    (session .running none base).sched.state ≠ .idle := by decide +kernel

theorem witness_TablesNeverChangeAfterConstruction :
    (session .running none base).sched.state ≠ .idle ∧
    ∃ t, exec (.outb 0x20 0x11) (session .running none base) = .next t := ⟨by decide, _, rfl⟩

theorem witness_InitialisationWordsStoreAndAdvance :
    (0x11 : Byte).getLsbD 4 = true ∧
    (∃ s : State, (s.pic.ctrl .slave).phase = 2) ∧ ∃ s : State, (s.pic.ctrl .slave).phase = 3 :=
  ⟨by decide,
   ⟨{ base with pic := { base.pic with slave := ⟨2, 0x11, 0x70, 0, 0, 0xFF, 0⟩ } }, rfl⟩,
   ⟨{ base with pic := { base.pic with slave := ⟨3, 0x11, 0x70, 2, 0, 0xFF, 0⟩ } }, rfl⟩⟩

theorem witness_Icw2SetsVectorBase : ∃ s : State, (s.pic.ctrl .master).phase = 1 :=
  ⟨{ base with pic := { base.pic with master := ⟨1, 0x11, 0, 0, 0, 0xFF, 0⟩ } }, rfl⟩

theorem witness_Ocw1WritesMaskThenArbitrates : (base.pic.ctrl .master).phase = 0 := rfl

/-- Bytes next to the EOI patterns, and the largest that is no ICW1. -/
theorem witness_CommandsWithoutEffectOnlyForward : ∀ d ∈ ([0x00, 0x0B, 0x28, 0x68, 0x4F, 0xEF] : List Byte),
    d.getLsbD 4 = false ∧ d.extractLsb' 3 5 ≠ 0b00100#5 ∧ d.extractLsb' 3 5 ≠ 0b01100#5 := by decide +kernel

theorem own_registered : base.bus.OwnRegistered base.params.ports :=
  ⟨fun k => by cases k <;> decide +kernel, fun k => by cases k <;> decide +kernel,
   fun c => by cases c <;> decide +kernel, by decide +kernel, by decide +kernel⟩

theorem witness_CommandPortWritesKeepMasks : base.bus.OwnRegistered base.params.ports := own_registered

theorem witness_OnlyOperationalControllersDeliver :
    (∃ s : State, s.pic.master.phase ≠ 0 ∧ ∃ t, exec .arbitrate s = .next t) ∧
    ∃ s : State, s.pic.slave.phase ≠ 0 ∧ s.pic.master.phase = 0 ∧ (∃ i, s.pic.eligible .master i = true) ∧
      ∃ t, exec .arbitrate s = .next t :=
  ⟨⟨{ base with pic := { base.pic with master := ⟨1, 0x11, 0, 0, 0, 0, 0⟩ } }, by decide, _, rfl⟩,
   ⟨pendAt 7 1 { ready 0 0 with pic := { (ready 0 0).pic with slave := ⟨3, 0x11, 0x70, 2, 0, 0, 0⟩ } },
    by decide +kernel, by decide +kernel, ⟨7, by decide +kernel⟩, _, rfl⟩⟩

theorem witness_DeliveredVectorIsBaseOrLine :
    after (exec .arbitrate (pendAt 15 1 (queued [⟨.master, 0, 0x08⟩] (ready 0 0)))) (·.pic.queue) =
      some [⟨.master, 0, 0x08⟩, ⟨.slave, 7, 0x77⟩] := by decide +kernel

theorem witness_RaiseAddsCountAndClearZeroesIt :
    (15 < 16 ∧ 0 < 1 ∧ ∃ t, exec (.raiseIrq 15 1) base = .next t) ∧ 16 ≤ 16 := ⟨⟨by decide, by decide, _, rfl⟩, by decide⟩

theorem witness_RaisesAreCountedNeverMerged :
    (∃ t, exec (.raiseIrq (0 : Fin 16).val 3) (ready 0 0) = .next t) ∧
    (∃ t, exec (.picSeoi .master 4) (serving 0 0x10) = .next t) ∧
    (queued [⟨.slave, 7, 0x77⟩] base).pic.queue = ⟨.slave, 7, 0x77⟩ :: [] ∧
    ∃ t, exec .dequeueIrq (queued [⟨.slave, 7, 0x77⟩] base) = .next t := ⟨⟨_, rfl⟩, ⟨_, rfl⟩, rfl, _, rfl⟩

theorem witness_DequeueHandsOutOldestEntry :
    (queued [⟨.slave, 7, 0x77⟩, ⟨.master, 0, 8⟩] base).pic.queue = ⟨.slave, 7, 0x77⟩ :: [⟨.master, 0, 8⟩] ∧
    base.pic.queue = [] := ⟨rfl, rfl⟩

/-- One state for each clause, with two entries queued; the trap points take both, in their order. -/
theorem witness_ReadyQueueIsFirstInFirstOut :
    after (exec (.raiseIrq 3 1) (queued [⟨.slave, 7, 0x77⟩] (ready 0 0))) (·.pic.queue) =
      some [⟨.slave, 7, 0x77⟩, ⟨.master, 3, 0x0B⟩] ∧
    after (exec .dequeueIrq (queued [⟨.slave, 7, 0x77⟩, ⟨.master, 0, 8⟩] base)) (·.pic.queue) =
      some [⟨.master, 0, 8⟩] ∧
    after (runCoreOp .trap (queued [⟨.slave, 7, 0x77⟩] base)) (·.pic.queue) = some [] ∧
    after (runCoreOp (.write .byte 0x21 0xF7) (pendAt 3 1 (queued [⟨.slave, 7, 0x77⟩] (ready 0xFF 0))))
      (·.pic.queue) = some [⟨.slave, 7, 0x77⟩, ⟨.master, 3, 0x0B⟩] ∧
    after (exec (.cont 10 ⟨[.trap, .trap], .status 50, []⟩ 10)
        (ticking (some 10) 0 (session .running (some 0) (queued [⟨.slave, 7, 0x77⟩] (ready 0 0)))))
      (fun t => (t.returned, t.pic.queue)) = some ([.vector 0x77, .vector 0x08], []) ∧
    after (exec (.stepCmd [.trap] .threw) (queued [⟨.slave, 7, 0x77⟩, ⟨.master, 0, 8⟩] (session .debugPaused none base)))
      (·.pic.queue) = some [⟨.master, 0, 8⟩] := by decide +kernel

theorem witness_LineInServiceOnlyAccumulates :
    0 < 2 ∧ ((serving 0 0x80).pic.ctrl .master).isr.getLsbD (7 : Fin 8).val = true := by decide +kernel

theorem witness_NoPriorityBlocking :
    (∃ s : State, s.pic.pathOpen .master ∧ (s.pic.ctrl .master).imr.getLsbD 5 = false ∧
      (s.pic.ctrl .master).isr.getLsbD 5 = false ∧ (s.pic.ctrl .master).isr.getLsbD 1 = true ∧
      ∀ m, m ≠ globalLine .master 5 → s.pic.pending m = 0) ∧
    ∃ s : State, s.pic.pathOpen .slave ∧ (s.pic.ctrl .slave).imr.getLsbD 7 = false ∧
      (s.pic.ctrl .slave).isr.getLsbD 7 = false ∧ ∀ m, m ≠ globalLine .slave 7 → s.pic.pending m = 0 :=
  ⟨⟨serving 0 0x02, ⟨rfl, fun h => by cases h⟩, by decide +kernel, by decide +kernel, by decide +kernel,
    by decide +kernel⟩,
   ⟨ready 0 0, ⟨rfl, fun _ => ⟨rfl, by decide +kernel⟩⟩, by decide +kernel, by decide +kernel, by decide +kernel⟩⟩

/-- A master line and a slave line, the last of each controller. -/
theorem witness_MaskedRaiseWaitsForUnmasking :
    (∃ s : State, s.pic.pathOpen .master ∧ (s.pic.ctrl .master).imr.getLsbD (7 : Fin 8).val = true ∧
      (s.pic.ctrl .master).isr.getLsbD (7 : Fin 8).val = false ∧ (0x7F : Byte).getLsbD (7 : Fin 8).val = false ∧
      ∀ m, s.pic.pending m = 0) ∧
    ∃ s : State, s.pic.pathOpen .slave ∧ (s.pic.ctrl .slave).imr.getLsbD (7 : Fin 8).val = true ∧
      (s.pic.ctrl .slave).isr.getLsbD (7 : Fin 8).val = false ∧ ∀ m, s.pic.pending m = 0 :=
  ⟨⟨ready 0xFF 0xFF, ⟨rfl, fun h => by cases h⟩, by decide +kernel, by decide +kernel, by decide, by decide +kernel⟩,
   ⟨ready 0xFB 0xFF, ⟨rfl, fun _ => ⟨rfl, by decide +kernel⟩⟩, by decide +kernel, by decide +kernel,
    by decide +kernel⟩⟩

theorem witness_LineTwoBeforeLineFive :
    ∃ s : State, s.pic.queue = [] ∧ s.pic.master.phase = 0 ∧ s.pic.eligible .master 2 = true ∧
      s.pic.eligible .master 5 = true ∧ s.pic.eligible .master 0 = false ∧ s.pic.eligible .master 1 = false ∧
      ∀ i, s.pic.canWin (.slave, i) = false :=
  ⟨pendAt 5 1 (pendAt 2 1 (ready 0xDB 0xFF)), by decide +kernel⟩

theorem witness_PitControlResetsChannel : (1 : BitVec 2) ≠ 0 ∧ (3 : BitVec 2) ≠ 0 := by decide

theorem witness_FirstDataByteIsLow : (base.pit.chan .ch0).phase = 0 := rfl

theorem witness_SecondDataByteCompletesLoad :
    ((withChan .ch0 ⟨0, 1, 0x34⟩ base).pit.chan .ch0).phase = 1 ∧
    ((withChan .ch1 ⟨0xFF, 1, 0x54⟩ base).pit.chan .ch1).phase = 1 ∧
    ((withChan .ch2 ⟨0xA9, 1, 0xB6⟩ base).pit.chan .ch2).phase = 1 ∧
    (withChan .ch2 ⟨0xA9, 1, 0xB6⟩ base).pit.gate = false ∧
    ∃ s : State, (s.pit.chan .ch2).phase = 1 ∧ s.pit.gate = true :=
  ⟨rfl, rfl, rfl, rfl, { base with pit := ⟨.powerOn, .powerOn, ⟨0, 1, 0xB6⟩, true, .silent⟩ }, rfl, rfl⟩

theorem witness_SpeakerGateTogglesTone :
    base.pit.gate = false ∧ (0x02 : Byte).getLsbD 1 = true ∧ (0xFD : Byte).getLsbD 1 = false ∧
    base.pit.gate = (0xFD : Byte).getLsbD 1 ∧
    ∃ s : State, s.pit.gate = true ∧ s.pit.gate = (0x02 : Byte).getLsbD 1 :=
  ⟨rfl, by decide, by decide, by decide, { base with pit := { base.pit with gate := true } }, rfl, by decide⟩

theorem witness_SetPeriodRestartsTick : 0 < 1 := by decide

/-- The boundaries of the last clause: exactly three periods, and just under four. -/
theorem witness_CatchUpRaisesOncePerElapsedPeriod :
    (ticking (some 10) 1000 base).sched.period = some 10 ∧ 0 < 10 ∧
    (ticking (some 10) 1000 base).sched.lastTick ≤ (1030 : Time) ∧
    3 * ((10 : Nat) : Rat) ≤ 1030 - (ticking (some 10) 1000 base).sched.lastTick ∧
    1030 - (ticking (some 10) 1000 base).sched.lastTick < 4 * ((10 : Nat) : Rat) ∧
    3 * ((10 : Nat) : Rat) ≤ 1039.999 - (ticking (some 10) 1000 base).sched.lastTick ∧
    1039.999 - (ticking (some 10) 1000 base).sched.lastTick < 4 * ((10 : Nat) : Rat) := by decide +kernel

theorem witness_CoreActivityIsTransactionsTrapsAndMemory :
    655359 + 1 ≤ (session .running none base).mem.size ∧ (session .running none base).mem.size < 655359 + 2 ∧
    655359 + [(0 : Byte)].length ≤ (session .running none base).mem.size ∧
    (session .running none base).mem.size < 655360 + [(0 : Byte)].length ∧
    ∃ t, runCoreOp .trap base = .next t := ⟨by decide, by decide, by decide, by decide, _, rfl⟩

/-- One burst for each way to end, the wake time reached exactly. -/
theorem witness_ContinuationCompletesAndBranches :
    (session .running (some 4) base).sched.state = .running ∧
    (session .running (some 4) base).sched.wake = some 4 ∧ (4 : Time) ≤ 4 ∧ (session .running (some 4) base).now ≤ 4 ∧
    followable (session .running (some 4) base) 4 [.trap, .load 655359 1, .clock 5, .store 0 [1, 2]] ∧
    clockAfter 4 [.trap, .load 655359 1, .clock 5, .store 0 [1, 2]] ≤ (5 : Time) ∧
    classify params.status .threw = .exception ∧ classify params.status (.status 100) = .exception ∧
    classify params.status (.status 10) = .debugTrap ∧ classify params.status (.status 29) = .halt ∧
    classify params.status (.status 99) = .other := by
  refine ⟨rfl, rfl, by decide +kernel, by decide +kernel, ⟨by decide +kernel, ?_⟩, by decide +kernel⟩
  simp only [List.forall_mem_cons, CoreOp.fits]
  exact ⟨trivial, by decide +kernel, trivial, by decide +kernel, by simp⟩

theorem witness_ContinuationTicksThenBurstThenDrain :
    ∃ t, exec (.cont 0 ⟨[.trap], .status 20, ["x"]⟩ 3) (session .running (some 0) base) = .next t :=
  completes (by decide +kernel)

theorem witness_CoreFaultHaltsScheduler :
    (∃ code, BurstEnd.status 100 = .status code ∧ params.status.exceptionMin ≤ code) ∧
    after (exec (.cont 0 ⟨[], .status 100, []⟩ 0) (session .running (some 0) base)) (·.sched.state) =
      some .haltedException := ⟨⟨100, rfl, by decide⟩, by decide +kernel⟩

theorem witness_CommandsRefusedOutsideTheirStates :
    base.sched.state ≠ .running ∧ (session .running none base).sched.wake = none ∧
    (session .running (some 4) base).sched.wake = some 4 ∧ (3 : Time) < 4 ∧
    (session .debugPaused none base).sched.state ≠ .idle ∧ base.sched.state = .idle ∧ base.sched.cpu = none ∧
    (session .running none base).sched.state = .running := by decide +kernel

theorem witness_RunStartsSession : base.sched.state = .idle := rfl

/-- The firmware fits exactly into 1 KiB. -/
theorem witness_StartInstallsMapLoadsFirmwareRuns :
    base.sched.state = .idle ∧ base.params.firmwareOrigin + base.params.firmware.length ≤ 1 * 1024 ∧
    ({ params with firmwareOrigin := 1022 } : Params).firmwareOrigin +
      ({ params with firmwareOrigin := 1022 } : Params).firmware.length ≤ 1 * 1024 := by decide +kernel

theorem witness_ResetPreservesDevices :
    (session .debugPaused none base).sched.state ≠ .idle ∧ (session .debugPaused none base).sched.cpu = some 1 ∧
    (session .debugPaused none base).params.firmwareOrigin + (session .debugPaused none base).params.firmware.length ≤
      (session .debugPaused none base).mem.size ∧
    (session .haltedException none base).sched.state ≠ .debugPaused := by decide +kernel

theorem witness_SteppingLeavesSchedulerState :
    (session .haltedException none base).sched.state = .haltedException ∧
    followable (session .haltedException none base) (session .haltedException none base).now
      [.write .byte 0x21 0xFF, .read .word 0x20, .clock 0, .trap] ∧
    (session .debugPaused none base).sched.state = .debugPaused := by
  refine ⟨rfl, ⟨by decide +kernel, ?_⟩, rfl⟩
  simp only [List.forall_mem_cons, CoreOp.fits]
  exact ⟨⟨slotWriteFits_some rfl trivial, fun h => by cases h⟩,
    ⟨slotReadFits_none rfl, fun _ _ _ => ⟨slotReadFits_some rfl trivial, slotReadFits_some rfl trivial⟩⟩,
    trivial, trivial, by simp⟩

theorem witness_BreakRequestsAndContinueResumes :
    (session .running (some 0) base).sched.state = .running ∧ base.sched.state ≠ .running ∧
    (session .debugPaused none base).sched.state = .debugPaused ∧
    (session .haltedException none base).sched.state = .haltedException := by decide +kernel

theorem witness_DmaReadsAndWritesInsideRegion :
    655359 + 1 ≤ (session .running none base).mem.size ∧ (session .running none base).mem.size < 655359 + 2 ∧
    655358 + [(1 : Byte), 2].length ≤ (session .running none base).mem.size ∧
    (session .running none base).mem.size < 655359 + [(1 : Byte), 2].length ∧ [(1 : Byte), 2] ≠ [] ∧
    (∀ a ∈ [DeviceAction.raise 4 0, .dmaWrite 655358 [1, 2], .dmaRead 655359 1],
      actionFits (session .running none base).mem a = true) ∧
    ∃ a ∈ [DeviceAction.raise 4 0, .dmaWrite 655359 [1, 2]],
      actionFits (session .running none base).mem a = false := by
  decide +kernel

theorem witness_LegalAtReset :
    [params.ports.picCmd0, params.ports.picData0, params.ports.picCmd1, params.ports.picData1,
      params.ports.pitCh0, params.ports.pitCh1, params.ports.pitCh2, params.ports.pitCtrl,
      Config.speakerPort].Nodup := by decide +kernel

/-- A session with a delivered and a pending interrupt, a period, and a word presented. -/
def busy : State :=
  { ticking (some 55) 0 (session .running (some 0) (pendAt 9 2 (queued [⟨.slave, 4, 0x74⟩] (ready 0 0)))) with
    inbox := [.word 0x4002000000020] }

theorem busy_legal : busy.Legal where
  queue := fun e he => by cases List.mem_singleton.1 he; unfold QueueEntry.vectorMatchesLine; decide
  wake := ⟨fun _ => rfl, fun _ => by decide +kernel⟩
  period := fun p h => by cases h; decide
  tone := fun h => absurd rfl h
  toneHz := fun f h => by cases h
  notShutdown := by decide
  cpu := fun _ => by decide
  unallocated := fun h => by cases h
  memory := rfl
  own := ⟨own_registered.picCmd, own_registered.picData, own_registered.pitChan, own_registered.pitCtrl,
    own_registered.speaker⟩
  tables := ⟨by decide +kernel, rfl, rfl⟩
  presented := fun r hr ms e => by cases (List.mem_singleton.1 hr).symm.trans e

theorem witness_StepKeepsLegal : busy.Legal ∧ ∃ t, step busy = .next t :=
  ⟨busy_legal, completes (by decide +kernel)⟩

theorem witness_LogsOnlyGrowAndClockNeverGoesBack : ∃ t, exec (.inb 0x61) base = .next t := ⟨_, rfl⟩

theorem witness_SchedulerMovesOnlyAsListed :
    ∃ t, exec .continueCmd (session .debugPaused none base) = .next t ∧
      t.sched.state ≠ (session .debugPaused none base).sched.state := ⟨_, rfl, by decide⟩

end Sys2Proof.Tests
end

section
/-! PROOFS. The family 30_encoding: the vector a delivery computes (R86). -/

namespace Sys2Proof.Machine

open Sys2Proof

/-- ARBITRATE changes the PIC alone, by one arbitration (R136). -/
theorem exec_arbitrate (s : State) : exec .arbitrate s = .next { s with pic := s.pic.arbitrate } := by
  rfl

theorem pic_of_exec_arbitrate {s t : State} (h : exec .arbitrate s = .next t) : t.pic = s.pic.arbitrate := by
  rw [exec_arbitrate] at h
  cases h
  rfl

/-- Settles O26: an entry an arbitration adds carries `vectorOf` of its own controller's base and its own line
(`arbitrate_entry`), and `vectorOf` is the word of R86. -/
theorem deliveredVectorIsBaseOrLine : Obligations.DeliveredVectorIsBaseOrLine := by
  intro s t e hexec hmem
  rw [pic_of_exec_arbitrate hexec] at hmem
  rcases arbitrate_entry hmem with hold | ⟨_, hvector⟩
  · exact .inl hold
  · rw [vectorOf] at hvector
    exact .inr hvector

end Sys2Proof.Machine
end

section
/-! PROOFS. The family 41_pic: ICW2 and the vectors delivered after it (R124). -/

namespace Sys2Proof.Machine

open Sys2Proof

/-- PIC.ICW2 completes where its controller waits for it (R121, R124): its effect, then the redirection of R103. -/
theorem exec_picIcw2_of_phase {k : Ctrl} {s : State} (hphase : (s.pic.ctrl k).phase = 1) (d : Byte) :
    exec (.picIcw2 k d) s = .next (forward (s.params.ports.picData k) d (icw2Effect k d s)) := by
  simp only [exec, execPicIcw2, if_pos hphase]

/-- Redirection keeps the PIC that ICW2 leaves. -/
theorem forward_icw2Effect_pic (p : Port) (k : Ctrl) (d : Byte) (s : State) :
    (forward p d (icw2Effect k d s)).pic =
      s.pic.setCtrl k { s.pic.ctrl k with icw1 := d, phase := 2 } := by
  rw [forward_eq, icw2Effect]

/-- Settles O17: the state reached is the one of `exec_picIcw2_of_phase`, where redirection adds to the host log
alone (`forward_eq`); a delivery then computes `vectorOf` of the base the controller now holds (`deliver_queue`). -/
theorem icw2SetsVectorBase : Obligations.Icw2SetsVectorBase := by
  intro k d s hphase
  refine ⟨_, exec_picIcw2_of_phase hphase d, ?frame, fun i => ?vector⟩
  case frame => rw [forward_eq, icw2Effect]
  case vector => rw [deliver_queue, forward_icw2Effect_pic, ctrl_setCtrl_same, vectorOf]

end Sys2Proof.Machine
end

section
/-! PROOFS. The family 43_scheduler: removing the tick period (R197). -/

namespace Sys2Proof.Machine

open Sys2Proof

/-- CLEARPERIOD completes in every state, by the operation that the PIT calls too (R197). -/
theorem exec_clearPeriod (s : State) : exec .clearPeriod s = .next (clearPeriodOp s) := by
  rfl

/-- The case of R201 that `tickCatchUp_eq` leaves out: step (1) does nothing without a period. -/
theorem tickCatchUp_of_period_none {s : State} (hperiod : s.sched.period = none) (t1 : Time) :
    tickCatchUp t1 s = s := by
  simp only [tickCatchUp, hperiod]

theorem clearPeriodOp_period (s : State) : (clearPeriodOp s).sched.period = none := by
  rw [clearPeriodOp_sched]

/-- Settles O41: the state written out is `clearPeriodOp s`, which has no period, so that every catch-up
leaves it as it is (`tickCatchUp_of_period_none`). -/
theorem clearPeriodStopsTicks : Obligations.ClearPeriodStopsTicks := by
  intro s t1
  exact ⟨exec_clearPeriod s, tickCatchUp_of_period_none (clearPeriodOp_period s) t1⟩

end Sys2Proof.Machine
end

section
/-! PROOFS. The family 30_encoding: stage one of the decoder, the bus transaction of a word (R81, R82, R93). -/

namespace Sys2Proof

theorem widthOfCode_zero : widthOfCode 0 = some .byte := rfl
theorem widthOfCode_one : widthOfCode 1 = some .word := rfl
theorem widthOfCode_two : widthOfCode 2 = some .dword := rfl
theorem widthOfCode_three : widthOfCode 3 = none := rfl

section
variable {tw : TransactionWord}

theorem decodeBus_inb (hw : twIsWrite tw = false) (hc : twWidthCode tw = 0) :
    decodeBus tw = .ok (.inb (twPort tw)) := by
  simp only [decodeBus, hw, hc, widthOfCode_zero]

theorem decodeBus_inw (hw : twIsWrite tw = false) (hc : twWidthCode tw = 1) :
    decodeBus tw = .ok (.inw (twPort tw)) := by
  simp only [decodeBus, hw, hc, widthOfCode_one]

theorem decodeBus_ind (hw : twIsWrite tw = false) (hc : twWidthCode tw = 2) :
    decodeBus tw = .ok (.ind (twPort tw)) := by
  simp only [decodeBus, hw, hc, widthOfCode_two]

theorem decodeBus_outb (hw : twIsWrite tw = true) (hc : twWidthCode tw = 0) :
    decodeBus tw = .ok (.outb (twPort tw) (twData tw)) := by
  simp only [decodeBus, hw, hc, widthOfCode_zero]

theorem decodeBus_outw (hw : twIsWrite tw = true) (hc : twWidthCode tw = 1) :
    decodeBus tw = .ok (.outw (twPort tw) (twData tw)) := by
  simp only [decodeBus, hw, hc, widthOfCode_one]

theorem decodeBus_outd (hw : twIsWrite tw = true) (hc : twWidthCode tw = 2) :
    decodeBus tw = .ok (.outd (twPort tw) (twData tw)) := by
  simp only [decodeBus, hw, hc, widthOfCode_two]

theorem decodeBus_widthCode_three (hc : twWidthCode tw = 3) : decodeBus tw = .error .widthCodeThree := by
  simp only [decodeBus, hc, widthOfCode_three]

/-- A word that is a transaction is one of the six, by its direction bit and its width code. -/
theorem decodeBus_eq_ok {b : Instr} (h : decodeBus tw = .ok b) :
    (twIsWrite tw = false ∧
      ((twWidthCode tw = 0 ∧ b = .inb (twPort tw)) ∨ (twWidthCode tw = 1 ∧ b = .inw (twPort tw)) ∨
        (twWidthCode tw = 2 ∧ b = .ind (twPort tw)))) ∨
    (twIsWrite tw = true ∧
      ((twWidthCode tw = 0 ∧ b = .outb (twPort tw) (twData tw)) ∨
        (twWidthCode tw = 1 ∧ b = .outw (twPort tw) (twData tw)) ∨
        (twWidthCode tw = 2 ∧ b = .outd (twPort tw) (twData tw)))) := by
  have hcodes : ∀ c : BitVec 2, c = 0 ∨ c = 1 ∨ c = 2 ∨ c = 3 := by decide
  cases hw : twIsWrite tw with
  | false =>
    refine .inl ⟨rfl, ?_⟩
    rcases hcodes (twWidthCode tw) with hc | hc | hc | hc
    · rw [decodeBus_inb hw hc] at h; cases h; exact .inl ⟨hc, rfl⟩
    · rw [decodeBus_inw hw hc] at h; cases h; exact .inr (.inl ⟨hc, rfl⟩)
    · rw [decodeBus_ind hw hc] at h; cases h; exact .inr (.inr ⟨hc, rfl⟩)
    · rw [decodeBus_widthCode_three hc] at h; cases h
  | true =>
    refine .inr ⟨rfl, ?_⟩
    rcases hcodes (twWidthCode tw) with hc | hc | hc | hc
    · rw [decodeBus_outb hw hc] at h; cases h; exact .inl ⟨hc, rfl⟩
    · rw [decodeBus_outw hw hc] at h; cases h; exact .inr (.inl ⟨hc, rfl⟩)
    · rw [decodeBus_outd hw hc] at h; cases h; exact .inr (.inr ⟨hc, rfl⟩)
    · rw [decodeBus_widthCode_three hc] at h; cases h

/-- The mask of R82 keeps the direction bit and the width code. -/
theorem fields_of_mask {m : TransactionWord} (h : tw &&& 0x7000000000000 = m) :
    twIsWrite tw = twIsWrite m ∧ twWidthCode tw = twWidthCode m := by
  subst h
  constructor
  · simp [twIsWrite]
  · apply BitVec.eq_of_getLsbD_eq
    intro i hi
    have hbit : (0x7000000000000 : TransactionWord).getLsbD (48 + i) = true := by
      interval_cases i <;> rfl
    simp only [twWidthCode, BitVec.getLsbD_extractLsb', BitVec.getLsbD_and, hbit, Bool.and_true]

end

/-- Settles O3: the mask keeps direction and width code (`fields_of_mask`), which select the transaction. -/
theorem busPatternsUnderMask : Obligations.BusPatternsUnderMask := by
  intro tw
  refine ⟨fun h => ?_, fun h => ?_, fun h => ?_, fun h => ?_, fun h => ?_, fun h => ?_,
    decodeBus_widthCode_three⟩ <;> obtain ⟨hw, hc⟩ := fields_of_mask h
  · exact decodeBus_inb hw hc
  · exact decodeBus_inw hw hc
  · exact decodeBus_ind hw hc
  · exact decodeBus_outb hw hc
  · exact decodeBus_outw hw hc
  · exact decodeBus_outd hw hc

/-- Settles O4: twelve closed words, each evaluated by the decoder. -/
theorem specWordsDecodeAsWritten : Obligations.SpecWordsDecodeAsWritten := by
  refine ⟨?_, ?_, ?_, ?_, ?_, ?_, ?_, ?_, ?_, ?_, ?_, ?_⟩ <;> decide

end Sys2Proof
end

section
/-! PROOFS. The family 30_encoding: stage two of the decoder, and that decoder and encoder are inverse up to the
data bits the spec ignores (R84 to R88, R92, R96). -/

namespace Sys2Proof

/-! ### The bytes of the register-level commands (R84, R87) -/

theorem decodePicCommand_icw1 (k : Ctrl) {d : Byte} (h : d.getLsbD 4 = true) :
    decodePicCommand k d = .picIcw1 k d := by
  simp only [decodePicCommand, if_pos h]

theorem decodePicCommand_eoi (k : Ctrl) (x : BitVec 3) :
    decodePicCommand k (0b00100#5 ++ x) = .picEoi k x := by
  have hbyte : (0b00100#5 ++ x).getLsbD 4 = false ∧ (0b00100#5 ++ x) &&& 0xF8 = 0x20 ∧
      (0b00100#5 ++ x).extractLsb' 0 3 = x := by
    revert x; decide
  obtain ⟨h4, heoi, hline⟩ := hbyte
  simp only [decodePicCommand, h4, Bool.false_eq_true, if_false, if_pos heoi, hline]

theorem decodePicCommand_seoi (k : Ctrl) (x : BitVec 3) :
    decodePicCommand k (0b01100#5 ++ x) = .picSeoi k x := by
  have hbyte : (0b01100#5 ++ x).getLsbD 4 = false ∧ (0b01100#5 ++ x) &&& 0xF8 ≠ 0x20 ∧
      (0b01100#5 ++ x) &&& 0xF8 = 0x60 ∧ (0b01100#5 ++ x).extractLsb' 0 3 = x := by
    revert x; decide
  obtain ⟨h4, heoi, hseoi, hline⟩ := hbyte
  simp only [decodePicCommand, h4, Bool.false_eq_true, if_false, if_neg heoi, if_pos hseoi, hline]

theorem isNopCommand_iff (d : Byte) :
    isNopCommand d = true ↔ d.getLsbD 4 = false ∧ d &&& 0xF8 ≠ 0x20 ∧ d &&& 0xF8 ≠ 0x60 := by
  simp [isNopCommand, and_assoc]

/-- The bytes that are no command are the ones left over by the three tests before (R131). -/
theorem decodePicCommand_nop_iff (k : Ctrl) (d : Byte) :
    decodePicCommand k d = .picNopCmd k d ↔ isNopCommand d = true := by
  rw [isNopCommand_iff, decodePicCommand]
  split_ifs with h4 heoi hseoi <;> simp_all

theorem eoiByte_eq {d : Byte} (h : d &&& 0xF8 = 0x20) : 0b00100#5 ++ d.extractLsb' 0 3 = d := by
  revert d; decide

theorem seoiByte_eq {d : Byte} (h : d &&& 0xF8 = 0x60) : 0b01100#5 ++ d.extractLsb' 0 3 = d := by
  revert d; decide

/-- The word of a command byte is the byte, whatever command it is. -/
theorem encode_decodePicCommand (ports : Ports) (k : Ctrl) (d : Byte) :
    encode ports (decodePicCommand k d) = some (byteWriteWord (ports.picCmd k) d) := by
  rw [decodePicCommand]
  split_ifs with h4 h20 h60
  · rfl
  · rw [encode, eoiByte_eq h20]
  · rw [encode, seoiByte_eq h60]
  · rfl

theorem wellFormed_decodePicCommand (k : Ctrl) (d : Byte) : (decodePicCommand k d).wellFormed = true := by
  by_cases hnop : isNopCommand d = true
  · rw [(decodePicCommand_nop_iff k d).2 hnop]; exact hnop
  · have hne := mt (decodePicCommand_nop_iff k d).1 hnop
    rw [decodePicCommand] at hne ⊢
    split_ifs at hne ⊢ with h4
    · exact h4
    · rfl
    · rfl
    · exact absurd rfl hne

theorem encode_decodePicData (ports : Ports) (phase : Fin 4) (k : Ctrl) (d : Byte) :
    encode ports (decodePicData phase k d) = some (byteWriteWord (ports.picData k) d) := by
  fin_cases phase <;> rfl

theorem wellFormed_decodePicData (phase : Fin 4) (k : Ctrl) (d : Byte) :
    (decodePicData phase k d).wellFormed = true := by
  fin_cases phase <;> rfl

theorem encode_decodePitData (ports : Ports) (phase : Fin 2) (c : Chan) (d : Byte) :
    encode ports (decodePitData phase c d) = some (byteWriteWord (ports.pitChan c) d) := by
  fin_cases phase <;> rfl

theorem wellFormed_decodePitData (phase : Fin 2) (c : Chan) (d : Byte) :
    (decodePitData phase c d).wellFormed = true := by
  fin_cases phase <;> rfl

theorem chanOfSelect_three : chanOfSelect 3 = none := rfl

theorem chanOfSelect_selectOfChan (sc : Chan) : chanOfSelect (selectOfChan sc) = some sc := by
  cases sc <;> rfl

/-- A select field names a channel, whose own select field it is, or it is 3 (R87). -/
theorem chanOfSelect_cases (b : BitVec 2) :
    (∃ sc, chanOfSelect b = some sc ∧ b = selectOfChan sc) ∨ (chanOfSelect b = none ∧ b = 3) := by
  have hcodes : ∀ c : BitVec 2, c = 0 ∨ c = 1 ∨ c = 2 ∨ c = 3 := by decide
  rcases hcodes b with rfl | rfl | rfl | rfl
  · exact .inl ⟨.ch0, rfl, rfl⟩
  · exact .inl ⟨.ch1, rfl, rfl⟩
  · exact .inl ⟨.ch2, rfl, rfl⟩
  · exact .inr ⟨rfl, rfl⟩

/-- The fields of a PIT control byte (R87). -/
theorem pitControlByte_fields (sc rw : BitVec 2) (mode : BitVec 3) (bcd : BitVec 1) :
    (pitControlByte sc rw mode bcd).extractLsb' 6 2 = sc ∧ (pitControlByte sc rw mode bcd).extractLsb' 4 2 = rw ∧
    (pitControlByte sc rw mode bcd).extractLsb' 1 3 = mode ∧
    (pitControlByte sc rw mode bcd).extractLsb' 0 1 = bcd := by
  revert sc rw mode bcd; unfold pitControlByte; decide

theorem decodePitControl_ctrl (sc : Chan) {rw : BitVec 2} (h : rw ≠ 0) (mode : BitVec 3) (bcd : BitVec 1) :
    decodePitControl (pitControlByte (selectOfChan sc) rw mode bcd) = .pitCtrl sc rw mode bcd := by
  obtain ⟨hsc, hrw, hmode, hbcd⟩ := pitControlByte_fields (selectOfChan sc) rw mode bcd
  simp only [decodePitControl, hsc, chanOfSelect_selectOfChan, hrw, if_neg h, hmode, hbcd]

theorem latchByte_fields (b : BitVec 2) (x : BitVec 4) :
    (b ++ 0b00#2 ++ x).extractLsb' 6 2 = b ∧ (b ++ 0b00#2 ++ x).extractLsb' 4 2 = 0 ∧
    (b ++ 0b00#2 ++ x).extractLsb' 0 4 = x := by
  revert b x; decide

theorem rdbackByte_fields (x : BitVec 6) :
    (0b11#2 ++ x).extractLsb' 6 2 = 3 ∧ (0b11#2 ++ x).extractLsb' 0 6 = x := by
  revert x; decide

theorem decodePitControl_latch (sc : Chan) (x : BitVec 4) :
    decodePitControl (selectOfChan sc ++ 0b00#2 ++ x) = .pitLatch sc x := by
  obtain ⟨hsc, hrw, hx⟩ := latchByte_fields (selectOfChan sc) x
  simp only [decodePitControl, hsc, chanOfSelect_selectOfChan, hrw, if_true, hx]

theorem decodePitControl_rdback (x : BitVec 6) : decodePitControl (0b11#2 ++ x) = .pitRdback x := by
  obtain ⟨hsc, hx⟩ := rdbackByte_fields x
  simp only [decodePitControl, hsc, chanOfSelect_three, hx]

/-- A control byte is one of the three PIT commands, of its own fields (R161, R163, R164). -/
theorem pitControlByte_cases (d : Byte) :
    (∃ sc rw mode bcd, rw ≠ 0 ∧ d = pitControlByte (selectOfChan sc) rw mode bcd) ∨
    (∃ sc, ∃ x : BitVec 4, d = selectOfChan sc ++ 0b00#2 ++ x) ∨ ∃ x : BitVec 6, d = 0b11#2 ++ x := by
  have hctrl : ∀ d : Byte, d = pitControlByte (d.extractLsb' 6 2) (d.extractLsb' 4 2) (d.extractLsb' 1 3)
      (d.extractLsb' 0 1) := by
    unfold pitControlByte; decide
  have hlatch : ∀ d : Byte, d.extractLsb' 4 2 = 0 → d = d.extractLsb' 6 2 ++ 0b00#2 ++ d.extractLsb' 0 4 := by
    decide
  have hrdback : ∀ d : Byte, d.extractLsb' 6 2 = 3 → d = 0b11#2 ++ d.extractLsb' 0 6 := by decide
  rcases chanOfSelect_cases (d.extractLsb' 6 2) with ⟨sc, _, hsc⟩ | ⟨_, hsc⟩
  · by_cases hrw : d.extractLsb' 4 2 = 0
    · exact .inr (.inl ⟨sc, d.extractLsb' 0 4, hsc ▸ hlatch d hrw⟩)
    · exact .inl ⟨sc, _, _, _, hrw, hsc ▸ hctrl d⟩
  · exact .inr (.inr ⟨_, hrdback d hsc⟩)

theorem encode_decodePitControl (ports : Ports) (d : Byte) :
    encode ports (decodePitControl d) = some (byteWriteWord ports.pitCtrl d) := by
  rcases pitControlByte_cases d with ⟨sc, rw, mode, bcd, hrw, rfl⟩ | ⟨sc, x, rfl⟩ | ⟨x, rfl⟩
  · rw [decodePitControl_ctrl sc hrw]; rfl
  · rw [decodePitControl_latch]; rfl
  · rw [decodePitControl_rdback]; rfl

theorem wellFormed_decodePitControl (d : Byte) : (decodePitControl d).wellFormed = true := by
  rcases pitControlByte_cases d with ⟨sc, rw, mode, bcd, hrw, rfl⟩ | ⟨sc, x, rfl⟩ | ⟨x, rfl⟩
  · rw [decodePitControl_ctrl sc hrw]; simpa [Instr.wellFormed] using hrw
  · rw [decodePitControl_latch]; rfl
  · rw [decodePitControl_rdback]; rfl

/-! ### A byte transaction, by the handler of its slot (R92) -/

section
variable {ctx : DecodeCtx} {p : Port}

theorem decode_byteWriteWord (ctx : DecodeCtx) (p : Port) (d : Byte) :
    decode ctx (byteWriteWord p d) = .ok (decodeByteWrite ctx p (d.setWidth 32)) := by
  rw [decode, byteWriteWord, decodeBus_outb (twIsWrite_packWord ..) (twWidthCode_packWord ..), twPort_packWord,
    twData_packWord]
  rfl

theorem decode_byteReadWord (ctx : DecodeCtx) (p : Port) :
    decode ctx (byteReadWord p) = .ok (decodeByteRead ctx p) := by
  rw [decode, byteReadWord, decodeBus_inb (twIsWrite_packWord ..) (twWidthCode_packWord ..), twPort_packWord]
  rfl

theorem decodeByteWrite_picCmd (own : ctx.Own) (k : Ctrl) (v : DWord) :
    decodeByteWrite ctx (ctx.ports.picCmd k) v = decodePicCommand k (lowByte v) := by
  simp only [decodeByteWrite, own.wrPicCmd, if_true]

theorem decodeByteWrite_picData (own : ctx.Own) (k : Ctrl) (v : DWord) :
    decodeByteWrite ctx (ctx.ports.picData k) v = decodePicData (ctx.picPhase k) k (lowByte v) := by
  simp only [decodeByteWrite, own.wrPicData, if_true]

theorem decodeByteWrite_pitChan (own : ctx.Own) (c : Chan) (v : DWord) :
    decodeByteWrite ctx (ctx.ports.pitChan c) v = decodePitData (ctx.pitPhase c) c (lowByte v) := by
  simp only [decodeByteWrite, own.wrPitChan, if_true]

theorem decodeByteWrite_pitCtrl (own : ctx.Own) (v : DWord) :
    decodeByteWrite ctx ctx.ports.pitCtrl v = decodePitControl (lowByte v) := by
  simp only [decodeByteWrite, own.wrPitCtrl, if_true]

theorem decodeByteWrite_speaker (own : ctx.Own) (v : DWord) :
    decodeByteWrite ctx Config.speakerPort v = .spkWr (lowByte v) := by
  simp only [decodeByteWrite, own.wrSpeaker, if_true]

theorem decodeByteWrite_foreign (h : ctx.wr8 p = none ∨ ∃ id, ctx.wr8 p = some (.other id)) (v : DWord) :
    decodeByteWrite ctx p v = .outb p v := by
  rcases h with h | ⟨id, h⟩ <;> simp only [decodeByteWrite, h]

theorem decodeByteRead_foreign
    (h : (ctx.rd8 p = none ∧ ctx.wr8 p ≠ some .pitCtrl) ∨ ∃ id, ctx.rd8 p = some (.other id)) :
    decodeByteRead ctx p = .inb p := by
  rcases h with ⟨hr, hw⟩ | ⟨id, h⟩
  · simp only [decodeByteRead, hr, hw, and_false, if_false]
  · simp only [decodeByteRead, h]

end

/-- A byte write decodes to the bare transaction, or the block's own handler holds the slot of its own port and
decodes the low byte: one line per handler. -/
theorem decodeByteWrite_cases (ctx : DecodeCtx) (p : Port) (v : DWord) :
    decodeByteWrite ctx p v = .outb p v ∨
    (∃ k, ctx.wr8 p = some (.picCmd k) ∧ p = ctx.ports.picCmd k ∧
      decodeByteWrite ctx p v = decodePicCommand k (lowByte v)) ∨
    (∃ k, ctx.wr8 p = some (.picData k) ∧ p = ctx.ports.picData k ∧
      decodeByteWrite ctx p v = decodePicData (ctx.picPhase k) k (lowByte v)) ∨
    (∃ c, ctx.wr8 p = some (.pitChan c) ∧ p = ctx.ports.pitChan c ∧
      decodeByteWrite ctx p v = decodePitData (ctx.pitPhase c) c (lowByte v)) ∨
    (ctx.wr8 p = some .pitCtrl ∧ p = ctx.ports.pitCtrl ∧ decodeByteWrite ctx p v = decodePitControl (lowByte v)) ∨
    (ctx.wr8 p = some .speaker ∧ p = Config.speakerPort ∧ decodeByteWrite ctx p v = .spkWr (lowByte v)) := by
  cases hw : ctx.wr8 p with
  | none => exact .inl (decodeByteWrite_foreign (.inl hw) v)
  | some h =>
    cases h with
    | picCmd k =>
      by_cases hp : p = ctx.ports.picCmd k
      · exact .inr (.inl ⟨k, rfl, hp, by simp only [decodeByteWrite, hw, if_pos hp]⟩)
      · exact .inl (by simp only [decodeByteWrite, hw, if_neg hp])
    | picData k =>
      by_cases hp : p = ctx.ports.picData k
      · exact .inr (.inr (.inl ⟨k, rfl, hp, by simp only [decodeByteWrite, hw, if_pos hp]⟩))
      · exact .inl (by simp only [decodeByteWrite, hw, if_neg hp])
    | pitChan c =>
      by_cases hp : p = ctx.ports.pitChan c
      · exact .inr (.inr (.inr (.inl ⟨c, rfl, hp, by simp only [decodeByteWrite, hw, if_pos hp]⟩)))
      · exact .inl (by simp only [decodeByteWrite, hw, if_neg hp])
    | pitCtrl =>
      by_cases hp : p = ctx.ports.pitCtrl
      · exact .inr (.inr (.inr (.inr (.inl ⟨rfl, hp, by simp only [decodeByteWrite, hw, if_pos hp]⟩))))
      · exact .inl (by simp only [decodeByteWrite, hw, if_neg hp])
    | speaker =>
      by_cases hp : p = Config.speakerPort
      · exact .inr (.inr (.inr (.inr (.inr ⟨rfl, hp, by simp only [decodeByteWrite, hw, if_pos hp]⟩))))
      · exact .inl (by simp only [decodeByteWrite, hw, if_neg hp])
    | other id => exact .inl (decodeByteWrite_foreign (.inr ⟨id, hw⟩) v)

/-- A byte read decodes to the bare transaction or to the register read of the block's own port. -/
theorem decodeByteRead_cases (ctx : DecodeCtx) (p : Port) :
    decodeByteRead ctx p = .inb p ∨
    (∃ k, ctx.rd8 p = some (.picCmd k) ∧ p = ctx.ports.picCmd k ∧ decodeByteRead ctx p = .picRdCmd k) ∨
    (∃ k, ctx.rd8 p = some (.picData k) ∧ p = ctx.ports.picData k ∧ decodeByteRead ctx p = .picRdImr k) ∨
    (∃ c, ctx.rd8 p = some (.pitChan c) ∧ p = ctx.ports.pitChan c ∧ decodeByteRead ctx p = .pitRd c) ∨
    (ctx.rd8 p = some .speaker ∧ p = Config.speakerPort ∧ decodeByteRead ctx p = .spkRd) ∨
    (ctx.rd8 p = none ∧ p = ctx.ports.pitCtrl ∧ decodeByteRead ctx p = .pitRdCtrl) := by
  cases hr : ctx.rd8 p with
  | none =>
    by_cases hp : p = ctx.ports.pitCtrl ∧ ctx.wr8 p = some .pitCtrl
    · exact .inr (.inr (.inr (.inr (.inr ⟨rfl, hp.1, by simp only [decodeByteRead, hr, if_pos hp]⟩))))
    · exact .inl (by simp only [decodeByteRead, hr, if_neg hp])
  | some h =>
    cases h with
    | picCmd k =>
      by_cases hp : p = ctx.ports.picCmd k
      · exact .inr (.inl ⟨k, rfl, hp, by simp only [decodeByteRead, hr, if_pos hp]⟩)
      · exact .inl (by simp only [decodeByteRead, hr, if_neg hp])
    | picData k =>
      by_cases hp : p = ctx.ports.picData k
      · exact .inr (.inr (.inl ⟨k, rfl, hp, by simp only [decodeByteRead, hr, if_pos hp]⟩))
      · exact .inl (by simp only [decodeByteRead, hr, if_neg hp])
    | pitChan c =>
      by_cases hp : p = ctx.ports.pitChan c
      · exact .inr (.inr (.inr (.inl ⟨c, rfl, hp, by simp only [decodeByteRead, hr, if_pos hp]⟩)))
      · exact .inl (by simp only [decodeByteRead, hr, if_neg hp])
    | speaker =>
      by_cases hp : p = Config.speakerPort
      · exact .inr (.inr (.inr (.inr (.inl ⟨rfl, hp, by simp only [decodeByteRead, hr, if_pos hp]⟩))))
      · exact .inl (by simp only [decodeByteRead, hr, if_neg hp])
    | other id => exact .inl (decodeByteRead_foreign (.inr ⟨id, hr⟩))

/-! ### Decode of encode -/

/-- The word of a register-level write decodes to it, once the slot's own handler reads its byte as it. -/
theorem decode_byteWriteWord_eq {ctx : DecodeCtx} {p : Port} {d : Byte} {i : Instr}
    (h : ∀ v : DWord, lowByte v = d → decodeByteWrite ctx p v = i) :
    decode ctx (byteWriteWord p d) = .ok i := by
  rw [decode_byteWriteWord, h _ (lowByte_setWidth d)]

/-- Settles O1: the word of every operation that has one is a packed transaction; a register-level one reaches
the block's own handler (`DecodeCtx.Own`), which reads the byte back as the same operation. -/
theorem decodeOfEncode : Obligations.DecodeOfEncode := by
  intro ctx i tw own meets wf henc
  cases i <;> simp only [encode, Option.some.injEq, reduceCtorEq] at henc <;> subst henc
  case inb p => exact (decode_byteReadWord ctx p).trans (by rw [decodeByteRead_foreign meets])
  case inw p =>
    rw [decode, decodeBus_inw (twIsWrite_packWord ..) (twWidthCode_packWord ..), twPort_packWord]; rfl
  case ind p =>
    rw [decode, decodeBus_ind (twIsWrite_packWord ..) (twWidthCode_packWord ..), twPort_packWord]; rfl
  case outb p v =>
    rw [decode, decodeBus_outb (twIsWrite_packWord ..) (twWidthCode_packWord ..), twPort_packWord, twData_packWord]
    exact congrArg Except.ok (decodeByteWrite_foreign meets v)
  case outw p v =>
    rw [decode, decodeBus_outw (twIsWrite_packWord ..) (twWidthCode_packWord ..), twPort_packWord, twData_packWord]
    rfl
  case outd p v =>
    rw [decode, decodeBus_outd (twIsWrite_packWord ..) (twWidthCode_packWord ..), twPort_packWord, twData_packWord]
    rfl
  case picIcw1 k d =>
    exact decode_byteWriteWord_eq fun v hv => by rw [decodeByteWrite_picCmd own, hv, decodePicCommand_icw1 k wf]
  case picEoi k x =>
    exact decode_byteWriteWord_eq fun v hv => by rw [decodeByteWrite_picCmd own, hv, decodePicCommand_eoi]
  case picSeoi k x =>
    exact decode_byteWriteWord_eq fun v hv => by rw [decodeByteWrite_picCmd own, hv, decodePicCommand_seoi]
  case picNopCmd k d =>
    exact decode_byteWriteWord_eq fun v hv => by
      rw [decodeByteWrite_picCmd own, hv, (decodePicCommand_nop_iff k d).2 wf]
  case picOcw1 k d | picIcw2 k d | picIcw3 k d | picIcw4 k d =>
    simp only [DecodeCtx.meets] at meets
    exact decode_byteWriteWord_eq fun v hv => by rw [decodeByteWrite_picData own, hv, meets]; rfl
  case picRdImr k =>
    rw [decode_byteReadWord]; simp only [decodeByteRead, own.rdPicData, if_true]
  case picRdCmd k =>
    rw [decode_byteReadWord]; simp only [decodeByteRead, own.rdPicCmd, if_true]
  case pitCtrl sc rw mode bcd =>
    have hrw : rw ≠ 0 := by simpa [Instr.wellFormed] using wf
    exact decode_byteWriteWord_eq fun v hv => by
      rw [decodeByteWrite_pitCtrl own, hv, decodePitControl_ctrl sc hrw]
  case pitLatch sc x =>
    exact decode_byteWriteWord_eq fun v hv => by rw [decodeByteWrite_pitCtrl own, hv, decodePitControl_latch]
  case pitRdback x =>
    exact decode_byteWriteWord_eq fun v hv => by rw [decodeByteWrite_pitCtrl own, hv, decodePitControl_rdback]
  case pitRdCtrl =>
    rw [decode_byteReadWord]; simp only [decodeByteRead, own.rdPitCtrl, own.wrPitCtrl, and_self, if_true]
  case pitLdLo c d | pitLdHi c d =>
    simp only [DecodeCtx.meets] at meets
    exact decode_byteWriteWord_eq fun v hv => by rw [decodeByteWrite_pitChan own, hv, meets]; rfl
  case pitRd c =>
    rw [decode_byteReadWord]; simp only [decodeByteRead, own.rdPitChan, if_true]
  case spkWr d =>
    exact decode_byteWriteWord_eq fun v hv => by rw [decodeByteWrite_speaker own, hv]
  case spkRd =>
    rw [decode_byteReadWord]; simp only [decodeByteRead, own.rdSpeaker, if_true]

/-! ### Encode of decode -/

/-- The upper 19 bits of a word are its direction, width code and port (R81): the data field has no part. -/
theorem high_packWord (tw : TransactionWord) (d : DWord) :
    (packWord (twIsWrite tw) (twWidthCode tw) (twPort tw) d).extractLsb' 32 19 = tw.extractLsb' 32 19 := by
  conv_rhs => rw [← packWord_fields tw]
  apply BitVec.eq_of_getLsbD_eq
  intro i hi
  rw [BitVec.getLsbD_extractLsb', BitVec.getLsbD_extractLsb', packWord_getLsbD, packWord_getLsbD]
  simp

/-- Only the low byte of the data field reaches a register-level command. -/
theorem decodeByteWrite_lowByte {ctx : DecodeCtx} {p : Port} {v : DWord}
    (h : decodeByteWrite ctx p v ≠ .outb p v) :
    (decodeByteWrite ctx p v).wellFormed = true ∧
    encode ctx.ports (decodeByteWrite ctx p v) = some (byteWriteWord p (lowByte v)) ∧
    decodeByteWrite ctx p ((lowByte v).setWidth 32) = decodeByteWrite ctx p v := by
  rcases decodeByteWrite_cases ctx p v with
    e | ⟨k, hw, rfl, e⟩ | ⟨k, hw, rfl, e⟩ | ⟨c, hw, rfl, e⟩ | ⟨hw, rfl, e⟩ | ⟨hw, rfl, e⟩
  · exact absurd e h
  all_goals
    rw [e]
    refine ⟨?_, ?_, by simp only [decodeByteWrite, hw, if_true, lowByte_setWidth]⟩
  · exact wellFormed_decodePicCommand _ _
  · exact encode_decodePicCommand _ _ _
  · exact wellFormed_decodePicData _ _ _
  · exact encode_decodePicData _ _ _ _
  · exact wellFormed_decodePitData _ _ _
  · exact encode_decodePitData _ _ _ _
  · exact wellFormed_decodePitControl _
  · exact encode_decodePitControl _ _
  · rfl
  · rfl

theorem encode_decodeByteRead (ctx : DecodeCtx) (p : Port) :
    (decodeByteRead ctx p).wellFormed = true ∧
    encode ctx.ports (decodeByteRead ctx p) = some (byteReadWord p) := by
  rcases decodeByteRead_cases ctx p with
    e | ⟨k, _, rfl, e⟩ | ⟨k, _, rfl, e⟩ | ⟨c, _, rfl, e⟩ | ⟨_, rfl, e⟩ | ⟨_, rfl, e⟩ <;>
    rw [e] <;> exact ⟨rfl, rfl⟩

/-- Settles O2: by the six transactions; the word found has the direction, width code and port of the given one
(`high_packWord`), and the data field is kept but for what a read or a register-level write ignores. -/
theorem encodeOfDecode : Obligations.EncodeOfDecode := by
  intro ctx i tw hdec
  have hfields := packWord_fields tw
  rw [decode] at hdec
  cases hbus : decodeBus tw with
  | error e => rw [hbus] at hdec; cases hdec
  | ok b =>
    rw [hbus] at hdec
    obtain rfl : refine ctx b = i := Except.ok.inj hdec
    rcases decodeBus_eq_ok hbus with
      ⟨hw, ⟨hc, rfl⟩ | ⟨hc, rfl⟩ | ⟨hc, rfl⟩⟩ | ⟨hw, ⟨hc, rfl⟩ | ⟨hc, rfl⟩ | ⟨hc, rfl⟩⟩
    case inl.inl =>
      obtain ⟨wf, henc⟩ := encode_decodeByteRead ctx (twPort tw)
      exact ⟨wf, _, henc, decode_byteReadWord _ _, by rw [← high_packWord tw 0, hw, hc, byteReadWord]⟩
    case inl.inr.inl =>
      refine ⟨rfl, _, rfl, ?_, by rw [← high_packWord tw 0, hw, hc]⟩
      rw [decode, decodeBus_inw (twIsWrite_packWord ..) (twWidthCode_packWord ..), twPort_packWord]; rfl
    case inl.inr.inr =>
      refine ⟨rfl, _, rfl, ?_, by rw [← high_packWord tw 0, hw, hc]⟩
      rw [decode, decodeBus_ind (twIsWrite_packWord ..) (twWidthCode_packWord ..), twPort_packWord]; rfl
    case inr.inl =>
      rw [hw, hc] at hfields
      by_cases hbare : decodeByteWrite ctx (twPort tw) (twData tw) = .outb (twPort tw) (twData tw)
      · rw [refine, hbare]
        exact ⟨rfl, tw, by rw [encode, hfields], by rw [decode, hbus]; exact congrArg Except.ok hbare, rfl⟩
      · obtain ⟨wf, henc, hlow⟩ := decodeByteWrite_lowByte hbare
        exact ⟨wf, _, henc, by rw [decode_byteWriteWord, hlow, refine],
          by rw [← high_packWord tw ((lowByte (twData tw)).setWidth 32), hw, hc, byteWriteWord]⟩
    case inr.inr.inl | inr.inr.inr =>
      rw [hw, hc] at hfields
      exact ⟨rfl, tw, congrArg some hfields, by rw [decode, hbus]; rfl, rfl⟩

end Sys2Proof
end

section
/-! PROOFS. The whole machine: what an operation that completes has done, said once for each of the Scheduler's
commands (`Completes`), and the invariants that follow from it (10_state R23 to R25, R55; 43_scheduler R191). -/

namespace Sys2Proof.Machine

open Sys2Proof

/-! ### The operations that leave the frame -/

theorem execRegister_eq_next {p : Port} {w : Width} {wr : Option WriteHandler} {rd : Option ReadHandler}
    {s t : State} (h : execRegister p w wr rd s = .next t) :
    s.sched.state = .idle ∧ assocGet (s.bus.table w) p.toNat = none ∧
      t = { s with bus := s.bus.setTable w (assocSet p.toNat ⟨wr, rd⟩ (s.bus.table w)) } := by
  unfold execRegister at h
  split at h
  · cases h
  · rename_i hidle
    split at h
    · cases h
    · rename_i hfree
      cases h
      exact ⟨not_not.1 hidle, hfree, rfl⟩

/-- The state START runs the session from: the map installed, memory sized, the firmware at its origin (R195). -/
def loaded (kb : Nat) (map : Vector DWord 2048) (s : State) : State :=
  guestWrite s.params.firmwareOrigin s.params.firmware (configureMemory (kb * 1024) (installRedirect map s))

theorem execStart_eq_next {kb g : Nat} {map : Vector DWord 2048} {name : Option String} {s t : State}
    (h : execStart kb map g name s = .next t) :
    s.sched.state = .idle ∧ t = runSession g (loaded kb map s) := by
  unfold execStart at h
  split at h
  · rename_i hidle
    obtain ⟨u, hu, h⟩ := andThen_eq_next h
    obtain ⟨_, rfl⟩ := loadFirmware_eq_next hu
    cases h
    exact ⟨hidle, rfl⟩
  · cases h

theorem execRun_eq_next {g : Nat} {s t : State} (h : execRun g s = .next t) :
    s.sched.state = .idle ∧ t = runSession g s := by
  unfold execRun at h
  split at h
  · rename_i hidle; cases h; exact ⟨hidle, rfl⟩
  · cases h

theorem execResetCmd_eq_next {g : Nat} {s t : State} (h : execResetCmd g s = .next t) :
    s.sched.state ≠ .idle ∧ ∃ handle, s.sched.cpu = some handle ∧
      s.mem.inRegion s.params.firmwareOrigin s.params.firmware.length = true ∧
      t = restart handle g (guestWrite s.params.firmwareOrigin s.params.firmware s) := by
  unfold execResetCmd at h
  split at h
  · cases h
  · cases h
  · rename_i handle hcpu hidle
    obtain ⟨u, hu, h⟩ := andThen_eq_next h
    obtain ⟨hr, rfl⟩ := loadFirmware_eq_next hu
    cases h
    exact ⟨hidle, handle, hcpu, hr, rfl⟩

/-- The state CONTINUE leaves (R216). -/
def resumed (s : State) : State :=
  { s with sched := { s.sched with state := .running, debugReq := false, wake := some s.now } }

theorem continueOp_eq_next {s t : State} (h : continueOp s = .next t) : paused s = true ∧ t = resumed s := by
  unfold continueOp at h
  split at h
  · rename_i hp; cases h; exact ⟨hp, rfl⟩
  · cases h

theorem paused_iff (s : State) :
    paused s = true ↔
      s.sched.state = .debugPaused ∨ s.sched.state = .haltedException ∨ s.sched.state = .haltedShutdown := by
  simp [paused, or_assoc]

/-- What an operation that completes has done: a quiet one stays within the frame, the others are REGISTER and the
Scheduler's commands, each with its state. -/
inductive Completes (s : State) : Instr → State → Prop
  | quiet {i t} (hq : quiet i = true) (h : exec i s = .next t) : Completes s i t
  | register {p w wr rd} (idle : s.sched.state = .idle) (free : assocGet (s.bus.table w) p.toNat = none) :
      Completes s (.register p w wr rd)
        { s with bus := s.bus.setTable w (assocSet p.toNat ⟨wr, rd⟩ (s.bus.table w)) }
  | start {kb map g name} (idle : s.sched.state = .idle) :
      Completes s (.start kb map g name) (runSession g (loaded kb map s))
  | run {g} (idle : s.sched.state = .idle) : Completes s (.run g) (runSession g s)
  | cont {t1 b t2 u} (enabled : continuationEnabled t1 s = true) (sample : s.now ≤ t1)
      (burst : runCoreOps b.ops (enterBurst t1 { s with now := t1 }) = .next u) (later : u.now ≤ t2) :
      Completes s (.cont t1 b t2)
        (branchOn (classify u.params.status b.ending) { uartDrain b.drained u with now := t2 })
  | reset {g handle} (notIdle : s.sched.state ≠ .idle) (cpu : s.sched.cpu = some handle)
      (fits : s.mem.inRegion s.params.firmwareOrigin s.params.firmware.length = true) :
      Completes s (.resetCmd g) (restart handle g (guestWrite s.params.firmwareOrigin s.params.firmware s))
  | stepped {i cs ops ending u}
      (hi : i ∈ [.stepCmd ops ending, .stepOver ops ending, .debugCmd (.step ops ending),
        .debugCmd (.stepOver ops ending)])
      (hp : paused s = true) (hu : runCoreOps ops (callCoreAll cs s) = .next u) : Completes s i (redraw u)
  | breakIn {i} (hi : i = .breakCmd ∨ i = .debugCmd .breakIn) : Completes s i (breakOp s)
  | resume {i} (hi : i = .continueCmd ∨ i = .debugCmd .resume) (hp : paused s = true) : Completes s i (resumed s)
  | inspect {c} : Completes s (.debugCmd (.inspect c)) (inspect c s)

theorem completes_of_exec {i : Instr} {s t : State} (h : exec i s = .next t) : Completes s i t := by
  by_cases hq : quiet i = true
  · exact .quiet hq h
  cases i <;> simp only [Machine.quiet, not_true_eq_false] at hq
  case register p w wr rd =>
    obtain ⟨idle, free, rfl⟩ := execRegister_eq_next h
    exact .register idle free
  case start kb map g name =>
    obtain ⟨idle, rfl⟩ := execStart_eq_next (name := name) h
    exact .start idle
  case run g =>
    obtain ⟨idle, rfl⟩ := execRun_eq_next h
    exact .run idle
  case cont t1 b t2 =>
    obtain ⟨u, enabled, sample, burst, later, rfl⟩ := execCont_eq_next h
    exact .cont enabled sample burst later
  case resetCmd g =>
    obtain ⟨notIdle, handle, cpu, fits, rfl⟩ := execResetCmd_eq_next h
    exact .reset notIdle cpu fits
  case stepCmd ops ending =>
    obtain ⟨hp, u, hu, rfl⟩ := stepCore_eq_next h
    exact .stepped (ending := ending) (by simp) hp hu
  case stepOver ops ending =>
    obtain ⟨hp, u, hu, rfl⟩ := stepCore_eq_next h
    exact .stepped (ending := ending) (by simp) hp hu
  case breakCmd => cases h; exact .breakIn (.inl rfl)
  case continueCmd =>
    obtain ⟨hp, rfl⟩ := continueOp_eq_next h
    exact .resume (.inl rfl) hp
  case debugCmd command =>
    cases command with
    | breakIn => cases h; exact .breakIn (.inr rfl)
    | resume =>
      obtain ⟨hp, rfl⟩ := continueOp_eq_next h
      exact .resume (.inr rfl) hp
    | step ops ending =>
      obtain ⟨hp, u, hu, rfl⟩ := stepCore_eq_next h
      exact .stepped (ending := ending) (by simp) hp hu
    | stepOver ops ending =>
      obtain ⟨hp, u, hu, rfl⟩ := stepCore_eq_next h
      exact .stepped (ending := ending) (by simp) hp hu
    | inspect c => cases h; exact .inspect
    | modify c => cases h

/-! ### What a continuation carries from its start to its branch -/

/-- From the entry into the burst on, only the ticks, the core's activity and the clock (R200). -/
theorem moved_burst {t1 : Time} {ops : List CoreOp} {s u : State} (sample : s.now ≤ t1)
    (burst : runCoreOps ops (enterBurst t1 { s with now := t1 }) = .next u) :
    Moved { s with sched := { s.sched with wake := none }
                   coreCalls := s.coreCalls ++ [.run s.sched.cpu s.params.burstBudget] } u := by
  have entered := (enterBurst_frame t1 { s with now := t1 }).moved
  have clock : Moved { s with sched := { s.sched with wake := none }
                              coreCalls := s.coreCalls ++ [.run s.sched.cpu s.params.burstBudget] }
      { s with now := t1
               sched := { s.sched with wake := none }
               coreCalls := s.coreCalls ++ [.run s.sched.cpu s.params.burstBudget] } := moved_clock sample
  exact (clock.trans entered).trans (moved_runCoreOps burst)

theorem continuationEnabled_iff (t1 : Time) (s : State) :
    continuationEnabled t1 s = true ↔ s.sched.state = .running ∧ ∃ w, s.sched.wake = some w ∧ w ≤ t1 := by
  unfold continuationEnabled
  split <;> simp_all

/-- The end of a continuation leaves all but the Scheduler, the host log and the free-value counter (R205 to
R209). -/
theorem branchOn_rest (c : StatusClass) (s : State) :
    branchOn c s =
      { s with hostOut := (branchOn c s).hostOut
               sched := { s.sched with state := (branchOn c s).sched.state, wake := (branchOn c s).sched.wake
                                       debugReq := (branchOn c s).sched.debugReq }
               fresh := (branchOn c s).fresh } := by
  rcases branchOn_cases c s with ⟨_, h⟩ | ⟨_, _, h⟩ | ⟨_, _, h⟩ | ⟨_, _, h⟩ <;> rw [h] <;> rfl

/-! ### The parameters and the tables (R23, R24, R100) -/

theorem breakOp_rest (s : State) :
    breakOp s = { s with sched := { s.sched with debugReq := (breakOp s).sched.debugReq } } := by
  unfold breakOp; split <;> rfl

theorem restart_rest (h g : Nat) (s : State) :
    restart h g s = { s with coreCalls := s.coreCalls ++ [.reset h g], sched := (restart h g s).sched } := by
  unfold restart; dsimp only; split <;> rfl

/-- Settles O15: all that writes the bus is REGISTER and START, both in Idle alone. -/
theorem tablesNeverChangeAfterConstruction : Obligations.TablesNeverChangeAfterConstruction := by
  intro i s t h
  cases completes_of_exec h with
  | quiet hq h => exact ⟨(stays_of_quiet hq h).params, fun _ => (stays_of_quiet hq h).bus⟩
  | register idle _ => exact ⟨rfl, fun hne => absurd idle hne⟩
  | start idle => exact ⟨rfl, fun hne => absurd idle hne⟩
  | run _ => exact ⟨rfl, fun _ => rfl⟩
  | cont _ sample burst _ =>
    have m := (moved_burst sample burst).stays
    rw [branchOn_rest]
    exact ⟨m.params, fun _ => m.bus⟩
  | reset _ _ _ => rw [restart_rest]; exact ⟨rfl, fun _ => rfl⟩
  | stepped _ _ hu =>
    have m := (moved_runCoreOps hu).stays
    exact ⟨m.params, fun _ => m.bus⟩
  | breakIn _ => rw [breakOp_rest]; exact ⟨rfl, fun _ => rfl⟩
  | resume _ _ => exact ⟨rfl, fun _ => rfl⟩
  | inspect => exact ⟨rfl, fun _ => rfl⟩

/-! ### The logs and the clock (R25, D38) -/

/-- The three logs only grow and the clock does not go back. -/
structure Grows (s t : State) : Prop where
  hostOut : ∃ l, t.hostOut = s.hostOut ++ l
  returned : ∃ l, t.returned = s.returned ++ l
  coreCalls : ∃ l, t.coreCalls = s.coreCalls ++ l
  now : s.now ≤ t.now

theorem Moved.grows {s t : State} (m : Moved s t) : Grows s t :=
  ⟨m.stays.hostOut, m.stays.returned, ⟨[], by rw [m.stays.coreCalls, List.append_nil]⟩, m.clock⟩

theorem grows_of_eq {s t : State} (hostOut : t.hostOut = s.hostOut) (returned : t.returned = s.returned)
    (coreCalls : ∃ l, t.coreCalls = s.coreCalls ++ l) (now : t.now = s.now) : Grows s t :=
  ⟨⟨[], by rw [hostOut, List.append_nil]⟩, ⟨[], by rw [returned, List.append_nil]⟩, coreCalls, now.ge⟩

theorem Grows.trans {s t u : State} (a : Grows s t) (b : Grows t u) : Grows s u where
  hostOut := by
    obtain ⟨l, hl⟩ := a.hostOut; obtain ⟨m, hm⟩ := b.hostOut
    exact ⟨l ++ m, by rw [hm, hl, List.append_assoc]⟩
  returned := by
    obtain ⟨l, hl⟩ := a.returned; obtain ⟨m, hm⟩ := b.returned
    exact ⟨l ++ m, by rw [hm, hl, List.append_assoc]⟩
  coreCalls := by
    obtain ⟨l, hl⟩ := a.coreCalls; obtain ⟨m, hm⟩ := b.coreCalls
    exact ⟨l ++ m, by rw [hm, hl, List.append_assoc]⟩
  now := a.now.trans b.now

theorem grows_callCoreAll (cs : List CoreCall) (s : State) : Grows s (callCoreAll cs s) :=
  grows_of_eq rfl rfl ⟨cs, rfl⟩ rfl

theorem grows_redraw (s : State) : Grows s (redraw s) :=
  ⟨⟨_, rfl⟩, ⟨[], (List.append_nil _).symm⟩, ⟨[], (List.append_nil _).symm⟩, le_refl _⟩

/-- From the end of the burst on: the drain, the second clock reading, the branch. -/
theorem grows_end (c : StatusClass) (texts : List String) {t2 : Time} {u : State} (later : u.now ≤ t2) :
    Grows u (branchOn c { uartDrain texts u with now := t2 }) := by
  obtain ⟨l, hl, _⟩ := branchOn_hostOut c { uartDrain texts u with now := t2 }
  have rest := branchOn_rest c { uartDrain texts u with now := t2 }
  refine ⟨⟨texts.map Msg.write ++ l, ?_⟩, ⟨[], ?_⟩, ⟨[], ?_⟩, ?_⟩
  · rw [hl, ← List.append_assoc]; rfl
  · rw [rest, List.append_nil]; rfl
  · rw [rest, List.append_nil]; rfl
  · rw [rest]; exact later

/-- Settles O59: each of the cases only appends (`Grows`). -/
theorem logsOnlyGrowAndClockNeverGoesBack : Obligations.LogsOnlyGrowAndClockNeverGoesBack := by
  intro i s t h
  suffices g : Grows s t from ⟨g.hostOut, g.returned, g.coreCalls, g.now⟩
  cases completes_of_exec h with
  | quiet hq h => exact (stays_of_quiet hq h).moved.grows
  | register _ _ => exact grows_of_eq rfl rfl ⟨[], (List.append_nil _).symm⟩ rfl
  | start _ => exact grows_of_eq rfl rfl ⟨_, List.append_assoc ..⟩ rfl
  | run _ => exact grows_of_eq rfl rfl ⟨_, List.append_assoc ..⟩ rfl
  | cont _ sample burst later =>
    have entry : Grows s { s with sched := { s.sched with wake := none }
                                  coreCalls := s.coreCalls ++ [.run s.sched.cpu s.params.burstBudget] } :=
      grows_of_eq rfl rfl ⟨_, rfl⟩ rfl
    exact (entry.trans (moved_burst sample burst).grows).trans (grows_end _ _ later)
  | reset _ _ _ => rw [restart_rest]; exact grows_of_eq rfl rfl ⟨_, rfl⟩ rfl
  | stepped _ _ hu =>
    exact ((grows_callCoreAll _ s).trans (moved_runCoreOps hu).grows).trans (grows_redraw _)
  | breakIn _ => rw [breakOp_rest]; exact grows_of_eq rfl rfl ⟨[], (List.append_nil _).symm⟩ rfl
  | resume _ _ => exact grows_of_eq rfl rfl ⟨[], (List.append_nil _).symm⟩ rfl
  | inspect => exact ⟨⟨_, List.append_assoc ..⟩, ⟨[], (List.append_nil _).symm⟩, ⟨_, rfl⟩, le_refl _⟩

/-! ### The Scheduler's transitions (R191, R219) -/

/-- Where the branch leads: the first test that holds decides (R205). -/
theorem branchOn_state {c : StatusClass} {s : State} (h : (branchOn c s).sched.state ≠ s.sched.state) :
    (c = .exception ∧ (branchOn c s).sched.state = .haltedException) ∨
    (c ≠ .exception ∧ (c = .debugTrap ∨ s.sched.debugReq = true) ∧ (branchOn c s).sched.state = .debugPaused) := by
  rcases branchOn_cases c s with ⟨hc, e⟩ | ⟨hc, hd, e⟩ | ⟨_, _, e⟩ | ⟨_, _, e⟩
  · exact .inl ⟨hc, by rw [e]; rfl⟩
  · exact .inr ⟨hc, hd, by rw [e]; rfl⟩
  · rw [e] at h; exact absurd rfl h
  · rw [e] at h; exact absurd rfl h

theorem restart_state (handle g : Nat) (s : State) :
    (s.sched.state = .debugPaused ∧ (restart handle g s).sched.state = s.sched.state) ∨
    (s.sched.state ≠ .debugPaused ∧ (restart handle g s).sched.state = .running) := by
  by_cases h : s.sched.state = .debugPaused
  · exact .inl ⟨h, by simp [restart, h]⟩
  · exact .inr ⟨h, by simp [restart, h]⟩

/-- Settles O60: of all that completes, the session's start, the branch, RESET and CONTINUE write the state. -/
theorem schedulerMovesOnlyAsListed : Obligations.SchedulerMovesOnlyAsListed := by
  intro i s t h hne
  cases completes_of_exec h with
  | quiet hq h => exact absurd (stays_of_quiet hq h).state hne
  | register _ _ => exact absurd rfl hne
  | start idle => exact .inl ⟨idle, rfl, .inl ⟨_, _, _, _, rfl⟩⟩
  | run idle => exact .inl ⟨idle, rfl, .inr ⟨_, rfl⟩⟩
  | @cont t1 b t2 u enabled sample burst _ =>
    obtain ⟨running, _⟩ := (continuationEnabled_iff _ _).1 enabled
    have m := (moved_burst sample burst).stays
    have hstate : u.sched.state = s.sched.state := m.state
    have hparams : u.params = s.params := m.params
    rcases branchOn_state (s := { uartDrain b.drained u with now := t2 }) (fun e => hne (e.trans hstate)) with
      ⟨hc, e⟩ | ⟨hc, hd, e⟩
    · rw [hparams] at hc
      exact .inr (.inl ⟨running, e, _, _, _, rfl, hc⟩)
    · rw [hparams] at hc hd
      exact .inr (.inr (.inl ⟨running, e, _, _, _, rfl, hc, hd.imp_right m.debugReq.symm.trans⟩))
  | @reset g handle notIdle _ _ =>
    rcases restart_state handle g (guestWrite s.params.firmwareOrigin s.params.firmware s) with
      ⟨_, e⟩ | ⟨hpause, e⟩
    · exact absurd e hne
    · have halted : s.sched.state = .haltedException ∨ s.sched.state = .haltedShutdown := by
        have hnr : s.sched.state ≠ .running := fun hr => hne (e.trans hr.symm)
        cases hs : s.sched.state <;> simp_all
      exact .inr (.inr (.inr (.inr ⟨halted, e, _, rfl⟩)))
  | stepped _ _ hu => exact absurd (moved_runCoreOps hu).stays.state hne
  | breakIn _ => rw [breakOp_rest] at hne; exact absurd rfl hne
  | resume hi hp => exact .inr (.inr (.inr (.inl ⟨(paused_iff s).1 hp, rfl, hi⟩)))
  | inspect => exact absurd rfl hne

end Sys2Proof.Machine
end

section
/-! PROOFS. The whole machine: the legality invariant holds after power-on and every step keeps it (10_state R55). -/

namespace Sys2Proof.Machine

open Sys2Proof

/-! ### Ways a legal state stays legal -/

/-- Legality reads the PIC's queue, the PIT, the Scheduler, memory, bus, parameters and the inbox. -/
theorem legal_of_eq {s t : State} (h : s.Legal) (pic : t.pic = s.pic) (pit : t.pit = s.pit)
    (sched : t.sched = s.sched) (mem : t.mem = s.mem) (bus : t.bus = s.bus) (params : t.params = s.params)
    (inbox : ∀ r ∈ t.inbox, r ∈ s.inbox) : t.Legal where
  queue := by rw [pic]; exact h.queue
  wake := by rw [sched]; exact h.wake
  period := by rw [sched]; exact h.period
  tone := by rw [pit]; exact h.tone
  toneHz := by rw [pit]; exact h.toneHz
  notShutdown := by rw [sched]; exact h.notShutdown
  cpu := by rw [sched]; exact h.cpu
  unallocated := by rw [sched, mem]; exact h.unallocated
  memory := by rw [mem]; exact h.memory
  own := by rw [bus, params]; exact h.own
  tables := by rw [bus]; exact h.tables
  presented r hr := h.presented r (inbox r hr)

/-- A bus is as legal as another one with the same tables: the redirect bitmap has no part. -/
theorem ownRegistered_of_h8 {p : Ports} {b c : Bus} (h : b.OwnRegistered p) (e : c.h8 = b.h8) :
    c.OwnRegistered p := by
  obtain ⟨picCmd, picData, pitChan, pitCtrl, speaker⟩ := h
  rw [← e] at *
  exact ⟨picCmd, picData, pitChan, pitCtrl, speaker⟩

/-- What the Scheduler's own writes have to give where a session is under way: a handle, and a wake time exactly
while Running. -/
theorem legal_of_session {s t : State} (h : s.Legal) (d : DevicesLegal t) (params : t.params = s.params)
    (tables : ∀ w, t.bus.table w = s.bus.table w) (inbox : t.inbox = s.inbox) (cpu : t.sched.cpu ≠ none)
    (notIdle : t.sched.state ≠ .idle) (notShutdown : t.sched.state ≠ .haltedShutdown)
    (wake : t.sched.wake ≠ none ↔ t.sched.state = .running) : t.Legal where
  queue := d.queue
  wake := wake
  period := d.period
  tone := d.tone
  toneHz := d.toneHz
  notShutdown := notShutdown
  cpu _ := cpu
  unallocated e := absurd e notIdle
  memory := d.memory
  own := by rw [params]; exact ownRegistered_of_h8 h.own (tables .byte)
  tables := by
    have h8 : t.bus.h8 = s.bus.h8 := tables .byte
    have h16 : t.bus.h16 = s.bus.h16 := tables .word
    have h32 : t.bus.h32 = s.bus.h32 := tables .dword
    exact ⟨by rw [h8]; exact h.tables.h8, by rw [h16]; exact h.tables.h16, by rw [h32]; exact h.tables.h32⟩
  presented := by rw [inbox]; exact h.presented

/-! ### REGISTER (R101) -/

/-- Filling a free slot loses no entry. -/
theorem assocGet_assocSet_of_free {l : List (Nat × Slot)} {a b : Nat} {x y : Slot} (free : assocGet l a = none)
    (h : assocGet l b = some x) : assocGet (assocSet a y l) b = some x := by
  have hne : b ≠ a := fun e => by rw [e, free] at h; cases h
  rw [assocGet_assocSet_ne hne, h]

theorem ownRegistered_register {p : Ports} {b : Bus} {w : Width} {a : Nat} {x : Slot}
    (free : assocGet (b.table w) a = none) (h : b.OwnRegistered p) :
    (b.setTable w (assocSet a x (b.table w))).OwnRegistered p := by
  cases w
  case byte =>
    exact ⟨fun k => assocGet_assocSet_of_free free (h.picCmd k), fun k => assocGet_assocSet_of_free free (h.picData k),
      fun c => assocGet_assocSet_of_free free (h.pitChan c), assocGet_assocSet_of_free free h.pitCtrl,
      assocGet_assocSet_of_free free h.speaker⟩
  case word => exact ownRegistered_of_h8 h rfl
  case dword => exact ownRegistered_of_h8 h rfl

theorem canonical_register {b : Bus} (w : Width) (a : Nat) (x : Slot) (h : b.Canonical) :
    (b.setTable w (assocSet a x (b.table w))).Canonical := by
  cases w
  case byte => exact ⟨assocRising_assocSet a x _ h.h8, h.h16, h.h32⟩
  case word => exact ⟨h.h8, assocRising_assocSet a x _ h.h16, h.h32⟩
  case dword => exact ⟨h.h8, h.h16, assocRising_assocSet a x _ h.h32⟩

/-! ### The Scheduler's commands -/

theorem devices_loaded {s : State} (h : DevicesLegal s) (kb : Nat) (map : Vector DWord 2048) :
    DevicesLegal (loaded kb map s) :=
  devices_guestWrite (s := configureMemory (kb * 1024) (installRedirect map s))
    ⟨h.queue, h.period, h.tone, h.toneHz, h.memory⟩ _ _

/-- RUN and the end of START, from any state with legal devices (R195, R198). -/
theorem legal_runSession {s u : State} (h : s.Legal) (d : DevicesLegal u) (g : Nat) (params : u.params = s.params)
    (tables : ∀ w, u.bus.table w = s.bus.table w) (inbox : u.inbox = s.inbox) : (runSession g u).Legal := by
  refine legal_of_session h ⟨d.queue, d.period, d.tone, d.toneHz, d.memory⟩ params tables inbox ?_ ?_ ?_ ?_ <;>
    simp [runSession]

/-- The branch leaves a wake time exactly where it leaves Running (R205 to R209). -/
theorem branchOn_wake {c : StatusClass} {u : State} (running : u.sched.state = .running) :
    (branchOn c u).sched.state ≠ .idle ∧ (branchOn c u).sched.state ≠ .haltedShutdown ∧
    ((branchOn c u).sched.wake ≠ none ↔ (branchOn c u).sched.state = .running) := by
  rcases branchOn_cases c u with ⟨_, e⟩ | ⟨_, _, e⟩ | ⟨_, _, e⟩ | ⟨_, _, e⟩ <;> rw [e]
  · simp [haltOnException]
  · simp [debugPause]
  · simp [rearmAtNextTick, running]
  · simp [rearmNow, running]

theorem devices_branchOn {u : State} (d : DevicesLegal u) (c : StatusClass) : DevicesLegal (branchOn c u) := by
  rw [branchOn_rest]
  exact ⟨d.queue, d.period, d.tone, d.toneHz, d.memory⟩

theorem breakOp_of_not_running {s : State} (h : s.sched.state ≠ .running) : breakOp s = s := if_neg h

theorem breakOp_of_running {s : State} (h : s.sched.state = .running) :
    breakOp s = { s with sched := { s.sched with debugReq := true } } := if_pos h

theorem legal_breakOp {s : State} (h : s.Legal) : (breakOp s).Legal := by
  by_cases running : s.sched.state = .running
  · rw [breakOp_of_running running]
    have notIdle : s.sched.state ≠ .idle := by simp [running]
    exact legal_of_session h ⟨h.queue, h.period, h.tone, h.toneHz, h.memory⟩ rfl (fun _ => rfl) rfl (h.cpu notIdle)
      notIdle h.notShutdown h.wake
  · rw [breakOp_of_not_running running]; exact h

theorem paused_notIdle {s : State} (h : paused s = true) : s.sched.state ≠ .idle := by
  rcases (paused_iff s).1 h with e | e | e <;> simp [e]

/-! ### Every step -/

/-- Every operation keeps legality, if a SETPERIOD is one of the PIT's (R196). -/
theorem legal_of_exec {i : Instr} {s t : State} (h : s.Legal) (hp : ∀ ms, i = .setPeriod ms → ms ≤ 55)
    (e : exec i s = .next t) : t.Legal := by
  have d := h.devices
  cases completes_of_exec e with
  | quiet hq e => exact legal_of_moved h (stays_of_quiet hq e).moved (devices_of_quiet d hq hp e)
  | register _ free =>
    exact { h with own := ownRegistered_register free h.own, tables := canonical_register _ _ _ h.tables }
  | start _ => exact legal_runSession h (devices_loaded d _ _) _ rfl (fun w => by cases w <;> rfl) rfl
  | run _ => exact legal_runSession h d _ rfl (fun _ => rfl) rfl
  | @cont t1 b t2 u enabled sample burst _ =>
    obtain ⟨running, _⟩ := (continuationEnabled_iff _ _).1 enabled
    have m := (moved_burst sample burst).stays
    have cpu : u.sched.cpu ≠ none := by rw [m.cpu]; exact h.cpu (by simp [running])
    have entered : DevicesLegal { s with now := t1 } := ⟨d.queue, d.period, d.tone, d.toneHz, d.memory⟩
    have burstLegal : DevicesLegal u := devices_runCoreOps (devices_enterBurst entered t1) burst
    have drained : DevicesLegal { uartDrain b.drained u with now := t2 } :=
      ⟨burstLegal.queue, burstLegal.period, burstLegal.tone, burstLegal.toneHz, burstLegal.memory⟩
    have hwake := branchOn_wake (c := classify u.params.status b.ending)
      (u := { uartDrain b.drained u with now := t2 }) (m.state.trans running)
    obtain ⟨notIdle, notShutdown, wake⟩ := hwake
    have rest := branchOn_rest (classify u.params.status b.ending) { uartDrain b.drained u with now := t2 }
    refine legal_of_session h (devices_branchOn drained _) ?_ ?_ ?_ ?_ notIdle notShutdown wake
    · rw [rest]; exact m.params
    · intro w; rw [rest]; exact congrArg (Bus.table · w) m.bus
    · rw [rest]; exact m.inbox
    · rw [rest]; exact cpu
  | @reset g handle notIdle cpu _ =>
    have hcpu : (restart handle g (guestWrite s.params.firmwareOrigin s.params.firmware s)).sched.cpu ≠ none := by
      rw [restart]; dsimp only; split <;> simp [cpu]
    have hd : DevicesLegal (restart handle g (guestWrite s.params.firmwareOrigin s.params.firmware s)) := by
      have hw := devices_guestWrite d s.params.firmwareOrigin s.params.firmware
      rw [restart]; dsimp only; split <;> exact ⟨hw.queue, hw.period, hw.tone, hw.toneHz, hw.memory⟩
    refine legal_of_session h hd ?_ ?_ ?_ hcpu ?_ ?_ ?_
    · rw [restart_rest]; rfl
    · intro w; rw [restart_rest]; rfl
    · rw [restart_rest]; rfl
    · rw [restart]; dsimp only; split <;> simp_all
    · rw [restart]; dsimp only; split <;> simp_all
    · rw [restart]; dsimp only; split
      · exact h.wake
      · simp
  | @stepped _ cs _ _ u _ _ hu =>
    have called : (callCoreAll cs s).Legal := legal_of_eq h rfl rfl rfl rfl rfl rfl fun _ hr => hr
    have stepped : u.Legal := legal_of_moved called (moved_runCoreOps hu) (devices_runCoreOps called.devices hu)
    exact legal_of_eq stepped rfl rfl rfl rfl rfl rfl fun _ hr => hr
  | breakIn _ => exact legal_breakOp h
  | resume _ hpaused =>
    exact legal_of_session h ⟨d.queue, d.period, d.tone, d.toneHz, d.memory⟩ rfl (fun _ => rfl) rfl
      (h.cpu (paused_notIdle hpaused)) (by simp [resumed]) (by simp [resumed]) (by simp [resumed])
  | inspect => exact legal_of_eq h rfl rfl rfl rfl rfl rfl fun _ hr => hr

theorem legal_taken {s : State} (h : s.Legal) : (taken s).Legal :=
  legal_of_eq h rfl rfl rfl rfl rfl rfl fun _ hr => List.mem_of_mem_tail hr

/-- SETPERIOD has no word, so that none decodes to it. -/
theorem decode_ne_setPeriod {ctx : DecodeCtx} {tw : TransactionWord} {ms : Nat} :
    decode ctx tw ≠ .ok (.setPeriod ms) := by
  intro h
  obtain ⟨_, _, henc, _⟩ := encodeOfDecode ctx _ tw h
  cases henc

theorem fetch_eq_instr {s : State} {i : Instr} (h : fetch s = .instr i) :
    Request.op i ∈ s.inbox ∨ ∃ tw, decode s.decodeCtx tw = .ok i := by
  unfold fetch at h
  split at h
  · cases h
  · cases h
  · rename_i j rest hinbox
    cases h
    exact .inl (by rw [hinbox]; exact List.mem_cons_self)
  · rename_i tw rest _
    split at h
    · rename_i j hdec
      cases h
      exact .inr ⟨tw, hdec⟩
    · cases h

/-- Settles O58: a step does nothing, moves the clock, or runs the operation presented (`legal_of_exec`), which
is no SETPERIOD but one in the inbox. -/
theorem stepKeepsLegal : Obligations.StepKeepsLegal := by
  intro s t h e
  unfold step at e
  split at e
  · cases e; exact h
  · obtain ⟨_, rfl⟩ := clockTo_eq_next e
    exact legal_of_eq (legal_taken h) rfl rfl rfl rfl rfl rfl fun _ hr => hr
  · rename_i i hfetch
    refine legal_of_exec (legal_taken h) ?_ e
    rintro ms rfl
    rcases fetch_eq_instr hfetch with hmem | ⟨tw, hdec⟩
    · exact h.presented _ hmem ms rfl
    · exact absurd hdec decode_ne_setPeriod
  · cases e

/-! ### After power-on (R47, R50 to R53) -/

/-- A table filled slot by slot. -/
def filled (l : List (Nat × Slot)) : List (Nat × Slot) := l.foldr (fun x t => assocSet x.1 x.2 t) []

theorem assocGet_filled {l : List (Nat × Slot)} (h : (l.map Prod.fst).Nodup) {x : Nat × Slot} (hx : x ∈ l) :
    assocGet (filled l) x.1 = some x.2 := by
  induction l with
  | nil => cases hx
  | cons y rest ih =>
    obtain ⟨hy, hrest⟩ := List.nodup_cons.1 h
    rcases List.mem_cons.1 hx with rfl | hx
    · exact assocGet_assocSet_same _ _ _
    · have hne : x.1 ≠ y.1 := fun e => hy (e ▸ List.mem_map_of_mem hx)
      exact (assocGet_assocSet_ne hne _ _).trans (ih hrest hx)

theorem assocRising_filled (l : List (Nat × Slot)) : assocRising (filled l) = true := by
  induction l with
  | nil => rfl
  | cons y rest ih => exact assocRising_assocSet _ _ _ ih

/-- The nine byte slots of R47, in the order of their registration. -/
def ownPairs (p : Ports) : List (Port × Slot) :=
  [(p.picCmd0, ⟨some (.picCmd .master), some (.picCmd .master)⟩),
   (p.picData0, ⟨some (.picData .master), some (.picData .master)⟩),
   (p.picCmd1, ⟨some (.picCmd .slave), some (.picCmd .slave)⟩),
   (p.picData1, ⟨some (.picData .slave), some (.picData .slave)⟩),
   (p.pitCh0, ⟨some (.pitChan .ch0), some (.pitChan .ch0)⟩),
   (p.pitCh1, ⟨some (.pitChan .ch1), some (.pitChan .ch1)⟩),
   (p.pitCh2, ⟨some (.pitChan .ch2), some (.pitChan .ch2)⟩),
   (p.pitCtrl, ⟨some .pitCtrl, none⟩),
   (Config.speakerPort, ⟨some .speaker, some .speaker⟩)]

theorem ownSlots_eq_filled (p : Ports) : ownSlots p = filled ((ownPairs p).map fun x => (x.1.toNat, x.2)) := rfl

theorem assocRising_ownSlots (p : Ports) : assocRising (ownSlots p) = true := by
  rw [ownSlots_eq_filled]; exact assocRising_filled _

/-- Where the nine ports are distinct, each of them has its own slot. -/
theorem assocGet_ownSlots {p : Ports} (h : ((ownPairs p).map Prod.fst).Nodup) {x : Port × Slot}
    (hx : x ∈ ownPairs p) : assocGet (ownSlots p) x.1.toNat = some x.2 := by
  have hkeys : (((ownPairs p).map fun x => (x.1.toNat, x.2)).map Prod.fst).Nodup := by
    have hmap := h.map (f := BitVec.toNat) fun _ _ e => BitVec.eq_of_toNat_eq e
    rw [List.map_map] at hmap ⊢
    exact hmap
  rw [ownSlots_eq_filled]
  exact assocGet_filled hkeys (x := (x.1.toNat, x.2)) (List.mem_map_of_mem hx)

theorem ownRegistered_powerOn {p : Ports} (h : ((ownPairs p).map Prod.fst).Nodup) :
    (Bus.powerOn p).OwnRegistered p where
  picCmd k := by cases k <;> exact assocGet_ownSlots h (x := (_, _)) (by simp [ownPairs])
  picData k := by cases k <;> exact assocGet_ownSlots h (x := (_, _)) (by simp [ownPairs])
  pitChan c := by cases c <;> exact assocGet_ownSlots h (x := (_, _)) (by simp [ownPairs])
  pitCtrl := assocGet_ownSlots h (x := (_, _)) (by simp [ownPairs])
  speaker := assocGet_ownSlots h (x := (Config.speakerPort, _)) (by simp [ownPairs])

theorem legal_powerOn (params : Params) (imr : Byte) (h : ((ownPairs params.ports).map Prod.fst).Nodup) :
    (State.powerOn params imr).Legal where
  queue _ he := by cases he
  wake := by simp [State.powerOn, Sched.powerOn]
  period _ hp := by cases hp
  tone hne := absurd rfl hne
  toneHz _ hf := by cases hf
  notShutdown := by simp [State.powerOn, Sched.powerOn]
  cpu hne := absurd rfl hne
  unallocated _ := rfl
  memory := rfl
  own := ownRegistered_powerOn h
  tables := ⟨assocRising_ownSlots _, rfl, rfl⟩
  presented _ hr := by cases hr

/-- Settles O57: nothing runs, nothing is queued, no tone sounds, and the nine slots are the block's own
(`ownRegistered_powerOn`); the default ports are distinct. -/
theorem legalAtReset : Obligations.LegalAtReset :=
  ⟨fun params imr h => legal_powerOn params imr h, legal_powerOn _ _ (by decide)⟩

end Sys2Proof.Machine
end

section
/-! PROOFS. One step, and the register-level commands as the bus transactions that carry them (R5, R80, R92). -/

namespace Sys2Proof.Machine

open Sys2Proof

/-! ### Taking the next presented thing -/

section
variable {s : State} {rest : List Request}

theorem taken_of_inbox {r : Request} (h : s.inbox = r :: rest) : taken s = { s with inbox := rest } := by
  rw [taken, h, List.tail_cons]

theorem fetch_op {i : Instr} (h : s.inbox = .op i :: rest) : fetch s = .instr i := by
  simp only [fetch, h]

theorem fetch_clock {t : Time} (h : s.inbox = .clock t :: rest) : fetch s = .clock t := by
  simp only [fetch, h]

theorem fetch_word {tw : TransactionWord} {i : Instr} (h : s.inbox = .word tw :: rest)
    (hdec : decode s.decodeCtx tw = .ok i) : fetch s = .instr i := by
  simp only [fetch, h, hdec]

theorem fetch_word_error {tw : TransactionWord} {e : DecodeError} (h : s.inbox = .word tw :: rest)
    (hdec : decode s.decodeCtx tw = .error e) : fetch s = .notATransaction := by
  simp only [fetch, h, hdec]

theorem step_instr {i : Instr} (h : fetch s = .instr i) : step s = exec i (taken s) := by
  simp only [step, h]

theorem step_clock {t : Time} (h : fetch s = .clock t) : step s = clockTo t (taken s) := by
  simp only [step, h]

end

/-- Settles O5: by the head of the inbox; a word presented to `s` meets the slots and phases of `s`. -/
theorem stepRunsDecodedInstruction : Obligations.StepRunsDecodedInstruction := by
  refine ⟨fun s rest tw i h hdec => ?_, fun s rest i h => ?_, fun s nbits w i hdec => ?_⟩
  · rw [step_instr (fetch_word h hdec), taken_of_inbox h]
  · rw [step_instr (fetch_op h), taken_of_inbox h]
  · have hfetch : fetch (s.withFetchWord nbits w) = .instr i := fetch_word (rest := s.inbox) rfl hdec
    rw [step_instr hfetch]; rfl

/-- Settles O6: nothing presented, a clock reading on either side of the present one, or width code 3. -/
theorem stepWithoutInstruction : Obligations.StepWithoutInstruction := by
  refine ⟨fun s h => ?_, fun s rest t h hle => ?_, fun s rest t h hlt => ?_, fun s rest tw h hc => ?_⟩
  · simp only [step, fetch, h]
  · rw [step_clock (fetch_clock h), taken_of_inbox h]; exact if_pos hle
  · rw [step_clock (fetch_clock h), taken_of_inbox h]; exact if_neg (not_le.2 hlt)
  · have hdec : decode s.decodeCtx tw = .error .widthCodeThree := by
      rw [decode, decodeBus_widthCode_three hc]; rfl
    simp only [step, fetch_word_error h hdec]

/-! ### What a register-level write does, by the device its byte goes to (R92) -/

theorem exec_decodePicCommand (k : Ctrl) (d : Byte) (s : State) :
    exec (decodePicCommand k d) s = .next (forward (s.params.ports.picCmd k) d (picCommandWrite k d s)) := by
  rw [decodePicCommand, picCommandWrite]
  split_ifs with h4 h20 h60
  · exact if_pos (decodePicCommand_icw1 k h4)
  · rw [exec, execPicEoi, eoiByte_eq h20]
  · rw [exec, execPicSeoi, seoiByte_eq h60]
  · have hnop := (isNopCommand_iff d).2 ⟨Bool.eq_false_iff.2 h4, h20, h60⟩
    exact if_pos ((decodePicCommand_nop_iff k d).2 hnop)

theorem exec_decodePicData (k : Ctrl) (d : Byte) (s : State) :
    exec (decodePicData (s.pic.ctrl k).phase k d) s =
      .next (forward (s.params.ports.picData k) d (picDataWrite k d s)) := by
  rw [picDataWrite]
  split <;> rename_i hphase <;> rw [hphase] <;> exact if_pos hphase

theorem exec_decodePitData (c : Chan) (d : Byte) (s : State) :
    exec (decodePitData (s.pit.chan c).phase c d) s =
      .next (forward (s.params.ports.pitChan c) d (pitDataWrite c d s)) := by
  rw [pitDataWrite]
  split <;> rename_i hphase <;> rw [hphase] <;> exact if_pos hphase

theorem pitControlWrite_ctrl (sc : Chan) {rw : BitVec 2} (h : rw ≠ 0) (mode : BitVec 3) (bcd : BitVec 1)
    (s : State) :
    pitControlWrite (pitControlByte (selectOfChan sc) rw mode bcd) s =
      pitCtrlEffect sc (pitControlByte (selectOfChan sc) rw mode bcd) s := by
  obtain ⟨hsc, hrw, _⟩ := pitControlByte_fields (selectOfChan sc) rw mode bcd
  simp only [pitControlWrite, hsc, chanOfSelect_selectOfChan, hrw, if_neg h]

theorem pitControlWrite_latch (sc : Chan) (x : BitVec 4) (s : State) :
    pitControlWrite (selectOfChan sc ++ 0b00#2 ++ x) s = s := by
  obtain ⟨hsc, hrw, _⟩ := latchByte_fields (selectOfChan sc) x
  simp only [pitControlWrite, hsc, chanOfSelect_selectOfChan, hrw, if_true]

theorem pitControlWrite_rdback (x : BitVec 6) (s : State) : pitControlWrite (0b11#2 ++ x) s = s := by
  simp only [pitControlWrite, (rdbackByte_fields x).1, chanOfSelect_three]

theorem exec_decodePitControl (d : Byte) (s : State) :
    exec (decodePitControl d) s = .next (forward s.params.ports.pitCtrl d (pitControlWrite d s)) := by
  rcases pitControlByte_cases d with ⟨sc, rw, mode, bcd, hrw, rfl⟩ | ⟨sc, x, rfl⟩ | ⟨x, rfl⟩
  · rw [decodePitControl_ctrl sc hrw, pitControlWrite_ctrl sc hrw]; exact if_neg hrw
  · rw [decodePitControl_latch, pitControlWrite_latch]; rfl
  · rw [decodePitControl_rdback, pitControlWrite_rdback]; rfl

/-! ### The byte transactions, by the handler of their slot (R104, R107) -/

theorem lowByte_maskTo (v : DWord) : lowByte (maskTo .byte v) = lowByte v := by
  apply BitVec.eq_of_getLsbD_eq
  intro i hi
  have hbit : (0xFF : DWord).getLsbD i = true := by interval_cases i <;> rfl
  simp only [maskTo, lowByte, BitVec.getLsbD_extractLsb', BitVec.getLsbD_and, Nat.zero_add, hbit, Bool.and_true]

/-- OUTB to a slot of one of the block's own handlers: what the handler does with the byte, then the redirection. -/
theorem exec_outb_own {p : Port} {h : WriteHandler} {s : State} (hw : s.bus.wrH .byte p = some h)
    (own : ∀ id, h ≠ .other id) (v : DWord) :
    exec (.outb p v) s = .next (forward p (lowByte v) (ownWrite h (lowByte v) s)) := by
  have hcall : callWrite h .byte p (maskTo .byte v) s = .next (ownWrite h (lowByte v) s) := by
    cases h
    case other id => exact absurd rfl (own id)
    all_goals rw [callWrite, lowByte_maskTo]
  rw [exec, execOutb, ioWrite, busWriteByte, hw]
  exact congrArg (andThen · _) hcall

/-- INB from a slot with a read handler whose value and state are `r`. -/
theorem exec_inb_handler {p : Port} {h : ReadHandler} {s : State} {r : DWord × State}
    (hr : s.bus.rdH .byte p = some h) (hcall : callRead h .byte p s = .next r) :
    exec (.inb p) s = .next (reply (.data .byte ((lowByte r.1).setWidth 32)) r.2) := by
  simp only [exec, execInb, ioReadReply, ioRead, busReadByte, hr, hcall, andThen_next]

theorem exec_inb_none {p : Port} {s : State} (hr : s.bus.rdH .byte p = none) :
    exec (.inb p) s = .next (reply (.data .byte 0xFF) s) := by
  simp only [exec, execInb, ioReadReply, ioRead, busReadByte, hr, andThen_next]; rfl

/-- Settles O7: only byte transactions have a second stage; there the row and the transaction both do what the
slot's own handler does with the byte, or return what it returns. -/
theorem registerCommandIsItsBusTransaction : Obligations.RegisterCommandIsItsBusTransaction := by
  intro s tw b i hbus hdec
  rw [decode, hbus] at hdec
  obtain rfl : refine s.decodeCtx b = i := Except.ok.inj hdec
  cases b
  case outb p v =>
    rw [refine]
    rcases decodeByteWrite_cases s.decodeCtx p v with
      e | ⟨k, hw, rfl, e⟩ | ⟨k, hw, rfl, e⟩ | ⟨c, hw, rfl, e⟩ | ⟨hw, rfl, e⟩ | ⟨hw, rfl, e⟩ <;> rw [e]
    · rw [exec_outb_own hw nofun, exec_decodePicCommand]; rfl
    · rw [exec_outb_own hw nofun]; exact exec_decodePicData k (lowByte v) s
    · rw [exec_outb_own hw nofun]; exact exec_decodePitData c (lowByte v) s
    · rw [exec_outb_own hw nofun, exec_decodePitControl]; rfl
    · rw [exec_outb_own hw nofun]; rfl
  case inb p =>
    rw [refine]
    rcases decodeByteRead_cases s.decodeCtx p with
      e | ⟨k, hr, rfl, e⟩ | ⟨k, hr, rfl, e⟩ | ⟨c, hr, rfl, e⟩ | ⟨hr, rfl, e⟩ | ⟨hr, rfl, e⟩ <;> rw [e]
    · rw [exec_inb_handler hr rfl, lowByte_setWidth]; rfl
    · rw [exec_inb_handler hr rfl, lowByte_setWidth]; rfl
    · rw [exec_inb_handler hr rfl, lowByte_setWidth]; rfl
    · rw [exec_inb_handler hr rfl, lowByte_setWidth]; rfl
    · rw [exec_inb_none hr]; rfl
  all_goals rfl

end Sys2Proof.Machine
end

section
/-! PROOFS. The family 40_bus: dispatch at the three widths, the word fallback, redirection, registration (R101 to
R110). -/

namespace Sys2Proof.Machine

open Sys2Proof

/-! ### Masks as bit fields (R83) -/

theorem setWidth_lowByte (x : DWord) : (lowByte x).setWidth 32 = x &&& 0xFF := by
  have hbit : ∀ i, i < 32 → (0xFF : DWord).getLsbD i = decide (i < 8) := by decide
  apply BitVec.eq_of_getLsbD_eq
  intro i hi
  simp only [lowByte, BitVec.getLsbD_setWidth, BitVec.getLsbD_extractLsb', BitVec.getLsbD_and, hbit i hi,
    Nat.zero_add, hi, decide_true, Bool.true_and, Bool.and_comm]

theorem setWidth_setWidth_word (x : DWord) : (x.setWidth 16).setWidth 32 = x &&& 0xFFFF := by
  have hbit : ∀ i, i < 32 → (0xFFFF : DWord).getLsbD i = decide (i < 16) := by decide
  apply BitVec.eq_of_getLsbD_eq
  intro i hi
  simp only [BitVec.getLsbD_setWidth, BitVec.getLsbD_and, hbit i hi, hi, decide_true, Bool.true_and, Bool.and_comm]

theorem setWidth_joinHalves (lo hi : Byte) :
    (joinHalves lo hi).setWidth 32 = lo.setWidth 32 ||| (hi.setWidth 32 <<< 8) := by
  apply BitVec.eq_of_getLsbD_eq
  intro i h
  simp only [joinHalves, BitVec.getLsbD_setWidth, BitVec.getLsbD_append, BitVec.getLsbD_or,
    BitVec.getLsbD_shiftLeft]
  by_cases h8 : i < 8
  · simp [h8, h]
  · have hlo : lo.getLsbD i = false := BitVec.getLsbD_of_ge _ _ (by omega)
    simp [h8, h, hlo, show i - 8 < 32 by omega]

/-! ### Redirection (R103) -/

theorem forwarded_of_bus {s t : State} (h : t.bus = s.bus) (p : Port) (d : Byte) :
    t.forwarded p d = s.forwarded p d := by
  rw [State.forwarded, State.forwarded, h]

/-! ### Writes (R104 to R106) -/

section
variable {p : Port} {v : DWord} {s : State}

theorem exec_outb_none (hw : s.bus.wrH .byte p = none) :
    exec (.outb p v) s = .next { s with hostOut := s.hostOut ++ s.forwarded p (lowByte v) } := by
  rw [exec, execOutb, ioWrite, busWriteByte, hw, forward_eq]

theorem exec_outb_handler {h : WriteHandler} (hw : s.bus.wrH .byte p = some h) :
    exec (.outb p v) s =
      andThen (callWrite h .byte p (maskTo .byte v) s) fun t =>
        .next { t with hostOut := t.hostOut ++ s.forwarded p (lowByte v) } := by
  rw [exec, execOutb, ioWrite, busWriteByte, hw]
  cases hcall : callWrite h .byte p (maskTo .byte v) s with
  | next t =>
    have hbus := (frame_callWrite hcall).bus
    simp only [hcall, andThen_next, forward_eq, forwarded_of_bus hbus]
  | fault e => simp only [hcall, andThen_fault]
  | refused e => simp only [hcall, andThen_refused]

theorem exec_outw_handler {h : WriteHandler} (hw : s.bus.wrH .word p = some h) :
    exec (.outw p v) s = callWrite h .word p (maskTo .word v) s := by
  simp only [exec, execOutw, ioWrite, busWriteWord, hw]

theorem exec_outw_fallback (hw : s.bus.wrH .word p = none) (hp : p.toNat < 1024) :
    exec (.outw p v) s =
      andThen (exec (.outb p ((lowHalf v).setWidth 32)) s) (exec (.outb (p + 1) ((highHalf v).setWidth 32))) := by
  have hlimit : p.toNat < Config.wordFallbackLimit := hp
  simp only [exec, execOutw, ioWrite, busWriteWord, hw, if_pos hlimit]
  rfl

theorem exec_outw_none (hw : s.bus.wrH .word p = none) (hp : 1024 ≤ p.toNat) : exec (.outw p v) s = .next s := by
  have hlimit : ¬ p.toNat < Config.wordFallbackLimit := not_lt.2 hp
  simp only [exec, execOutw, ioWrite, busWriteWord, hw, if_neg hlimit]

theorem exec_outd_handler {h : WriteHandler} (hw : s.bus.wrH .dword p = some h) :
    exec (.outd p v) s = callWrite h .dword p v s := by
  simp only [exec, execOutd, ioWrite, busWriteDword, hw, maskTo]

theorem exec_outd_none (hw : s.bus.wrH .dword p = none) : exec (.outd p v) s = .next s := by
  simp only [exec, execOutd, ioWrite, busWriteDword, hw]

end

/-- Settles O8: by the slot; the handler leaves the bus alone, so that the redirection is that of the state
before. -/
theorem byteWriteRunsHandlerThenForwards : Obligations.ByteWriteRunsHandlerThenForwards := by
  intro p v s
  refine ⟨?_, ioWrite_completes (w := .byte)⟩
  cases hw : s.bus.wrH .byte p with
  | none => exact exec_outb_none hw
  | some h =>
    rw [exec_outb_handler hw, maskTo]
    dsimp only
    cases callWrite h .byte p (v &&& 0xFF) s <;> rfl

/-- Settles O9: by the word slot and the fallback's limit; the fallback is two byte writes. -/
theorem wordWriteFallsBackToBytes : Obligations.WordWriteFallsBackToBytes := by
  intro p v s
  refine ⟨fun h hw => exec_outw_handler hw, fun hw hp => ?_, exec_outw_none, ioWrite_completes (w := .word)⟩
  rw [exec_outw_fallback hw hp, lowHalf, highHalf]
  cases exec (.outb p ((v.extractLsb' 0 8).setWidth 32)) s <;> rfl

/-! ### Reads (R107 to R109) -/

section
variable {p : Port} {s : State}

theorem ioRead_byte_none (hr : s.bus.rdH .byte p = none) : ioRead .byte p s = .next (0xFF, s) := by
  simp only [ioRead, busReadByte, hr, andThen_next]; rfl

theorem ioRead_byte_handler {h : ReadHandler} (hr : s.bus.rdH .byte p = some h) :
    ioRead .byte p s = andThen (callRead h .byte p s) fun r => .next (r.1 &&& 0xFF, r.2) := by
  simp only [ioRead, busReadByte, hr]
  cases callRead h .byte p s with
  | next r => simp only [andThen_next, setWidth_lowByte]
  | fault e => rfl
  | refused e => rfl

theorem ioRead_word_handler {h : ReadHandler} (hr : s.bus.rdH .word p = some h) :
    ioRead .word p s = andThen (callRead h .word p s) fun r => .next (r.1 &&& 0xFFFF, r.2) := by
  simp only [ioRead, busReadWord, hr]
  cases callRead h .word p s with
  | next r => simp only [andThen_next, setWidth_setWidth_word]
  | fault e => rfl
  | refused e => rfl

/-- The word fallback: two byte reads, joined (D5). -/
theorem ioRead_word_fallback (hr : s.bus.rdH .word p = none) (hp : p.toNat < 1024) :
    ioRead .word p s = andThen (ioRead .byte p s) fun lo => andThen (ioRead .byte (p + 1) lo.2) fun hi =>
      .next (lo.1 ||| (hi.1 <<< 8), hi.2) := by
  have hlimit : p.toNat < Config.wordFallbackLimit := hp
  simp only [ioRead, busReadWord, hr, if_pos hlimit]
  cases busReadByte p s with
  | next lo =>
    simp only [andThen_next]
    cases busReadByte (p + 1) lo.2 with
    | next hi => simp only [andThen_next, setWidth_joinHalves]
    | fault e => rfl
    | refused e => rfl
  | fault e => rfl
  | refused e => rfl

theorem ioRead_word_none (hr : s.bus.rdH .word p = none) (hp : 1024 ≤ p.toNat) :
    ioRead .word p s = .next (0xFFFF, s) := by
  have hlimit : ¬ p.toNat < Config.wordFallbackLimit := not_lt.2 hp
  simp only [ioRead, busReadWord, hr, if_neg hlimit, andThen_next]; rfl

theorem ioRead_dword_handler {h : ReadHandler} (hr : s.bus.rdH .dword p = some h) :
    ioRead .dword p s = callRead h .dword p s := by
  simp only [ioRead, busReadDword, hr]

theorem ioRead_dword_none (hr : s.bus.rdH .dword p = none) : ioRead .dword p s = .next (0xFFFFFFFF, s) := by
  simp only [ioRead, busReadDword, hr]

/-- A read hands its value back, whatever the width (log 20). -/
theorem ioReadReply_next {w : Width} {r : DWord × State} (h : ioRead w p s = .next r) :
    ioReadReply w p s = .next { r.2 with returned := r.2.returned ++ [.data w r.1] } := by
  rw [ioReadReply, h]; rfl

end

/-- Settles O11: by the slot; a handler's value is cut to its low byte. -/
theorem byteReadReturnsMaskedOrAllOnes : Obligations.ByteReadReturnsMaskedOrAllOnes := by
  intro p s
  refine ⟨?_, ioReadReply_completes⟩
  rw [exec, execInb]
  cases hr : s.bus.rdH .byte p with
  | none => exact ioReadReply_next (ioRead_byte_none hr)
  | some h =>
    rw [ioReadReply, ioRead_byte_handler hr]
    dsimp only
    cases callRead h .byte p s <;> rfl

/-- Settles O10: by the dword slot alone. -/
theorem dwordAccessNeverSplit : Obligations.DwordAccessNeverSplit := by
  intro p v s
  refine ⟨?write, ioWrite_completes (w := .dword), ?read, ioReadReply_completes⟩
  case write =>
    cases hw : s.bus.wrH .dword p with
    | none => exact exec_outd_none hw
    | some h => exact exec_outd_handler hw
  case read =>
    rw [exec, execInd]
    cases hr : s.bus.rdH .dword p with
    | none => exact ioReadReply_next (ioRead_dword_none hr)
    | some h =>
      rw [ioReadReply, ioRead_dword_handler hr]
      dsimp only
      cases callRead h .dword p s <;> rfl

/-- Settles O12: the byte read of the statement is `ioRead .byte`, and the fallback is two of them. -/
theorem wordReadJoinsLowAndHighByte : Obligations.WordReadJoinsLowAndHighByte := by
  intro p s inb
  have hinb : inb = ioRead .byte := by
    funext q u
    simp only [inb]
    cases hr : u.bus.rdH .byte q with
    | none => rw [ioRead_byte_none hr]
    | some h =>
      rw [ioRead_byte_handler hr]
      dsimp only
      cases callRead h .byte q u <;> rfl
  rw [hinb]
  refine ⟨fun h hr => ?_, fun hr hp => ?_, fun hr hp => ?_, ioReadReply_completes⟩ <;> rw [exec, execInw]
  · rw [ioReadReply, ioRead_word_handler hr]
    cases callRead h .word p s <;> rfl
  · rw [ioReadReply, ioRead_word_fallback hr hp]
    cases ioRead .byte p s with
    | next lo =>
      simp only [andThen_next]
      cases ioRead .byte (p + 1) lo.2 <;> rfl
    | fault e => rfl
    | refused e => rfl
  · exact ioReadReply_next (ioRead_word_none hr hp)

/-- Settles O13: the cases of a dispatch with no handler; a flagged port still gets its byte forwarded. -/
theorem unmappedPortsReadOnesAndDiscardWrites : Obligations.UnmappedPortsReadOnesAndDiscardWrites := by
  intro p v s
  refine ⟨fun hr => ioReadReply_next (ioRead_byte_none hr), fun hr hbytes => ?_,
    fun hr => ioReadReply_next (ioRead_dword_none hr), exec_outb_none, fun hw hp hlo hhi => ?_, exec_outw_none,
    exec_outd_none⟩
  · by_cases hp : p.toNat < 1024
    · obtain ⟨hlo, hhi⟩ := hbytes hp
      have hread : ioRead .word p s = .next (0xFFFF, s) := by
        have hjoin : (0xFF : DWord) ||| (0xFF : DWord) <<< 8 = 0xFFFF := by decide
        rw [ioRead_word_fallback hr hp, ioRead_byte_none hlo, andThen_next, ioRead_byte_none hhi, andThen_next]
        exact congrArg (fun v => Host.Outcome.next (v, s)) hjoin
      exact ioReadReply_next hread
    · exact ioReadReply_next (ioRead_word_none hr (not_lt.1 hp))
  · have hhigh : ∀ l, ({ s with hostOut := l } : State).bus.wrH .byte (p + 1) = none := fun _ => hhi
    rw [exec_outw_fallback hw hp, exec_outb_none hlo, andThen_next, exec_outb_none (hhigh _), lowByte_setWidth,
      lowByte_setWidth, ← List.append_assoc]
    rfl

/-! ### Registration (R101, R102) -/

theorem assocGet_table_register {b : Bus} {w x : Width} {a q : Nat} {slot : Slot} (h : (x, q) ≠ (w, a)) :
    assocGet ((b.setTable w (assocSet a slot (b.table w))).table x) q = assocGet (b.table x) q := by
  by_cases hx : x = w
  · subst hx
    have hq : q ≠ a := fun e => h (by rw [e])
    rw [setTable_table, assocGet_assocSet_ne hq]
  · rw [setTable_table_ne hx]

theorem exec_register_free {p : Port} {w : Width} {s : State} (idle : s.sched.state = .idle)
    (free : assocGet (s.bus.table w) p.toNat = none) (wr : Option WriteHandler) (rd : Option ReadHandler) :
    exec (.register p w wr rd) s =
      .next { s with bus := s.bus.setTable w (assocSet p.toNat ⟨wr, rd⟩ (s.bus.table w)) } := by
  simp only [exec, execRegister, idle, ne_eq, not_true_eq_false, if_false, free]

/-- Settles O14: by the Scheduler's state and the slot; other slots are other keys or other tables. -/
theorem registerFillsFreeSlotOnly : Obligations.RegisterFillsFreeSlotOnly := by
  intro p w wr rd s
  refine ⟨fun idle free => ?_, fun idle occupied => ?_, fun notIdle => ?_⟩
  · have here : assocGet ((s.bus.setTable w (assocSet p.toNat ⟨wr, rd⟩ (s.bus.table w))).table w) p.toNat =
        some ⟨wr, rd⟩ := by
      rw [setTable_table, assocGet_assocSet_same]
    have hother : ∀ (x : Width) (q : Port), (x, q) ≠ (w, p) → (x, q.toNat) ≠ (w, p.toNat) := by
      intro x q hne e
      obtain ⟨hx, hq⟩ := Prod.mk.inj e
      exact hne (by rw [hx, BitVec.eq_of_toNat_eq hq])
    refine ⟨_, exec_register_free idle free wr rd, here, fun x q hne => assocGet_table_register hne, ?_, ?_,
      fun x q hne => ?_, ?_, rfl⟩
    · rw [Bus.wrH, here]; rfl
    · rw [Bus.rdH, here]; rfl
    · have there := assocGet_table_register (b := s.bus) (slot := ⟨wr, rd⟩) (hother x q hne)
      exact ⟨congrArg (Option.bind · Slot.wr) there, congrArg (Option.bind · Slot.rd) there⟩
    · cases w <;> rfl
  · obtain ⟨slot, hslot⟩ := Option.ne_none_iff_exists'.1 occupied
    simp only [exec, execRegister, idle, ne_eq, not_true_eq_false, if_false, hslot]
  · exact if_pos notIdle

end Sys2Proof.Machine
end

section
/-! PROOFS. The family 41_pic: arbitration against the independent account of `Pic.served` (R136 to R141), and the
operations that arbitrate. -/

namespace Sys2Proof.Machine

open Sys2Proof

/-! ### Arbitration -/

/-- The model's scan serves the winner (R136, R139). -/
theorem arbitrate_eq_served (p : Pic) : p.arbitrate = p.served := by
  rw [arbitrate_eq_find, Pic.served, Pic.winner]
  cases priorityOrder.find? p.canWin <;> rfl

theorem raise_eq_raised (p : Pic) (n : Fin 16) (c : Nat) : p.raise n c = p.raised n c := by
  rw [Pic.raise, arbitrate_eq_served]; rfl

theorem mem_priorityOrder (k : Ctrl) (i : Fin 8) : (k, i) ∈ priorityOrder := by
  revert i; cases k <;> decide

/-- A line wins where its controller takes part and it is eligible (R138 to R140). -/
theorem canWin_iff (p : Pic) (k : Ctrl) (i : Fin 8) :
    p.canWin (k, i) = true ↔ p.pathOpen k ∧ p.eligible k i = true := by
  cases k <;> simp [Pic.canWin, Pic.pathOpen, Controller.masked, and_assoc]

theorem arbitrate_of_none {p : Pic} (h : ∀ k i, p.pathOpen k → p.eligible k i = false) : p.arbitrate = p := by
  rcases arbitrate_cases p with ⟨e, _⟩ | ⟨k, i, _, hw, _⟩
  · exact e
  · obtain ⟨hopen, helig⟩ := (canWin_iff p k i).1 hw
    rw [h k i hopen] at helig; cases helig

theorem not_eligible_of_pending_zero {p : Pic} {k : Ctrl} {i : Fin 8} (h : p.pending (globalLine k i) = 0) :
    p.eligible k i = false := by
  simp [Pic.eligible, h]

/-- Where one line alone is pending and it can win, an arbitration delivers it. -/
theorem arbitrate_of_only {p : Pic} {k : Ctrl} {i : Fin 8} (hopen : p.pathOpen k) (helig : p.eligible k i = true)
    (others : ∀ m, m ≠ globalLine k i → p.pending m = 0) : p.arbitrate = p.deliver k i := by
  rcases arbitrate_cases p with ⟨_, hnone⟩ | ⟨j, l, _, hw, e⟩
  · have hlost := hnone _ (mem_priorityOrder k i)
    rw [(canWin_iff p k i).2 ⟨hopen, helig⟩] at hlost; cases hlost
  · obtain ⟨_, _, hpend⟩ := (eligible_iff p j l).1 (canWin_eligible hw)
    have hline : globalLine j l = globalLine k i := by
      by_contra hne
      exact hpend.ne' (others _ hne)
    obtain ⟨rfl, rfl⟩ := globalLine_injective hline
    exact e

theorem arbitrate_pending_le (p : Pic) (n : Fin 16) : p.arbitrate.pending n ≤ p.pending n := by
  rcases arbitrate_cases p with ⟨e, _⟩ | ⟨k, i, _, _, e⟩ <;> rw [e]
  rw [deliver_pending]
  split_ifs with hn
  · rw [hn]; exact Nat.sub_le _ _
  · exact le_refl _

/-- Settles O24: ARBITRATE is one arbitration, which serves the winner (`arbitrate_eq_served`). -/
theorem arbitrationServesFirstInPriorityOrder : Obligations.ArbitrationServesFirstInPriorityOrder := by
  intro s
  rw [exec_arbitrate, arbitrate_eq_served]

/-- Settles O25: a winner's controller takes part (`canWin_iff`), so that it is neither any controller where the
master is not operational, nor the slave where the slave is not. -/
theorem onlyOperationalControllersDeliver : Obligations.OnlyOperationalControllersDeliver := by
  intro s t h
  obtain rfl : { s with pic := s.pic.arbitrate } = t := Host.Outcome.next.inj ((exec_arbitrate s).symm.trans h)
  refine ⟨fun hmaster => ?_, fun hslave => ?_, fun _ hmaster ⟨i, helig⟩ => ?_⟩
  · have hnone : s.pic.arbitrate = s.pic := arbitrate_of_none fun k i hopen => absurd hopen.1 hmaster
    rw [hnone]
  · rcases arbitrate_cases s.pic with ⟨e, _⟩ | ⟨k, i, _, hw, e⟩
    · rw [e]
      exact ⟨fun _ he => .inl he, fun _ => rfl⟩
    · have hk : k = .master := by
        cases k with
        | master => rfl
        | slave => exact absurd (((canWin_iff _ _ _).1 hw).1.2 rfl).1 hslave
      subst hk
      simp only [e, deliver_queue, List.mem_append, List.mem_singleton]
      refine ⟨fun x hx => hx.imp_right fun hx => by rw [hx], fun j => ?_⟩
      have hne : globalLine .slave j ≠ globalLine .master i := fun hline => by
        cases (globalLine_injective hline).1
      rw [deliver_pending, if_neg hne]
  · rcases arbitrate_cases s.pic with ⟨_, hnone⟩ | ⟨k, l, _, _, e⟩
    · have hlost := hnone _ (mem_priorityOrder .master i)
      rw [(canWin_iff s.pic .master i).2 ⟨⟨hmaster, nofun⟩, helig⟩] at hlost; cases hlost
    · simp only [e, deliver_queue, List.length_append, List.length_singleton]

/-! ### The registers (R122 to R131, R134, R135) -/

section
variable {k : Ctrl} {d : Byte} {s : State}

theorem exec_picIcw3_of_phase (h : (s.pic.ctrl k).phase = 2) :
    exec (.picIcw3 k d) s = .next (forward (s.params.ports.picData k) d (icw3Effect k d s)) := if_pos h

theorem exec_picIcw4_of_phase (h : (s.pic.ctrl k).phase = 3) :
    exec (.picIcw4 k d) s = .next (forward (s.params.ports.picData k) d (icw4Effect k d s)) := if_pos h

theorem exec_picOcw1_of_phase (h : (s.pic.ctrl k).phase = 0) :
    exec (.picOcw1 k d) s = .next (forward (s.params.ports.picData k) d (ocw1Effect k d s)) := if_pos h

theorem exec_picIcw1_of_bit (h : d.getLsbD 4 = true) :
    exec (.picIcw1 k d) s = .next (forward (s.params.ports.picCmd k) d (icw1Effect k d s)) :=
  if_pos (decodePicCommand_icw1 k h)

end

/-- Settles O16: each word's effect, then the redirection (`forward_eq`). -/
theorem initialisationWordsStoreAndAdvance : Obligations.InitialisationWordsStoreAndAdvance := by
  intro k d s
  refine ⟨fun h => ?_, fun h => ?_, fun h => ?_⟩
  · rw [exec_picIcw1_of_bit h, forward_eq]; rfl
  · rw [exec_picIcw3_of_phase h, forward_eq]; rfl
  · rw [exec_picIcw4_of_phase h, forward_eq]; rfl

/-- Settles O18: the mask, one arbitration, the redirection. -/
theorem ocw1WritesMaskThenArbitrates : Obligations.Ocw1WritesMaskThenArbitrates := by
  intro k d s h
  rw [exec_picOcw1_of_phase h, forward_eq, ocw1Effect, arbitrate_eq_served]; rfl

theorem localLines_eq : localLines = List.finRange 8 := by decide

/-- The lowest set bit is cleared, or there is none (R129). -/
theorem clearLowest_cases (b : Byte) :
    (b = 0 ∧ clearLowest b = 0) ∨
    ∃ j : Fin 8, b.getLsbD j.val = true ∧ (∀ i : Fin 8, i < j → b.getLsbD i.val = false) ∧
      clearLowest b = b &&& ~~~(1#8 <<< j.val) := by
  rw [clearLowest, lowestSet, localLines_eq]
  cases h : (List.finRange 8).find? fun i => b.getLsbD i.val with
  | none =>
    have hzero : b = 0 := by
      apply BitVec.eq_of_getLsbD_eq
      intro i hi
      simpa using List.find?_eq_none.1 h ⟨i, hi⟩ (List.mem_finRange _)
    exact .inl ⟨hzero, hzero⟩
  | some j =>
    obtain ⟨hj, n, hn, hat, hbelow⟩ := List.find?_eq_some_iff_getElem.1 h
    refine .inr ⟨j, hj, fun i hi => ?_, rfl⟩
    have hnj : n = j.val := by rw [← hat]; simp
    simpa using hbelow i.val (by omega)

/-- Settles O19: by the lowest in-service bit (`clearLowest_cases`), then one arbitration. -/
theorem eoiRetiresLowestInService : Obligations.EoiRetiresLowestInService := by
  intro k x s
  refine ⟨clearLowest (s.pic.ctrl k).isr, ?_, clearLowest_cases _⟩
  rw [exec, execPicEoi, forward_eq, eoiEffect, Pic.retire, arbitrate_eq_served]; rfl

/-- Settles O20: the named bit is cleared, then one arbitration. -/
theorem specificEoiRetiresNamedLine : Obligations.SpecificEoiRetiresNamedLine := by
  intro k line s
  rw [exec, execPicSeoi, forward_eq, seoiEffect, Pic.retire, arbitrate_eq_served]; rfl

/-- The five upper bits of a command byte are what the mask 0xF8 compares (R84). -/
theorem commandByte_upper (d : Byte) :
    (d &&& 0xF8 = 0x20 ↔ d.extractLsb' 3 5 = 0b00100#5) ∧ (d &&& 0xF8 = 0x60 ↔ d.extractLsb' 3 5 = 0b01100#5) := by
  revert d; decide

/-- Settles O21: the bytes left over are no command (`isNopCommand_iff`); all three only forward their byte. -/
theorem commandsWithoutEffectOnlyForward : Obligations.CommandsWithoutEffectOnlyForward := by
  intro s
  refine ⟨fun k d h4 heoi hseoi => ?_, fun sc x => ?_, fun x => ?_⟩
  · obtain ⟨h20, h60⟩ := commandByte_upper d
    have hnop := (isNopCommand_iff d).2 ⟨h4, mt h20.1 heoi, mt h60.1 hseoi⟩
    have hexec : exec (.picNopCmd k d) s = .next (forward (s.params.ports.picCmd k) d s) :=
      if_pos ((decodePicCommand_nop_iff k d).2 hnop)
    rw [hexec, forward_eq]
  · rw [exec, execPitLatch, forward_eq]
  · rw [exec, execPitRdback, forward_eq]

theorem speakerByte_gate (gate : Bool) (b : Byte) : (speakerByte gate b).getLsbD 1 = gate := by
  cases gate <;> simp [speakerByte]

/-- Settles O22: each read replies with its byte; the free ones draw one (log 7). -/
theorem ownRegisterReadsChangeNothing : Obligations.OwnRegisterReadsChangeNothing := by
  intro s
  exact ⟨fun _ => rfl, fun _ => ⟨Config.draw8 s.fresh, rfl⟩, rfl, fun _ => ⟨Config.draw8 s.fresh, rfl⟩,
    speakerByte s.pit.gate (Config.draw8 s.fresh), speakerByte_gate _ _, rfl⟩

/-! ### A command-port write (R132) -/

/-- Both masks and the other controller are as before, and no pending count has grown (R132). -/
structure KeepsMasks (k : Ctrl) (p q : Pic) : Prop where
  imr : ∀ j, (q.ctrl j).imr = (p.ctrl j).imr
  other : ∀ j, j ≠ k → q.ctrl j = p.ctrl j
  pending : ∀ n, q.pending n ≤ p.pending n

theorem keepsMasks_setCtrl {k : Ctrl} {p : Pic} {c : Controller} (h : c.imr = (p.ctrl k).imr) :
    KeepsMasks k p (p.setCtrl k c) where
  imr j := by
    by_cases hj : j = k
    · subst hj; rw [ctrl_setCtrl_same, h]
    · rw [ctrl_setCtrl_ne hj]
  other j hj := ctrl_setCtrl_ne hj _ _
  pending n := (pending_setCtrl _ _ _ _).le

theorem KeepsMasks.arbitrate {k : Ctrl} {p q : Pic} (h : KeepsMasks k p q) : KeepsMasks k p q.arbitrate where
  imr j := by rw [arbitrate_ctrl, h.imr]
  other j hj := by rw [arbitrate_ctrl, h.other j hj]
  pending n := (arbitrate_pending_le q n).trans (h.pending n)

theorem keepsMasks_retire (k : Ctrl) (b : Byte) (p : Pic) : KeepsMasks k p (p.retire k b) :=
  (keepsMasks_setCtrl (c := { p.ctrl k with isr := b }) rfl).arbitrate

theorem picCommandWrite_keepsMasks (k : Ctrl) (d : Byte) (s : State) :
    ∃ q, picCommandWrite k d s = { s with pic := q } ∧ KeepsMasks k s.pic q := by
  rw [picCommandWrite]
  split_ifs
  · exact ⟨_, rfl, keepsMasks_setCtrl rfl⟩
  · exact ⟨_, rfl, keepsMasks_retire k _ _⟩
  · exact ⟨_, rfl, keepsMasks_retire k _ _⟩
  · exact ⟨s.pic, rfl, fun _ => rfl, fun _ _ => rfl, fun _ => le_refl _⟩

theorem wrH_picCmd {s : State} (own : s.bus.OwnRegistered s.params.ports) (k : Ctrl) :
    s.bus.wrH .byte (s.params.ports.picCmd k) = some (.picCmd k) := by
  rw [Bus.wrH, Bus.table, own.picCmd]; rfl

/-- Settles O23: the byte reaches the controller's command decoder, which never writes a mask
(`picCommandWrite_keepsMasks`). -/
theorem commandPortWritesKeepMasks : Obligations.CommandPortWritesKeepMasks := by
  intro k v s own
  obtain ⟨q, heffect, keeps⟩ := picCommandWrite_keepsMasks k (lowByte v) s
  refine ⟨_, exec_outb_own (wrH_picCmd own k) nofun v, ?_⟩
  rw [ownWrite, heffect, forward_eq]
  exact ⟨keeps.imr, keeps.other, keeps.pending, rfl, rfl, rfl, rfl⟩

end Sys2Proof.Machine
end

section
/-! PROOFS. The family 41_pic: raises, clears and the hand-off (R142 to R150), and the ready queue over every
operation (R32). -/

namespace Sys2Proof.Machine

open Sys2Proof

/-! ### Raise and clear (R142, R144) -/

theorem exec_raiseIrq {n count : Nat} (h : n < 16) (hc : count ≠ 0) (s : State) :
    exec (.raiseIrq n count) s = .next (raiseIrqOp ⟨n, h⟩ count s) := by
  rw [exec, execRaiseIrq, dif_pos h, if_neg hc]

theorem exec_raiseIrq_zero {n : Nat} (h : n < 16) (s : State) :
    exec (.raiseIrq n 0) s = .refused .countNotPositive := by
  rw [exec, execRaiseIrq, dif_pos h, if_pos rfl]

theorem exec_raiseIrq_line (n : Fin 16) {count : Nat} (hc : 0 < count) (s : State) :
    exec (.raiseIrq n.val count) s = .next { s with pic := s.pic.raise n count } :=
  exec_raiseIrq n.isLt hc.ne' s

/-- Settles O27: by the domain; a raise is `Pic.raised` (`raise_eq_raised`). -/
theorem raiseAddsCountAndClearZeroesIt : Obligations.RaiseAddsCountAndClearZeroesIt := by
  intro n count s
  refine ⟨fun h hc => ?_, fun h => ?_, fun h hc => ?_, fun h => ?_, fun h => ?_⟩
  · rw [exec_raiseIrq h hc.ne', raiseIrqOp, raise_eq_raised]
  · exact dif_neg (not_lt.2 h)
  · rw [hc, exec_raiseIrq_zero h]
  · exact dif_pos h
  · exact dif_neg (not_lt.2 h)

/-! ### The hand-off (R148) -/

theorem exec_dequeueIrq (s : State) : exec .dequeueIrq s = .next (trapPoint s) := rfl

theorem dequeue_cons {p : Pic} {e : QueueEntry} {rest : List QueueEntry} (h : p.queue = e :: rest) :
    p.dequeue = (e.vector, ({ p with queue := rest } : Pic).setCtrl e.k
      { p.ctrl e.k with isr := (p.ctrl e.k).isr ||| (1#8 <<< e.i.val) }) := by
  simp only [Pic.dequeue, h, setBit]

theorem dequeue_nil {p : Pic} (h : p.queue = []) : p.dequeue = (0, p) := by
  simp only [Pic.dequeue, h]

theorem dequeue_vector (p : Pic) : p.dequeue.1 = p.headVector := by
  cases h : p.queue with
  | nil => rw [dequeue_nil h, Pic.headVector, h]; rfl
  | cons e rest => rw [dequeue_cons h, Pic.headVector, h]; rfl

theorem trapPoint_queue (s : State) : (trapPoint s).pic.queue = s.pic.queue.tail := dequeue_queue s.pic

theorem trapPoint_returned (s : State) : (trapPoint s).returned = s.returned ++ [.vector s.pic.headVector] := by
  rw [trapPoint, reply_returned, dequeue_vector]

/-- Settles O29: by the queue. -/
theorem dequeueHandsOutOldestEntry : Obligations.DequeueHandsOutOldestEntry := by
  intro s
  refine ⟨fun e rest h => ?_, fun h => ?_⟩
  · rw [exec_dequeueIrq, trapPoint, dequeue_cons h]; rfl
  · rw [exec_dequeueIrq, trapPoint, dequeue_nil h]; rfl

/-! ### Raises are counted (R143) -/

theorem outstanding_setCtrl (k : Ctrl) (c : Controller) (p : Pic) (m : Fin 16) :
    (p.setCtrl k c).outstanding m = p.outstanding m := by
  rw [Pic.outstanding, Pic.outstanding, pending_setCtrl, setCtrl_queue]

/-- A hand-out takes one raise from the line handed out. -/
theorem outstanding_dequeue {p : Pic} {e : QueueEntry} {rest : List QueueEntry} (h : p.queue = e :: rest)
    (m : Fin 16) :
    p.dequeue.2.outstanding m + (if m = globalLine e.k e.i then 1 else 0) = p.outstanding m := by
  rw [dequeue_cons h, outstanding_setCtrl]
  simp only [Pic.outstanding, h, List.filter_cons, Pic.pending]
  by_cases hm : m = globalLine e.k e.i
  · simp [hm]; rfl
  · simp [hm, show ¬ globalLine e.k e.i = m from fun hline => hm hline.symm]

theorem exec_picOcw1_eq_next {k : Ctrl} {d : Byte} {s t : State} (h : exec (.picOcw1 k d) s = .next t) :
    (s.pic.ctrl k).phase = 0 ∧ t = forward (s.params.ports.picData k) d (ocw1Effect k d s) := by
  rw [exec, execPicOcw1] at h
  split_ifs at h with hphase
  exact ⟨hphase, (Host.Outcome.next.inj h).symm⟩

/-- The commands that arbitrate move raises from the counts to the queue, no more. -/
theorem outstanding_of_arbitrating {i : Instr} {s t : State}
    (hi : i = .arbitrate ∨ ∃ k d, i = .picOcw1 k d ∨ ∃ x, i = .picEoi k x ∨ i = .picSeoi k x)
    (h : exec i s = .next t) (m : Fin 16) : t.pic.outstanding m = s.pic.outstanding m := by
  rcases hi with rfl | ⟨k, d, rfl | ⟨x, rfl | rfl⟩⟩
  · rw [pic_of_exec_arbitrate h, arbitrate_outstanding]
  · obtain ⟨_, rfl⟩ := exec_picOcw1_eq_next h
    rw [forward_eq, ocw1Effect]
    exact (arbitrate_outstanding _ m).trans (outstanding_setCtrl _ _ _ m)
  · obtain rfl := Host.Outcome.next.inj h
    rw [forward_eq, eoiEffect, Pic.retire]
    exact (arbitrate_outstanding _ m).trans (outstanding_setCtrl _ _ _ m)
  · obtain rfl := Host.Outcome.next.inj h
    rw [forward_eq, seoiEffect, Pic.retire]
    exact (arbitrate_outstanding _ m).trans (outstanding_setCtrl _ _ _ m)

/-- Settles O28: by the operation, each with its rule on what is outstanding. -/
theorem raisesAreCountedNeverMerged : Obligations.RaisesAreCountedNeverMerged := by
  intro s t m
  refine ⟨fun n count h => ?_, fun i hi h => outstanding_of_arbitrating hi h m, fun e rest hqueue h => ?_⟩
  · rcases Nat.eq_zero_or_pos count with rfl | hc
    · rw [exec_raiseIrq_zero n.isLt] at h; cases h
    · rw [exec_raiseIrq_line n hc] at h
      obtain rfl := Host.Outcome.next.inj h
      exact raise_outstanding _ _ _ _
  · obtain rfl := Host.Outcome.next.inj h
    exact outstanding_dequeue hqueue m

/-! ### One line raised, by what stands in its way (R139, R145, R146, R150) -/

theorem pathOpen_of_ctrl {p q : Pic} (hm : q.master = p.master) (hs : q.slave = p.slave) {k : Ctrl}
    (h : p.pathOpen k) : q.pathOpen k := by
  rw [Pic.pathOpen, hm, hs]; exact h

/-- With its pending count at v, a line is eligible by its own two bits and v alone (R139). -/
theorem eligible_setPending_self (p : Pic) (k : Ctrl) (i : Fin 8) (v : Nat) :
    (p.setPending (globalLine k i) v).eligible k i = true ↔
      (p.ctrl k).isr.getLsbD i.val = false ∧ (p.ctrl k).imr.getLsbD i.val = false ∧ 0 < v := by
  rw [eligible_iff, setPending_ctrl, pending_setPending_same]; rfl

/-- Settles O31: the line raised is not eligible, so that the arbitration serves another one or none. -/
theorem lineInServiceOnlyAccumulates : Obligations.LineInServiceOnlyAccumulates := by
  intro k i count s hc hisr
  refine ⟨_, exec_raiseIrq_line _ hc s, ?_⟩
  set q := s.pic.setPending (globalLine k i) (s.pic.pending (globalLine k i) + count) with hq
  have hpend : q.pending (globalLine k i) = s.pic.pending (globalLine k i) + count := pending_setPending_same _ _ _
  have hctrl : (q.arbitrate.ctrl k).isr.getLsbD i.val = true := by rw [arbitrate_ctrl, hq, setPending_ctrl, hisr]
  have hblocked : q.eligible k i = false := by
    rw [Bool.eq_false_iff]
    intro helig
    rw [((eligible_setPending_self _ _ _ _).1 helig).1] at hisr; cases hisr
  show q.arbitrate.pending _ = _ ∧ (q.arbitrate.ctrl k).isr.getLsbD i.val = true ∧
    ∀ e ∈ q.arbitrate.queue, e ∈ q.queue ∨ _
  refine ⟨?_, hctrl, fun e he => ?_⟩
  · rcases arbitrate_cases q with ⟨e, _⟩ | ⟨j, l, _, hw, e⟩ <;> rw [e]
    · exact hpend
    · have hne : globalLine k i ≠ globalLine j l := fun hline => by
        obtain ⟨rfl, rfl⟩ := globalLine_injective hline
        rw [canWin_eligible hw] at hblocked; cases hblocked
      rw [deliver_pending, if_neg hne, hpend]
  · refine (arbitrate_entry he).imp_right fun ⟨helig, _⟩ hline => ?_
    obtain ⟨rfl, rfl⟩ := Prod.mk.inj hline
    rw [helig] at hblocked; cases hblocked

/-- Settles O32: the line raised is the only one pending and can win (`arbitrate_of_only`). -/
theorem noPriorityBlocking : Obligations.NoPriorityBlocking := by
  intro k i count s hc hopen himr hisr others
  refine ⟨_, exec_raiseIrq_line _ hc s, ?_⟩
  have hdeliver : s.pic.raise (globalLine k i) count =
      (s.pic.setPending (globalLine k i) (s.pic.pending (globalLine k i) + count)).deliver k i :=
    arbitrate_of_only (pathOpen_of_ctrl rfl rfl hopen)
      ((eligible_setPending_self _ _ _ _).2 ⟨hisr, himr, by omega⟩)
      fun m hm => (pending_setPending_ne hm _ _).trans (others m hm)
  simp only [hdeliver]
  refine ⟨?_, ?_, fun j => ?_⟩
  · rw [deliver_queue, setPending_queue, setPending_ctrl, vectorOf]
  · rw [deliver_pending, if_pos rfl, pending_setPending_same]
  · rw [deliver_ctrl, setPending_ctrl]

/-- The mask write of R150 (b): with one raise of one line pending, a mask that clears its bit delivers it. -/
theorem arbitrate_unmasked {p : Pic} {k : Ctrl} {i : Fin 8} {d : Byte} (hopen : p.pathOpen k)
    (hisr : (p.ctrl k).isr.getLsbD i.val = false) (hd : d.getLsbD i.val = false)
    (hone : p.pending (globalLine k i) = 1) (others : ∀ m, m ≠ globalLine k i → p.pending m = 0) :
    (p.setCtrl k { p.ctrl k with imr := d }).arbitrate = (p.setCtrl k { p.ctrl k with imr := d }).deliver k i := by
  have hpath : (p.setCtrl k { p.ctrl k with imr := d }).pathOpen k := by
    cases k with
    | master => exact ⟨hopen.1, nofun⟩
    | slave => exact ⟨hopen.1, hopen.2⟩
  refine arbitrate_of_only hpath ?_ fun m hm => (pending_setCtrl _ _ _ _).trans (others m hm)
  rw [eligible_iff, ctrl_setCtrl_same, pending_setCtrl, hone]
  exact ⟨hisr, hd, Nat.one_pos⟩

theorem pathOpen_phase {p : Pic} {k : Ctrl} (h : p.pathOpen k) : (p.ctrl k).phase = 0 := by
  cases k with
  | master => exact h.1
  | slave => exact (h.2 rfl).1

/-- Settles O33: raised under its mask the line waits (`arbitrate_of_none`); the mask write's arbitration then
delivers it (`arbitrate_unmasked`). -/
theorem maskedRaiseWaitsForUnmasking : Obligations.MaskedRaiseWaitsForUnmasking := by
  intro k i d s hopen himr hisr hd hzero
  have hzero' : ∀ m, m ≠ globalLine k i → (s.pic.setPending (globalLine k i) 1).pending m = 0 := fun m hm =>
    (pending_setPending_ne hm _ _).trans (hzero m)
  have hwaits : s.pic.raise (globalLine k i) 1 = s.pic.setPending (globalLine k i) 1 := by
    rw [Pic.raise, hzero]
    refine arbitrate_of_none fun j l _ => ?_
    by_cases hline : globalLine j l = globalLine k i
    · obtain ⟨rfl, rfl⟩ := globalLine_injective hline
      rw [Bool.eq_false_iff]
      intro helig
      rw [((eligible_setPending_self _ _ _ _).1 helig).2.1] at himr; cases himr
    · exact not_eligible_of_pending_zero (hzero' _ hline)
  set p := s.pic.setPending (globalLine k i) 1 with hp
  have hraise : exec (.raiseIrq (globalLine k i).val 1) s = .next { s with pic := p } := by
    rw [exec_raiseIrq_line _ Nat.one_pos, hwaits]
  have hpopen : p.pathOpen k := pathOpen_of_ctrl rfl rfl hopen
  have hctrl : p.ctrl k = s.pic.ctrl k := setPending_ctrl _ _ _ _
  have hone : p.pending (globalLine k i) = 1 := pending_setPending_same _ _ _
  refine ⟨{ s with pic := p }, _, hraise, rfl, hone, exec_picOcw1_of_phase (pathOpen_phase hpopen), ?_⟩
  have hunmask := arbitrate_unmasked hpopen (by rw [hctrl]; exact hisr) hd hone hzero'
  rw [forward_eq, ocw1Effect]
  simp only [hunmask]
  refine ⟨?_, fun m => ?_⟩
  · rw [deliver_queue, setCtrl_queue, ctrl_setCtrl_same, hctrl]; rfl
  · rw [deliver_pending, pending_setCtrl, pending_setCtrl, hone]
    split_ifs with hm
    · rfl
    · exact hzero' m hm

/-- Settles O34: line 2 is the winner, its vector the only one queued; line 5 is another line. -/
theorem lineTwoBeforeLineFive : Obligations.LineTwoBeforeLineFive := by
  intro s hqueue hphase h2 _ h0 h1 hslave
  have hmaster : ∀ i, s.pic.canWin (.master, i) = s.pic.eligible .master i := fun i => by
    simp [Pic.canWin, hphase]
  have hwinner : s.pic.winner = some (.master, 2) := by
    simp only [Pic.winner, priorityOrder, List.find?_cons, hmaster, hslave, h0, h1, h2]
  have hdeliver : s.pic.arbitrate = s.pic.deliver .master 2 := by
    rw [arbitrate_eq_served, Pic.served, hwinner]; rfl
  have hone : (s.pic.deliver .master 2).queue = [⟨.master, 2, vectorOf s.pic.master.icw1 2⟩] := by
    rw [deliver_queue, hqueue]; rfl
  have hfive : (5 : Fin 16) ≠ globalLine .master 2 := by decide
  refine ⟨_, _, exec_arbitrate s, exec_dequeueIrq _, ?_, ?_, ?_⟩
  · rw [trapPoint_returned, hdeliver, Pic.headVector, hone]; rfl
  · rw [trapPoint_queue, hdeliver, hone]; rfl
  · rw [hdeliver, trapPoint, reply_pic, dequeue_cons hone, pending_setCtrl]
    exact (deliver_pending _ _ _ _).trans (if_neg hfive)

/-! ### The ready queue over every operation (R32) -/

/-- All but the hand-off, the continuation and the steps only add entries at the end. -/
theorem extends_of_exec {i : Instr} {s t : State} (hd : i ≠ .dequeueIrq) (hcont : ∀ t1 b t2, i ≠ .cont t1 b t2)
    (hstep : ∀ ops ending, i ≠ .stepCmd ops ending ∧ i ≠ .stepOver ops ending ∧
      i ≠ .debugCmd (.step ops ending) ∧ i ≠ .debugCmd (.stepOver ops ending))
    (h : exec i s = .next t) : s.pic.Extends t.pic := by
  cases completes_of_exec h with
  | quiet hq h => exact (frame_of_quiet hq hd h).queue
  | register _ _ => exact .refl _
  | start _ => exact .refl _
  | run _ => exact .refl _
  | cont _ _ _ _ => exact absurd rfl (hcont _ _ _)
  | reset _ _ _ => rw [restart_rest]; exact .refl _
  | @stepped _ _ ops ending _ hi _ _ =>
    obtain ⟨h1, h2, h3, h4⟩ := hstep ops ending
    simp only [List.mem_cons, List.not_mem_nil, or_false] at hi
    rcases hi with e | e | e | e
    · exact absurd e h1
    · exact absurd e h2
    · exact absurd e h3
    · exact absurd e h4
  | breakIn _ => rw [breakOp_rest]; exact .refl _
  | resume _ _ => exact .refl _
  | inspect => exact .refl _

/-- Settles O30: by the operation; the queue a continuation or a step leaves is the one its activity left. -/
theorem readyQueueIsFirstInFirstOut : Obligations.ReadyQueueIsFirstInFirstOut := by
  intro s t
  refine ⟨fun i hd hcont hstep h => extends_of_exec hd hcont hstep h, fun h => ?_, fun h => ?_,
    fun o ho h => (runCoreOp_eq_next h).2 ho, fun t1 b t2 h => ?_, fun i ops ending hi h => ?_⟩
  · obtain rfl := Host.Outcome.next.inj h
    exact ⟨trapPoint_queue s, trapPoint_returned s⟩
  · obtain rfl := Host.Outcome.next.inj h
    exact ⟨trapPoint_queue s, trapPoint_returned s⟩
  · obtain ⟨u, _, _, hburst, _, rfl⟩ := execCont_eq_next h
    refine ⟨(enterBurst_frame t1 { s with now := t1 }).queue, u, hburst, ?_⟩
    rw [branchOn_rest]; rfl
  · have hstep : ∃ cs, stepCore cs ops s = .next t := by
      simp only [List.mem_cons, List.not_mem_nil, or_false] at hi
      rcases hi with rfl | rfl | rfl | rfl <;> exact ⟨_, h⟩
    obtain ⟨cs, hstep⟩ := hstep
    obtain ⟨_, u, hu, rfl⟩ := stepCore_eq_next hstep
    exact ⟨cs, u, hu, rfl⟩

end Sys2Proof.Machine
end

section
/-! PROOFS. The family 42_pit: control bytes, the two-byte load, the period and the speaker gate (R161 to R174,
R196). -/

namespace Sys2Proof.Machine

open Sys2Proof

/-! ### The quantities of a load (R166 to R169, R174) -/

theorem periodMs_eq (c : Nat) : periodMs c = (c * 1000 + 1193180) / 1193181 := by
  unfold periodMs ceilDiv Config.pitHz
  omega

theorem toneHz_eq (c : Nat) : toneHz c = 1193181 / (c : Rat) := by
  simp only [toneHz, Config.pitHz, Nat.cast_ofNat]

theorem lowByteLoad_eq (v : BitVec 16) (d : Byte) :
    v.extractLsb' 8 8 ++ d = (v &&& 0xFF00) ||| d.setWidth 16 := by
  have hbit : ∀ i, i < 16 → (0xFF00 : BitVec 16).getLsbD i = decide (8 ≤ i) := by decide
  apply BitVec.eq_of_getLsbD_eq
  intro i hi
  simp only [BitVec.getLsbD_append, BitVec.getLsbD_extractLsb', BitVec.getLsbD_or, BitVec.getLsbD_and,
    BitVec.getLsbD_setWidth, hbit i hi]
  by_cases h8 : i < 8
  · simp [h8, hi, show ¬ 8 ≤ i by omega]
  · simp [h8, show 8 ≤ i by omega, show i - 8 < 8 by omega, show 8 + (i - 8) = i by omega]

theorem highByteLoad_eq (v : BitVec 16) (d : Byte) :
    d ++ v.extractLsb' 0 8 = (d.setWidth 16 <<< 8) ||| (v &&& 0x00FF) := by
  have hbit : ∀ i, i < 16 → (0x00FF : BitVec 16).getLsbD i = decide (i < 8) := by decide
  apply BitVec.eq_of_getLsbD_eq
  intro i hi
  simp only [BitVec.getLsbD_append, BitVec.getLsbD_extractLsb', BitVec.getLsbD_or, BitVec.getLsbD_and,
    BitVec.getLsbD_shiftLeft, BitVec.getLsbD_setWidth, hbit i hi]
  by_cases h8 : i < 8
  · simp [h8]
  · simp [h8, hi, show i - 8 < 16 by omega]

/-- Settles O38: the effective count is that of the statement, and the rest is the ceiling's arithmetic. -/
theorem periodIsLeastCoveringCount : Obligations.PeriodIsLeastCoveringCount := by
  intro v count p
  have hcount : effectiveCount v = count := rfl
  obtain ⟨hlo, hhi⟩ := effectiveCount_range v
  have hp : p = (count * 1000 + 1193180) / 1193181 := periodMs_eq count
  rw [hcount] at hlo hhi
  omega

/-! ### The control port and the data ports -/

theorem exec_pitCtrl {rw : BitVec 2} (h : rw ≠ 0) (sc : Chan) (mode : BitVec 3) (bcd : BitVec 1) (s : State) :
    exec (.pitCtrl sc rw mode bcd) s =
      .next (forward s.params.ports.pitCtrl (pitControlByte (selectOfChan sc) rw mode bcd)
        (pitCtrlEffect sc (pitControlByte (selectOfChan sc) rw mode bcd) s)) := if_neg h

/-- Settles O35: by the channel. -/
theorem pitControlResetsChannel : Obligations.PitControlResetsChannel := by
  intro rw mode bcd s hrw d0 d1 d2
  refine ⟨?_, ?_, ?_⟩ <;> rw [exec_pitCtrl hrw, forward_eq] <;> rfl

section
variable {c : Chan} {d : Byte} {s : State}

theorem exec_pitLdLo_of_phase (h : (s.pit.chan c).phase = 0) :
    exec (.pitLdLo c d) s = .next (forward (s.params.ports.pitChan c) d (ldLoEffect c d s)) := if_pos h

theorem exec_pitLdHi_of_phase (h : (s.pit.chan c).phase = 1) :
    exec (.pitLdHi c d) s = .next (forward (s.params.ports.pitChan c) d (ldHiEffect c d s)) := if_pos h

end

/-- Settles O36: the low byte is replaced (`lowByteLoad_eq`). -/
theorem firstDataByteIsLow : Obligations.FirstDataByteIsLow := by
  intro c d s h
  rw [exec_pitLdLo_of_phase h, forward_eq, ldLoEffect, lowByteLoad_eq]; rfl

/-- The channel after its second byte, before the load completes (R167). -/
theorem ldHiEffect_eq (c : Chan) (d : Byte) (s : State) :
    ldHiEffect c d s = loadComplete c (setChannel c { s.pit.chan c with
      value := (d.setWidth 16 <<< 8) ||| ((s.pit.chan c).value &&& 0x00FF), phase := 0 } s) := by
  rw [ldHiEffect, highByteLoad_eq]

theorem loadComplete_ch2_of_gate {s : State} (h : s.pit.gate = true) : loadComplete .ch2 s = startTone s := if_pos h

theorem loadComplete_ch2_of_not_gate {s : State} (h : s.pit.gate = false) : loadComplete .ch2 s = s := by
  simp only [loadComplete, h, Bool.false_eq_true, if_false]

/-- Settles O37: by the channel, and for channel 2 by the gate. -/
theorem secondDataByteCompletesLoad : Obligations.SecondDataByteCompletesLoad := by
  intro d s full count loaded told
  refine ⟨fun h => ?_, fun h => ?_, fun h gate => ?_, fun h gate => ?_⟩ <;>
    rw [exec_pitLdHi_of_phase h, forward_eq, ldHiEffect_eq]
  · have hperiod := periodMs_eq (count .ch0)
    rw [← hperiod]; rfl
  · rfl
  · rw [loadComplete_ch2_of_not_gate ((setChan_gate _ _ _).trans gate)]; rfl
  · have htone := toneHz_eq (count .ch2)
    rw [loadComplete_ch2_of_gate ((setChan_gate _ _ _).trans gate), ← htone]; rfl

/-! ### The speaker gate (R172) -/

/-- Settles O39: by the gate and bit 1 of the byte. -/
theorem speakerGateTogglesTone : Obligations.SpeakerGateTogglesTone := by
  intro d s count
  refine ⟨fun gate bit => ?_, fun gate bit => ?_, fun same => ?_⟩ <;> rw [exec, execSpkWr, forward_eq, spkWrEffect]
  · rw [gate, bit, ← toneHz_eq count]; rfl
  · rw [gate, bit]; rfl
  · rw [same]
    cases d.getLsbD 1 <;> rfl

/-- Settles O40: by whether the argument is positive. -/
theorem setPeriodRestartsTick : Obligations.SetPeriodRestartsTick := by
  intro ms s
  exact ⟨fun h => if_neg h.ne', fun h => if_pos h⟩

end Sys2Proof.Machine
end

section
/-! PROOFS. Guest memory and the host's device events: DMA inside and outside the region (R70 to R73, R211). -/

namespace Sys2Proof.Machine

open Sys2Proof

/-! ### Guest memory -/

theorem inRegion_iff (m : Memory) (addr n : Nat) : m.inRegion addr n = true ↔ n = 0 ∨ addr + n ≤ m.size := by
  simp [Memory.inRegion]

theorem inRegion_bytes_iff (m : Memory) (addr : Nat) (l : List Byte) :
    m.inRegion addr l.length = true ↔ l = [] ∨ addr + l.length ≤ m.size := by
  rw [inRegion_iff, List.length_eq_zero_iff]

theorem not_inRegion {m : Memory} {addr n : Nat} (hn : n ≠ 0) (hout : m.size < addr + n) :
    ¬ m.inRegion addr n = true := by
  rw [inRegion_iff]; omega

theorem not_inRegion_bytes {m : Memory} {addr : Nat} {l : List Byte} (hl : l ≠ [])
    (hout : m.size < addr + l.length) : ¬ m.inRegion addr l.length = true :=
  not_inRegion (mt List.length_eq_zero_iff.1 hl) hout

theorem memWriteOp_inRegion {addr : Nat} {l : List Byte} {s : State} (h : s.mem.inRegion addr l.length = true) :
    memWriteOp addr l s = .next (guestWrite addr l s) := if_pos h

/-- What a guest write leaves in memory: its bytes from `MEM_ORIGIN` + the address on, all others as before. -/
theorem readByte_guestWrite (addr : Nat) (l : List Byte) (s : State) :
    (∀ j (h : j < l.length), (guestWrite addr l s).mem.readByte (s.params.memOrigin + addr + j) = l[j]) ∧
    ∀ a, a < s.params.memOrigin + addr ∨ s.params.memOrigin + addr + l.length ≤ a →
      (guestWrite addr l s).mem.readByte a = s.mem.readByte a := by
  rw [guestWrite_mem]
  exact ⟨fun j h => readByte_writeBytes_inside _ _ _ j h, fun a ha => readByte_writeBytes_outside _ _ _ a ha⟩

/-- The n bytes a guest read gives, in ascending order. -/
theorem guestRead_getElem? (s : State) (addr n : Nat) :
    (guestRead s addr n).length = n ∧
    ∀ j, j < n → (guestRead s addr n)[j]? = some (s.mem.readByte (s.params.memOrigin + addr + j)) := by
  refine ⟨by simp [guestRead, Memory.readBytes], fun j hj => ?_⟩
  simp [guestRead, Memory.readBytes, List.getElem?_range hj]

/-- Settles O56: by the region; a list of actions completes or is refused by `runActions_outcome`. -/
theorem dmaReadsAndWritesInsideRegion : Obligations.DmaReadsAndWritesInsideRegion := by
  intro addr n bytes s
  refine ⟨fun hin => ?_, fun hn hout => if_neg (not_inRegion hn hout), fun hin => ?_,
    fun hl hout => if_neg (not_inRegion_bytes hl hout), rfl, fun hin => if_pos ((inRegion_iff _ _ _).2 hin),
    fun l => ⟨runActions_completes, fun hbad => ?_⟩⟩
  · obtain ⟨hlength, hbytes⟩ := guestRead_getElem? s addr n
    exact ⟨guestRead s addr n, hlength, hbytes, if_pos ((inRegion_iff _ _ _).2 hin)⟩
  · obtain ⟨hinside, houtside⟩ := readByte_guestWrite addr bytes s
    exact ⟨(guestWrite addr bytes s).mem, memWriteOp_inRegion ((inRegion_bytes_iff _ _ _).2 hin),
      writeBytes_size _ _ _, hinside, houtside⟩
  · rcases runActions_outcome l s with ⟨hall, _⟩ | ⟨_, hrefused⟩
    · obtain ⟨a, ha, hout⟩ := hbad
      rw [hall a ha] at hout; cases hout
    · exact hrefused

/-- Settles O43: each thing the core does is the operation's own meaning; a direct access is the DMA operation
inside the region. -/
theorem coreActivityIsTransactionsTrapsAndMemory : Obligations.CoreActivityIsTransactionsTrapsAndMemory := by
  intro s
  refine ⟨fun p => ⟨rfl, rfl, rfl⟩, fun p v => ⟨rfl, rfl, rfl⟩, rfl, fun a n hin => ?_, fun a n hn hout => ?_,
    fun a l hin => ?_, fun a l hl hout => ?_, fun o rest t h => ?_⟩
  · have h := (inRegion_iff s.mem a n).2 hin
    rw [runCoreOp, if_pos h, exec, execMemRead, if_pos h]
  · exact if_neg (not_inRegion hn hout)
  · have h := (inRegion_bytes_iff s.mem a l).2 hin
    rw [runCoreOp, if_pos h, exec, execMemWrite, memWriteOp_inRegion h]
  · exact if_neg (not_inRegion_bytes hl hout)
  · rw [runCoreOps, h, andThen_next]

/-! ### The host's device events (R211) -/

/-- A list of raises changes the PIC alone, one raise after the other. -/
theorem raiseEach_eq (l : List (Fin 16)) (s : State) :
    raiseEach l s = { s with pic := l.foldl (fun p n => p.raised n 1) s.pic } := by
  induction l generalizing s with
  | nil => rfl
  | cons n rest ih => rw [raiseEach, ih, List.foldl_cons, raiseIrqOp_pic, raise_eq_raised]; rfl

theorem next_raiseEach (l : List (Fin 16)) (s : State) :
    (Host.Outcome.next (raiseEach l (useFresh s)) : Result) =
      .next { s with pic := l.foldl (fun p n => p.raised n 1) s.pic, fresh := s.fresh + 1 } := by
  rw [raiseEach_eq]; rfl

/-- Settles O55: the lines are the free value of each command (log 14). -/
theorem hostEventsOnlyRaise : Obligations.HostEventsOnlyRaise := by
  intro s
  exact ⟨fun kind code n ctrlKey altKey =>
      ⟨Config.keyRaises kind code n ctrlKey altKey s.fresh, next_raiseEach _ _⟩,
    fun move button pressed => ⟨Config.pointerRaises move button pressed s.fresh, next_raiseEach _ _⟩,
    fun image => ⟨Config.attachRaises image s.fresh, next_raiseEach _ _⟩⟩

end Sys2Proof.Machine
end

section
/-! PROOFS. The family 43_scheduler: ticks, the continuation and its ends (R199 to R210, R222, R240). -/

namespace Sys2Proof.Machine

open Sys2Proof

/-! ### The tick catch-up (R201, R222) -/

theorem ticks_ctrl (n p : Nat) (s : State) (k : Ctrl) : (ticks n p s).pic.ctrl k = s.pic.ctrl k := by
  induction n generalizing s with
  | zero => rfl
  | succ n ih => exact (ih _).trans (raise_ctrl s.pic 0 1 k)

theorem ticks_three_pic (p : Nat) (s : State) :
    (ticks 3 p s).pic = ((s.pic.raised 0 1).raised 0 1).raised 0 1 := by
  simp only [← raise_eq_raised]; rfl

/-- Three to under four periods are three ticks (D38). -/
theorem ticksDue_three {lt t1 : Time} {p : Nat} (hp : 0 < p) (h3 : 3 * (p : Rat) ≤ t1 - lt)
    (h4 : t1 - lt < 4 * (p : Rat)) : ticksDue lt t1 p = 3 := by
  have hp' : (0 : Rat) < p := by exact_mod_cast hp
  have hfloor : ⌊(t1 - lt) / (p : Rat)⌋ = 3 := by
    rw [Int.floor_eq_iff]
    refine ⟨?_, ?_⟩
    · rw [le_div_iff₀ hp']; exact_mod_cast h3
    · rw [div_lt_iff₀ hp']; push_cast; linarith
  rw [ticksDue_eq, hfloor]; rfl

/-- Settles O42: the catch-up is `ticksDue` ticks in a row (`tickCatchUp_eq`). -/
theorem catchUpRaisesOncePerElapsedPeriod : Obligations.CatchUpRaisesOncePerElapsedPeriod := by
  intro s t1 p hs hp n u
  have hn : n = ticksDue s.sched.lastTick t1 p := rfl
  have hu : u = ticks n p s := tickCatchUp_eq hs hp
  have hlast : u.sched.lastTick = s.sched.lastTick + (n : Rat) * (p : Rat) := by rw [hu, ticks_lastTick]
  refine ⟨?_, fun m => ?_, fun k => ?_, fun hle => ?_, fun h3 h4 => ?_⟩
  · rw [hu]; exact ticks_rest n p s
  · rw [hu]; exact ticks_outstanding n p s m
  · rw [hu]; exact ticks_ctrl n p s k
  · rw [hlast, hn]; exact ticksDue_bound hp hle
  · have hthree : n = 3 := ticksDue_three hp h3 h4
    refine ⟨?_, ?_⟩
    · rw [hu, hthree]; exact ticks_three_pic p s
    · rw [hlast, hthree]; norm_num

/-! ### The branch (R205 to R209) -/

theorem branchOn_debug {c : StatusClass} {s : State} (hc : c ≠ .exception)
    (hd : c = .debugTrap ∨ s.sched.debugReq = true) : branchOn c s = debugPause s := by
  rcases hd with rfl | hd
  · rfl
  · cases c
    · exact absurd rfl hc
    · rfl
    · exact if_pos hd
    · exact if_pos hd

theorem branchOn_halt {s : State} (hd : s.sched.debugReq = false) : branchOn .halt s = rearmAtNextTick s := by
  simp only [branchOn, hd, Bool.false_eq_true, if_false]

theorem branchOn_other {s : State} (hd : s.sched.debugReq = false) : branchOn .other s = rearmNow s := by
  simp only [branchOn, hd, Bool.false_eq_true, if_false]

/-! ### A continuation from its start to its end (R199, R200) -/

/-- The state a continuation runs the core's activity from, written out (R200 to R202). -/
theorem enterBurst_eq (t1 : Time) (s : State) :
    enterBurst t1 { s with now := t1 } =
      callCore (.run s.sched.cpu s.params.burstBudget)
        (tickCatchUp t1 { s with now := t1, sched := { s.sched with wake := none } }) := by
  have f := frame_tickCatchUp t1 { s with now := t1, sched := { s.sched with wake := none } }
  rw [enterBurst]
  dsimp only
  rw [f.cpu, f.params]

/-- What the core does fits memory and tables alone. -/
theorem coreOpFits_of_eq {s t : State} (bus : t.bus = s.bus) (mem : t.mem = s.mem) {o : CoreOp}
    (h : CoreOp.fits s o) : CoreOp.fits t o := by
  cases o with
  | read w p =>
    simpa only [CoreOp.fits, State.readFits, State.slotReadFits, bus, mem] using h
  | write w p v =>
    simpa only [CoreOp.fits, State.writeFits, State.slotWriteFits, bus, mem] using h
  | trap => trivial
  | load a n => simpa only [CoreOp.fits, mem] using h
  | store a l => simpa only [CoreOp.fits, mem] using h
  | clock t => trivial

/-- The burst of an enabled continuation can be followed from the state it is entered in. -/
theorem followable_enterBurst {t1 : Time} {ops : List CoreOp} {s : State} (h : followable s t1 ops) :
    followable (enterBurst t1 { s with now := t1 }) (enterBurst t1 { s with now := t1 }).now ops := by
  have f := enterBurst_frame t1 { s with now := t1 }
  rw [f.now]
  exact ⟨h.1, fun o ho => coreOpFits_of_moved f.moved (coreOpFits_of_eq rfl rfl (h.2 o ho))⟩

/-- An enabled continuation that can be followed reaches its branch, in a state within the frame of its entry and
at the second clock reading. -/
theorem execCont_completes {t1 t2 w : Time} {b : Burst} {s : State} (running : s.sched.state = .running)
    (hwake : s.sched.wake = some w) (hw : w ≤ t1) (sample : s.now ≤ t1) (hfollow : followable s t1 b.ops)
    (later : clockAfter t1 b.ops ≤ t2) :
    ∃ v, exec (.cont t1 b t2) s = .next (branchOn (classify s.params.status b.ending) v) ∧ v.now = t2 ∧
      Stays { s with now := t2
                     sched := { s.sched with wake := none }
                     coreCalls := s.coreCalls ++ [.run s.sched.cpu s.params.burstBudget] } v := by
  have hnow : (enterBurst t1 { s with now := t1 }).now = t1 := (enterBurst_frame t1 { s with now := t1 }).now
  obtain ⟨u, hu, hunow⟩ := runCoreOps_completes (followable_enterBurst hfollow)
  rw [hnow] at hunow
  have hlater : u.now ≤ t2 := hunow.le.trans later
  have m := (moved_burst sample hu).stays
  have hparams : u.params = s.params := m.params
  have enabled := (continuationEnabled_iff t1 s).2 ⟨running, w, hwake, hw⟩
  have hclock1 : clockTo t1 s = .next { s with now := t1 } := if_pos sample
  have hclock2 : clockTo t2 (uartDrain b.drained u) = .next { uartDrain b.drained u with now := t2 } := if_pos hlater
  refine ⟨{ uartDrain b.drained u with now := t2 }, ?_, rfl,
    (m.withNow t2).trans ((frame_emitAll (b.drained.map Msg.write) u).toStays.withNow t2)⟩
  rw [exec, execCont, if_pos enabled, hclock1, andThen_next, hu, andThen_next, hclock2, andThen_next, ← hparams]
  rfl

/-- Settles O44: it reaches its branch (`execCont_completes`), which is taken by the class of the ending. -/
theorem continuationCompletesAndBranches : Obligations.ContinuationCompletesAndBranches := by
  intro t1 t2 w b s running hwake hw sample hfollow later
  obtain ⟨v, hexec, hnow, m⟩ := execCont_completes running hwake hw sample hfollow later
  have hreq : v.sched.debugReq = s.sched.debugReq := m.debugReq
  have hstate : v.sched.state = .running := m.state.trans running
  obtain ⟨l1, hl1⟩ := m.hostOut
  obtain ⟨l2, hl2, _⟩ := branchOn_hostOut (classify s.params.status b.ending) v
  have rest := branchOn_rest (classify s.params.status b.ending) v
  refine ⟨_, hexec, by rw [rest]; exact hnow, by rw [rest]; exact m.params, by rw [rest]; exact m.bus,
    by rw [rest]; exact m.inbox, by rw [rest]; exact m.size, by rw [rest]; exact m.coreCalls,
    by rw [rest]; exact m.cpu, by rw [rest]; exact m.regmap, by rw [rest]; exact m.generation,
    ⟨l1 ++ l2, by rw [hl2, hl1, List.append_assoc]⟩, ?_⟩
  have paused (c : StatusClass) (hc : c ≠ .exception) (hd : c = .debugTrap ∨ s.sched.debugReq = true) :
      (branchOn c v).sched.state = .debugPaused ∧ (branchOn c v).sched.wake = none ∧
        (branchOn c v).sched.debugReq = false := by
    rw [branchOn_debug hc (hd.imp_right hreq.trans)]
    exact ⟨rfl, rfl, rfl⟩
  cases classify s.params.status b.ending with
  | exception => exact ⟨rfl, rfl, hreq⟩
  | debugTrap => exact paused .debugTrap (by decide) (.inl rfl)
  | halt =>
    dsimp only
    split
    · rename_i hd
      exact paused .halt (by decide) (.inr hd)
    · rename_i hd
      have hreq' : v.sched.debugReq = false := hreq.trans (Bool.eq_false_iff.2 hd)
      rw [branchOn_halt hreq', ← hnow]
      refine ⟨hstate, hreq', ?_⟩
      cases hp : v.sched.period <;> simp only [rearmAtNextTick, haltDelay, hp]
  | other =>
    dsimp only
    split
    · rename_i hd
      exact paused .other (by decide) (.inr hd)
    · rename_i hd
      have hreq' : v.sched.debugReq = false := hreq.trans (Bool.eq_false_iff.2 hd)
      rw [branchOn_other hreq', ← hnow]
      exact ⟨hstate, hreq', rfl⟩

/-- Settles O45: what a continuation does, step by step (`execCont_eq_next`); the branch only reports. -/
theorem continuationTicksThenBurstThenDrain : Obligations.ContinuationTicksThenBurstThenDrain := by
  intro t1 t2 b s t h
  obtain ⟨u, _, _, hu, _, rfl⟩ := execCont_eq_next h
  obtain ⟨l, hl, hreport⟩ := branchOn_hostOut (classify u.params.status b.ending)
    { uartDrain b.drained u with now := t2 }
  have rest := branchOn_rest (classify u.params.status b.ending) { uartDrain b.drained u with now := t2 }
  rw [enterBurst_eq] at hu
  refine ⟨u, l, hu, ?_, ?_, ?_, ?_, ?_, ?_, ?_, hl, hreport⟩ <;> rw [rest] <;> rfl

theorem classify_exception {r : StatusRanges} {e : BurstEnd}
    (h : e = .threw ∨ ∃ code, e = .status code ∧ r.exceptionMin ≤ code) : classify r e = .exception := by
  rcases h with rfl | ⟨code, rfl, hcode⟩
  · rfl
  · exact if_pos hcode

/-- Settles O46: the ending is classed an exception, whose branch is `haltOnException`. -/
theorem coreFaultHaltsScheduler : Obligations.CoreFaultHaltsScheduler := by
  intro t1 t2 b s t hending h
  obtain ⟨u, _, sample, hu, _, rfl⟩ := execCont_eq_next h
  have m := (moved_burst sample hu).stays
  have hparams : u.params = s.params := m.params
  obtain ⟨l, hl⟩ := m.hostOut
  rw [hparams, classify_exception hending]
  refine ⟨rfl, rfl, m.debugReq, l ++ b.drained.map Msg.write, Config.dumpTexts u.fresh, Config.alertText u.fresh, ?_⟩
  have hout : (branchOn .exception { uartDrain b.drained u with now := t2 }).hostOut =
      u.hostOut ++ b.drained.map Msg.write ++ (Config.dumpTexts u.fresh).map Msg.write ++
        [.alert (Config.alertText u.fresh)] := rfl
  rw [hout, hl, ← List.append_assoc]

end Sys2Proof.Machine
end

section
/-! PROOFS. The family 43_scheduler: the commands of the host, where they are refused and what they do (R195, R198,
R212 to R218). -/

namespace Sys2Proof.Machine

open Sys2Proof

/-! ### Refusals (R195, R198, R199, R212, R213, R216, R218) -/

theorem not_paused_of {s : State} (h : s.sched.state = .idle ∨ s.sched.state = .running) : ¬ paused s = true := by
  rw [paused_iff]
  rcases h with h | h <;> simp [h]

theorem continuation_not_enabled {t1 : Time} {s : State}
    (h : s.sched.state ≠ .running ∨ s.sched.wake = none ∨ ∃ w, s.sched.wake = some w ∧ t1 < w) :
    ¬ continuationEnabled t1 s = true := by
  rw [continuationEnabled_iff]
  rintro ⟨running, w, hwake, hw⟩
  rcases h with h | h | ⟨w', hwake', hlt⟩
  · exact h running
  · rw [h] at hwake; cases hwake
  · rw [hwake] at hwake'
    cases hwake'
    exact absurd hw (not_le.2 hlt)

theorem exec_resetCmd_refused {s : State} (h : s.sched.state = .idle ∨ s.sched.cpu = none) (g : Nat) :
    exec (.resetCmd g) s = .refused .noCpuHandle := by
  rw [exec, execResetCmd]
  rcases h with h | h
  · rw [h]
  · rw [h]; cases s.sched.state <;> rfl

/-- Settles O47: by each command's own test. -/
theorem commandsRefusedOutsideTheirStates : Obligations.CommandsRefusedOutsideTheirStates := by
  intro s
  exact ⟨fun t1 b t2 h => if_neg (continuation_not_enabled h),
    fun h => ⟨fun _ _ _ _ => if_neg h, fun _ => if_neg h⟩, exec_resetCmd_refused,
    fun h => ⟨if_neg (not_paused_of h), fun ops ending => ⟨if_neg (not_paused_of h), if_neg (not_paused_of h)⟩⟩⟩

/-- Settles O54: the arm of NMI refuses it in every state. -/
theorem nmiIsRefused : Obligations.NmiIsRefused := fun _ => rfl

/-! ### RUN and START (R195, R198) -/

/-- Settles O48: the two calls are recorded, and the session is written. -/
theorem runStartsSession : Obligations.RunStartsSession := by
  intro g s idle
  refine ⟨Config.allocate g, Config.registerMap (Config.allocate g), ?_⟩
  rw [exec, execRun, if_pos idle, runSession]
  dsimp only
  rw [callCore_coreCalls, callCore_coreCalls, List.append_assoc]
  rfl

theorem mem_entryPorts (base : Nat) (e : DWord) (x : Nat) :
    x ∈ entryPorts base e ↔ ∃ j, j < 32 ∧ e.getLsbD j = true ∧ x = base + j := by
  unfold entryPorts
  split_ifs with hzero
  · simp [hzero]
  · simp only [List.mem_map, List.mem_filter, List.mem_range]
    exact ⟨fun ⟨j, ⟨hj, hbit⟩, e⟩ => ⟨j, hj, hbit, e.symm⟩, fun ⟨j, hj, hbit, e⟩ => ⟨j, ⟨hj, hbit⟩, e.symm⟩⟩

/-- A port is flagged by bit p % 32 of entry p / 32, counted from the first entry's port (R89, D3). -/
theorem mem_flaggedPorts (base : Nat) (l : List DWord) (x : Nat) :
    x ∈ flaggedPorts base l ↔ base ≤ x ∧ ∃ e, l[(x - base) / 32]? = some e ∧ e.getLsbD ((x - base) % 32) = true := by
  induction l generalizing base with
  | nil => simp [flaggedPorts]
  | cons e rest ih =>
    rw [flaggedPorts, List.mem_append, mem_entryPorts, ih]
    constructor
    · rintro (⟨j, hj, hbit, rfl⟩ | ⟨hle, e', he', hbit⟩)
      · refine ⟨by omega, e, ?_, ?_⟩
        · rw [show (base + j - base) / 32 = 0 by omega, List.getElem?_cons_zero]
        · rwa [show (base + j - base) % 32 = j by omega]
      · refine ⟨by omega, e', ?_, ?_⟩
        · rwa [show (x - base) / 32 = (x - (base + 32)) / 32 + 1 by omega, List.getElem?_cons_succ]
        · rwa [show (x - base) % 32 = (x - (base + 32)) % 32 by omega]
    · rintro ⟨hle, e', he', hbit⟩
      by_cases hfirst : x < base + 32
      · rw [show (x - base) / 32 = 0 by omega, List.getElem?_cons_zero, Option.some.injEq] at he'
        subst he'
        exact .inl ⟨(x - base) % 32, by omega, hbit, by omega⟩
      · rw [show (x - base) / 32 = (x - (base + 32)) / 32 + 1 by omega, List.getElem?_cons_succ] at he'
        rw [show (x - base) % 32 = (x - (base + 32)) % 32 by omega] at hbit
        exact .inr ⟨by omega, e', he', hbit⟩

/-- The installed bitmap is the map's bits (R24, R89). -/
theorem redirected_installRedirect (map : Vector DWord 2048) (s : State) (p : Port) :
    (installRedirect map s).bus.redirected p = map[p.toNat / 32]!.getLsbD (p.toNat % 32) := by
  have hp : p.toNat / 32 < 2048 := by have := p.isLt; omega
  have hmem : p.toNat ∈ flaggedPorts 0 map.toList ↔ map[p.toNat / 32]!.getLsbD (p.toNat % 32) = true := by
    rw [mem_flaggedPorts]
    simp [hp]
  have hcontains : (installRedirect map s).bus.redirected p = true ↔ p.toNat ∈ flaggedPorts 0 map.toList := by
    simp [Bus.redirected, installRedirect]
  exact Bool.eq_iff_iff.2 (hcontains.trans hmem)

/-- START past its check of the firmware's place. -/
theorem execStart_of_fits {kb : Nat} {s : State} (idle : s.sched.state = .idle)
    (fits : s.params.firmwareOrigin + s.params.firmware.length ≤ kb * 1024) (map : Vector DWord 2048) (g : Nat)
    (name : Option String) : exec (.start kb map g name) s = .next (runSession g (loaded kb map s)) := by
  have hload : loadFirmware (configureMemory (kb * 1024) (installRedirect map s)) = .next (loaded kb map s) :=
    memWriteOp_inRegion ((inRegion_iff _ _ _).2 (.inr fits))
  rw [exec, execStart, if_pos idle, hload, andThen_next]

/-- Settles O49: the session is run from `loaded`, whose memory is the firmware's write (`readByte_guestWrite`). -/
theorem startInstallsMapLoadsFirmwareRuns : Obligations.StartInstallsMapLoadsFirmwareRuns := by
  intro kb g map name s idle fits
  obtain ⟨hinside, houtside⟩ := readByte_guestWrite s.params.firmwareOrigin s.params.firmware
    (configureMemory (kb * 1024) (installRedirect map s))
  refine ⟨_, execStart_of_fits idle fits map g name, redirected_installRedirect map s, fun w => ?_,
    writeBytes_size _ _ _, hinside, houtside, rfl, rfl, rfl, ?_, rfl, rfl, rfl, rfl, rfl, rfl, rfl, rfl⟩
  · cases w <;> rfl
  · exact Option.some_ne_none _

/-! ### RESET (R212) -/

theorem exec_resetCmd_of_fits {handle : Nat} {s : State} (notIdle : s.sched.state ≠ .idle)
    (cpu : s.sched.cpu = some handle) (fits : s.params.firmwareOrigin + s.params.firmware.length ≤ s.mem.size)
    (g : Nat) :
    exec (.resetCmd g) s =
      .next (restart handle g (guestWrite s.params.firmwareOrigin s.params.firmware s)) := by
  have hload : loadFirmware s = .next (guestWrite s.params.firmwareOrigin s.params.firmware s) :=
    memWriteOp_inRegion ((inRegion_iff _ _ _).2 (.inr fits))
  rw [exec, execResetCmd, cpu]
  split
  · exact absurd ‹_› notIdle
  · contradiction
  · rename_i h e _
    cases e
    rw [hload, andThen_next]

/-- What a restart writes of the Scheduler: all but a debug pause is resumed. -/
theorem restart_sched (handle g : Nat) (s : State) :
    (restart handle g s).sched =
      if s.sched.state = .debugPaused then { s.sched with generation := g }
      else { s.sched with generation := g, state := .running, wake := some s.now } := by
  by_cases h : s.sched.state = .debugPaused
  · rw [if_pos h]; exact congrArg State.sched (if_pos h)
  · rw [if_neg h]; exact congrArg State.sched (if_neg h)

/-- Settles O50: the firmware's write, then the restart. -/
theorem resetPreservesDevices : Obligations.ResetPreservesDevices := by
  intro g handle s notIdle cpu fits
  obtain ⟨hinside, houtside⟩ := readByte_guestWrite s.params.firmwareOrigin s.params.firmware s
  have hmem : (restart handle g (guestWrite s.params.firmwareOrigin s.params.firmware s)).mem =
      (guestWrite s.params.firmwareOrigin s.params.firmware s).mem := by
    rw [restart_rest]
  refine ⟨_, exec_resetCmd_of_fits notIdle cpu fits g, ?_, ?_, ?_, ?_⟩
  · rw [hmem]; exact hinside
  · rw [hmem]; exact houtside
  · rw [hmem]; exact writeBytes_size _ _ _
  · rw [hmem, restart_rest, restart_sched]; rfl

/-! ### STEP, STEPOVER, BREAK, CONTINUE and DEBUG (R213 to R217) -/

/-- A step of the core completes where its activity can be followed, and only redraws (R213, R214). -/
theorem stepCore_completes {ops : List CoreOp} {s : State} (hpaused : paused s = true)
    (hfollow : followable s s.now ops) (cs : List CoreCall) :
    ∃ u, runCoreOps ops (callCoreAll cs s) = .next u ∧ u.now = clockAfter s.now ops ∧
      stepCore cs ops s = .next (redraw u) := by
  have hfollow' : followable (callCoreAll cs s) (callCoreAll cs s).now ops :=
    ⟨hfollow.1, fun o ho => coreOpFits_of_eq rfl rfl (hfollow.2 o ho)⟩
  obtain ⟨u, hu, hnow⟩ := runCoreOps_completes hfollow'
  refine ⟨u, hu, hnow, ?_⟩
  rw [stepCore, if_pos hpaused, hu, andThen_next]

/-- Settles O51: both are `stepCore`, with their own calls. -/
theorem steppingLeavesSchedulerState : Obligations.SteppingLeavesSchedulerState := by
  intro ops ending s hstate hfollow i hi
  have hpaused : paused s = true := (paused_iff s).2 (hstate.imp_right .inl)
  have hcalls : ∃ cs, exec i s = stepCore cs ops s ∧ (i = .stepCmd ops ending → cs = [.step s.sched.cpu]) ∧
      (i = .stepOver ops ending → cs = stepOverCalls s) := by
    rcases hi with rfl | rfl
    · exact ⟨[.step s.sched.cpu], rfl, fun _ => rfl, nofun⟩
    · exact ⟨stepOverCalls s, rfl, nofun, fun _ => rfl⟩
  obtain ⟨cs, hexec, hstep, hover⟩ := hcalls
  obtain ⟨u, hu, hnow, hcompletes⟩ := stepCore_completes hpaused hfollow cs
  have m := (moved_runCoreOps hu).stays
  obtain ⟨l, hl, hreport⟩ := redraw_hostOut u
  refine ⟨redraw u, u, l, cs, hexec.trans hcompletes, hstep, fun e => ?_, hu, ?_, hreport, m.state, m.wake, m.debugReq,
    m.cpu, m.bus, m.coreCalls, hnow⟩
  · rw [hover e]; exact stepOverCalls_cases s
  · rw [← hl]; rfl

/-- Settles O52: BREAK by the state, CONTINUE past its check. -/
theorem breakRequestsAndContinueResumes : Obligations.BreakRequestsAndContinueResumes := by
  intro s
  refine ⟨fun h => ?_, fun h => ?_, fun h => ?_⟩
  · exact congrArg Host.Outcome.next (breakOp_of_running h)
  · exact congrArg Host.Outcome.next (breakOp_of_not_running h)
  · exact if_pos ((paused_iff s).2 (h.imp_right .inl))

theorem queryCall_cases (handle : Option Nat) (q : CoreQuery) :
    (∃ selector, queryCall handle q = .getSegmentBase handle selector) ∨
    ∃ seg off n, queryCall handle q = .disassemble handle seg off n := by
  cases q with
  | getSegmentBase selector => exact .inl ⟨selector, rfl⟩
  | disassemble seg off n => exact .inr ⟨seg, off, n, rfl⟩

/-- Settles O53: the carried commands share their meanings; an inspection's outputs and questions are of the kinds
`isOutput_toMsg` and `queryCall_cases` name. -/
theorem debugCarriesCommands : Obligations.DebugCarriesCommands := by
  intro s
  refine ⟨rfl, rfl, fun _ _ => ⟨rfl, rfl⟩, fun c => ?_, fun _ => rfl⟩
  refine ⟨(Config.inspectMessages c s.fresh).map Output.toMsg,
    (Config.inspectQueries c s.fresh).map (queryCall s.sched.cpu), rfl, fun m hm => ?_, fun q hq => ?_⟩
  · obtain ⟨o, _, rfl⟩ := List.mem_map.1 hm
    exact isOutput_toMsg o
  · obtain ⟨q, _, rfl⟩ := List.mem_map.1 hq
    exact queryCall_cases _ q

end Sys2Proof.Machine
end
